-- ==== Sys2Proof/Word.lean ====
section
/-! DEFINITION. The words of the DeepCABAC_Final coder: the widths that 00_scope.md R8 fixes. -/

namespace Sys2Proof

/-- The host port's data, every CSR and every command word: 32 bits (R8). -/
abbrev Word := BitVec 32

/-- One byte of IMG, LEN or BITS (R44). -/
abbrev Byte := BitVec 8

/-- An internal sample, a coder symbol, an operand: 24 bits, unsigned fixed point Q8.16 (R8, R10). -/
abbrev Sym := BitVec 24

/-- A byte offset into the device window: 22 bits (R8, R43). -/
abbrev Offset := BitVec 22

end Sys2Proof
end

