-- ==== Sys2Proof/Config.lean ====
section
/-! DEFINITION. What an implementation fixes (the four capacities of 00_scope.md R7) and the free values: what the spec
leaves open, each an opaque constant that nothing can evaluate. -/

namespace Sys2Proof.Config

/-- The three memories of the device (20_memory.md R44). -/
inductive Space where
  | img
  | len
  | bits
deriving DecidableEq, Repr

/-- The implementation parameters of 00_scope.md R7, readable in FT_CAP, IMG_CAP, LEN_CAP and BITS_CAP (R34). -/
structure Caps where
  imgBytes  : Nat
  lenWords  : Nat
  bitsBytes : Nat
  ftEntries : Nat
deriving DecidableEq, Repr

/-- The defaults that R7 suggests. DESIGN CHOICE, unsafe (log 5): the spec leaves the parameters open. -/
def Caps.suggested : Caps :=
  { imgBytes := 1048576, lenWords := 4096, bitsBytes := 1048576, ftEntries := 4096 }

/-- FREE VALUE (R42, R125; 93_implementation_defined.md U1, U3): the byte that address `addr` of memory `space` holds
while nothing has written it. `epoch` tells one draw from another. DESIGN CHOICE, safe (log 2). -/
opaque unwrittenByte (space : Space) (epoch addr : Nat) : Byte

/-- FREE VALUE (R50(e); U2): the word that draw number `n` answers to a read of engine-written state while BUSY = 1.
DESIGN CHOICE, safe (log 4). -/
opaque busyRead (n : Nat) : Word

/-- FREE VALUE (R109, R133; U4, U16): how many host transactions come between the acceptance of a command and the engine
step that runs it, if the host makes that many. DESIGN CHOICE, safe (log 3). -/
opaque engineDelay (n : Nat) : Nat

/-- FREE VALUE (30_encoding.md R61): the offset of a PIX line for byte `n` of IMG where 0x100000 + n is no 22-bit offset (R43),
so that the spec names no transaction. DESIGN CHOICE (log 17). -/
opaque offsetBeyondWindow (n : Nat) : Offset

end Sys2Proof.Config
end

