-- ==== Sys2Proof/Syntax.lean ====
section
/-! DEFINITION. The syntax: the eleven commands of 30_encoding.md R58, the transactions of the host port (20_memory.md R43)
and the host listing of R61. -/

namespace Sys2Proof

/-- The commands, one constructor per row of spec/opcode_table.json (R58). No command carries an operand (R57). -/
inductive Instr where
  | nop
  | compress
  | ftClear
  | pkReset
  | xform
  | quant
  | prob
  | ftInc
  | acBegin
  | acEncode
  | acEnd
deriving DecidableEq, Repr

/-- What can reach the device from outside between two engine steps: the two transactions of R43, the host's polling
loop (R61 POLL) and the reset input (R124). -/
inductive Transaction where
  /-- `HostRead(off)`. -/
  | read (off : Offset)
  /-- `HostWrite(off, v)`. -/
  | write (off : Offset) (v : Word)
  /-- POLL: read STATUS, and again until BUSY reads 0. -/
  | poll
  /-- The device's reset input (power-on reset). -/
  | powerOn
deriving DecidableEq, Repr

/-- One line of a host listing (R61). REPEAT is a shorthand of the listing (`repeatLines`), not a line of its own. -/
inductive HostLine where
  /-- `WR off, v`. -/
  | wr (off : Offset) (v : Word)
  /-- `RD off`; the value that the listing states after an arrow is a claim, not part of the transaction. -/
  | rd (off : Offset)
  /-- `CMD mnemonic`. -/
  | cmd (i : Instr)
  /-- `POLL`. -/
  | poll
  /-- `CLRST`. -/
  | clrst
  /-- `PIX x, y, r, g, b`. -/
  | pix (x y : Nat) (r g b : Byte)
deriving DecidableEq, Repr

/-- `REPEAT n { lines }`: the lines written n times in sequence (R61). -/
def repeatLines (n : Nat) (body : List HostLine) : List HostLine := (List.replicate n body).flatten

end Sys2Proof
end

