-- ==== Sys2Proof/WellFormed.lean ====
section
/-! DEFINITION. What is well-formed: a command word (30_encoding.md R56, R59), a command, the parameters (00_scope.md R7). -/

namespace Sys2Proof

/-- RSV = `word[31:8]` must be 0 (R56). -/
def WellFormed.reservedZero (w : Word) : Bool := w.extractLsb' 8 24 == 0#24

/-- OPC = `word[7:0]` is one of the eleven values of R58. -/
def WellFormed.opcodeListed (w : Word) : Bool :=
  [0x00#8, 0x01#8, 0x02#8, 0x03#8, 0x10#8, 0x11#8, 0x12#8, 0x13#8, 0x20#8, 0x21#8, 0x22#8].contains (w.extractLsb' 0 8)

/-- A legal command word (R59, R60). -/
def WellFormed.commandWord (w : Word) : Bool := WellFormed.reservedZero w && WellFormed.opcodeListed w

/-- Every command is well-formed: it has no field that could be out of range (R57). -/
def Instr.wellFormed : Instr → Bool
  | .nop => true
  | .compress => true
  | .ftClear => true
  | .pkReset => true
  | .xform => true
  | .quant => true
  | .prob => true
  | .ftInc => true
  | .acBegin => true
  | .acEncode => true
  | .acEnd => true

/-- The legal values of the parameters (R7): IMG_BYTES and BITS_BYTES multiples of 4 in 4 to 2^20, LEN_WORDS in 1 to 2^18,
FT_ENTRIES in 1 to 2^32 − 1. -/
def Config.Caps.legal (c : Config.Caps) : Bool :=
  c.imgBytes % 4 == 0 && decide (4 ≤ c.imgBytes) && decide (c.imgBytes ≤ 1048576) &&
  decide (1 ≤ c.lenWords) && decide (c.lenWords ≤ 262144) &&
  c.bitsBytes % 4 == 0 && decide (4 ≤ c.bitsBytes) && decide (c.bitsBytes ≤ 1048576) &&
  decide (1 ≤ c.ftEntries) && decide (c.ftEntries ≤ 4294967295)

end Sys2Proof
end

