-- ==== Sys2Proof/Decode.lean ====
section
/-! DEFINITION. The decoder of the command words (30_encoding.md R56 to R60), total on all words and rejecting by name, and
the encoder. -/

namespace Sys2Proof

/-- Why a word is illegal (R59). -/
inductive DecodeError where
  /-- RSV = `word[31:8]` is not 0. -/
  | reservedNonzero
  /-- OPC = `word[7:0]` is none of the values of R58. -/
  | unknownOpcode
deriving DecidableEq, Repr

/-- OPC of R56. -/
def opcodeOf (w : Word) : BitVec 8 := w.extractLsb' 0 8

/-- RSV of R56. -/
def reservedOf (w : Word) : BitVec 24 := w.extractLsb' 8 24

/-- The opcode map of R58. -/
def commandOfOpcode (opc : BitVec 8) : Option Instr :=
  if opc = 0x00#8 then some .nop
  else if opc = 0x01#8 then some .compress
  else if opc = 0x02#8 then some .ftClear
  else if opc = 0x03#8 then some .pkReset
  else if opc = 0x10#8 then some .xform
  else if opc = 0x11#8 then some .quant
  else if opc = 0x12#8 then some .prob
  else if opc = 0x13#8 then some .ftInc
  else if opc = 0x20#8 then some .acBegin
  else if opc = 0x21#8 then some .acEncode
  else if opc = 0x22#8 then some .acEnd
  else none

/-- Decoding a command word: each word is one of the eleven commands or illegal (R59, R60). -/
def decode (w : Word) : Except DecodeError Instr :=
  if reservedOf w ≠ 0#24 then .error .reservedNonzero
  else
    match commandOfOpcode (opcodeOf w) with
    | some i => .ok i
    | none => .error .unknownOpcode

/-- The decoder as the host's checks call it: an instruction is one 32-bit word, so a number that needs more bits is no
instruction; the bits above `nbits` are 0. -/
def decodeTableWord (nbits w : Nat) : Option Instr :=
  if w % 2 ^ nbits < 4294967296 then
    match decode (BitVec.ofNat 32 (w % 2 ^ nbits)) with
    | .ok i => some i
    | .error _ => none
  else none

/-- OPC of each command (R58). -/
def opcodeOfCommand : Instr → BitVec 8
  | .nop => 0x00#8
  | .compress => 0x01#8
  | .ftClear => 0x02#8
  | .pkReset => 0x03#8
  | .xform => 0x10#8
  | .quant => 0x11#8
  | .prob => 0x12#8
  | .ftInc => 0x13#8
  | .acBegin => 0x20#8
  | .acEncode => 0x21#8
  | .acEnd => 0x22#8

/-- The one word of a command: RSV = 0 above OPC (R56). -/
def encode (i : Instr) : Word := 0#24 ++ opcodeOfCommand i

end Sys2Proof
end

