-- ==== Sys2Proof/Machine/State.lean ====
section
/-! DEFINITION. The state of the device (10_state.md, 20_memory.md R44), the reasons a step can stop, and the state after
power-on reset (70_reset_and_hazards.md R124). -/

namespace Sys2Proof.Machine

open Sys2Proof

/-- The error codes of 60_exceptions.md R110. The reserved codes 0x0A to 0xFF are never reported, so there are none. -/
inductive ErrCode where
  | none
  | illegalCmd
  | cmdBusy
  | accessBusy
  | configError
  | shapeError
  | codingDegeneracy
  | ftFull
  | countOverflow
  | outOverflow
deriving DecidableEq, Repr

/-- The fields of STATUS (R21). -/
structure Status where
  busy  : Bool
  done  : Bool
  err   : Bool
  valid : Bool
  code  : ErrCode
deriving DecidableEq, Repr

/-- The fields of IER (R22). -/
structure InterruptEnable where
  doneIe : Bool
  errIe  : Bool
deriving DecidableEq, Repr

/-- The fields of CONFIG (R23): `cspace` is 1 for YCbCr, `adapt` is 1 for the adaptive mode. -/
structure ConfigReg where
  bsize  : BitVec 8
  cspace : Bool
  adapt  : Bool
deriving DecidableEq, Repr

/-- BITPOS, BLKIDX, BLKBITS and TOTALBITS (R27 to R30). -/
structure Packer where
  bitpos    : Word
  blkidx    : Word
  blkbits   : Word
  totalbits : Word
deriving DecidableEq, Repr

/-- AC_LOW and AC_HIGH in Q1.31 (R35). -/
structure Coder where
  low  : Word
  high : Word
deriving DecidableEq, Repr

/-- AC_HLEN and AC_HIST0 to AC_HIST3, `h0` the oldest (R36). HLEN is 0 to 4. -/
structure History where
  len : Fin 5
  h0  : Sym
  h1  : Sym
  h2  : Sym
  h3  : Sym
deriving DecidableEq, Repr

/-- A key of the frequency table (R38): a context of at most four symbols, oldest first, and a value. -/
structure Key where
  ctx   : List Sym
  value : Sym
deriving DecidableEq, Repr

/-- The frequency table (R38) with FT_TOTAL and FT_USED (R33): a list of keys and counts in one canonical form
(`FreqTable.wf`), an unlisted key having count 0. -/
structure FreqTable where
  entries : List (Key × Word)
  total   : Word
  used    : Word
deriving DecidableEq, Repr

/-- One memory: the bytes that have been written since its contents last became unspecified, in one canonical form
(`Memory.wf`), and which draw the other bytes come from. -/
structure Memory where
  cells : List Host.Cell
  epoch : Nat
deriving DecidableEq, Repr

/-- The state of the device. -/
structure State where
  /-- FT_CAP, IMG_CAP, LEN_CAP, BITS_CAP: constants of one device (R34). -/
  caps    : Config.Caps
  /-- STATUS (R21). -/
  status  : Status
  /-- IER (R22). -/
  ier     : InterruptEnable
  /-- CONFIG (R23). -/
  config  : ConfigReg
  /-- QLEVEL (R24). -/
  qlevel  : BitVec 16
  /-- WIDTH (R25). -/
  width   : BitVec 16
  /-- HEIGHT (R25). -/
  height  : BitVec 16
  /-- NBLOCKS (R26). -/
  nblocks : Word
  /-- The bit-packing unit (R27 to R30). -/
  pk      : Packer
  /-- OP0 (R31). -/
  op0     : Sym
  /-- OP1 (R31). -/
  op1     : Sym
  /-- OP2 (R31). -/
  op2     : Sym
  /-- RES0 (R32). -/
  res0    : Word
  /-- RES1 (R32). -/
  res1    : Word
  /-- RES2 (R32). -/
  res2    : Word
  /-- The frequency table, FT_TOTAL and FT_USED (R33, R38). -/
  ft      : FreqTable
  /-- AC_LOW, AC_HIGH (R35). -/
  coder   : Coder
  /-- AC_HLEN, AC_HIST0 to AC_HIST3 (R36). -/
  hist    : History
  /-- The accepted command word, meaningful only while BUSY = 1 (R40). -/
  pending : Option Word
  /-- IMG (R44). -/
  img     : Memory
  /-- LEN (R44), as bytes: entry i is the word at offset 4*i (R48). -/
  lenMem  : Memory
  /-- BITS (R44). -/
  bits    : Memory
  /-- MODEL's own (log 1): what is still to reach the device from outside, in order. -/
  inbox   : List Transaction
  /-- MODEL's own (log 1): the words the host port has answered to reads, newest first. -/
  replies : List Word
  /-- MODEL's own (log 3): the host transactions that still come before the engine step. -/
  delay   : Nat
  /-- MODEL's own (log 4): how many free values have been drawn. -/
  draws   : Nat
deriving DecidableEq, Repr

/-- Why a step stops with a fault. -/
inductive Fault where
  /-- Raised by the engine step when BUSY = 1 and `pending` holds no legal command word. Safe: only a legal word is ever
  accepted (R108), so no run reaches it (log 9). -/
  | pendingNotACommand
deriving DecidableEq, Repr

/-- Why a step refuses. -/
inductive Refusal where
  /-- Raised by `exec` for an instruction that has no meaning yet. Safe: the model stops. No arm answers it. -/
  | notModelled (mnemonic : String)
deriving DecidableEq, Repr

/-- AC_LOW = 0 and AC_HIGH = ONE: the interval [0, 1) (R35, R85). -/
def Coder.full : Coder := { low := 0x00000000#32, high := 0x80000000#32 }

/-- The empty context (R36). -/
def History.empty : History := { len := 0, h0 := 0#24, h1 := 0#24, h2 := 0#24, h3 := 0#24 }

/-- The empty table (R38). -/
def FreqTable.empty : FreqTable := { entries := [], total := 0#32, used := 0#32 }

/-- The bit-packing unit after reset (R124) and after PK_RESET (R97). -/
def Packer.zero : Packer := { bitpos := 0#32, blkidx := 0#32, blkbits := 0#32, totalbits := 0#32 }

/-- A memory of which nothing has been written since draw `epoch` (R42). -/
def Memory.unwritten (epoch : Nat) : Memory := { cells := [], epoch := epoch }

/-- STATUS after reset (R21). -/
def Status.idle : Status := { busy := false, done := false, err := false, valid := false, code := .none }

/-- The state right after power-on reset (R124). The capacities are the suggested defaults (log 5); the model's own fields
are empty (log 1, log 3, log 4). -/
def State.reset : State :=
  { caps := Config.Caps.suggested
    status := Status.idle
    ier := { doneIe := false, errIe := false }
    config := { bsize := 8#8, cspace := true, adapt := false }
    qlevel := 8#16
    width := 0#16
    height := 0#16
    nblocks := 0#32
    pk := Packer.zero
    op0 := 0#24, op1 := 0#24, op2 := 0#24
    res0 := 0#32, res1 := 0#32, res2 := 0#32
    ft := FreqTable.empty
    coder := Coder.full
    hist := History.empty
    pending := none
    img := Memory.unwritten 0
    lenMem := Memory.unwritten 0
    bits := Memory.unwritten 0
    inbox := []
    replies := []
    delay := 0
    draws := 0 }

end Sys2Proof.Machine
end

