-- ==== Sys2Proof/Machine/Ops.lean ====
section
/-! DEFINITION. The operations over memories, the frequency table and STATUS that the command rules share: reading and
writing bytes and words (00_scope.md R11, 20_memory.md R46), the table's count and increment (43_context_model.md R79), raising
an error and completing a command (60_exceptions.md R109 to R113). -/

namespace Sys2Proof.Machine

open Sys2Proof

/-! ### Finite maps as lists in rising order of a rank -/

/-- The entry of rank `n`. -/
def assocFind {α β : Type} (rank : α → Nat) (n : Nat) : List (α × β) → Option β
  | [] => none
  | e :: l => if rank e.1 = n then some e.2 else assocFind rank n l

/-- Set the entry of key `k`, in its place in the rising order. -/
def assocPut {α β : Type} (rank : α → Nat) (k : α) (v : β) : List (α × β) → List (α × β)
  | [] => [(k, v)]
  | e :: l =>
    if rank k < rank e.1 then (k, v) :: e :: l
    else if rank k = rank e.1 then (k, v) :: l
    else e :: assocPut rank k v l

/-- The canonical form: ranks strictly rising. -/
abbrev assocRising {α β : Type} (rank : α → Nat) (l : List (α × β)) : Prop :=
  (l.map fun e => rank e.1).Pairwise (· < ·)

/-! ### Memories -/

/-- The canonical form of a memory: addresses strictly rising. An unlisted address is one that nothing has written, so no
entry can equal what it reads as (log 2). -/
abbrev Memory.wf (m : Memory) : Prop := assocRising id m.cells

/-- `MemRead(space, a, 1)`. A byte that nothing has written is a free value (R42; log 2). -/
def Memory.read (space : Config.Space) (m : Memory) (a : Nat) : Byte :=
  match assocFind id a m.cells with
  | some b => b
  | none => Config.unwrittenByte space m.epoch a

/-- `MemWrite(space, a, 1, b)`. -/
def Memory.write (m : Memory) (a : Nat) (b : Byte) : Memory := { m with cells := assocPut id a b m.cells }

/-- `MemRead(space, a, 4)` = {byte[a+3], byte[a+2], byte[a+1], byte[a]} (R46). -/
def Memory.readWord (space : Config.Space) (m : Memory) (a : Nat) : Word :=
  m.read space (a + 3) ++ m.read space (a + 2) ++ m.read space (a + 1) ++ m.read space a

/-- `MemWrite(space, a, 4, v)`, the byte at `a` from bits [7:0] (R46). -/
def Memory.writeWord (m : Memory) (a : Nat) (v : Word) : Memory :=
  (((m.write a (v.extractLsb' 0 8)).write (a + 1) (v.extractLsb' 8 8)).write (a + 2) (v.extractLsb' 16 8)).write (a + 3)
    (v.extractLsb' 24 8)

/-- Read a byte of one of the three memories (R44). -/
def State.byteAt (s : State) : Config.Space → Nat → Byte
  | .img, a => s.img.read .img a
  | .len, a => s.lenMem.read .len a
  | .bits, a => s.bits.read .bits a

/-- Entry i of LEN: the word at LEN offset 4*i (R48). -/
def State.lenEntry (s : State) (i : Nat) : Word := s.lenMem.readWord .len (4 * i)

/-- Bit n of the emitted stream: bit 7 − (n mod 8) of the byte at BITS offset n / 8 (R49). -/
def State.streamBit (s : State) (n : Nat) : Bool := (s.bits.read .bits (n / 8)).getLsbD (7 - n % 8)

/-! ### Errors and completion -/

/-- How far a command rule has come: it goes on from a state, or it has raised an error in a state (R11 `raise`, R111). -/
inductive Run where
  | ok (s : State)
  | raised (e : ErrCode) (s : State)
deriving DecidableEq, Repr

/-- Program order: no statement after a raise runs (R111). -/
def Run.andThen (r : Run) (f : State → Run) : Run :=
  match r with
  | .ok s => f s
  | .raised e s => .raised e s

/-- A `for` loop of a rule, stopping at the first raise. -/
def forEach {α : Type} (f : α → State → Run) : List α → State → Run
  | [], s => .ok s
  | a :: l, s => (f a s).andThen (forEach f l)

/-- The record step of R111: the first error wins (R113). -/
def Status.record (e : ErrCode) (st : Status) : Status :=
  { st with code := if st.err then st.code else e, err := true }

/-- `raise_host E` (R108, R112): the record step alone. -/
def State.recordError (e : ErrCode) (s : State) : State := { s with status := s.status.record e }

/-- `BUSY <- 0; DONE <- 1` (R109, R111). -/
def Status.finish (st : Status) : Status := { st with busy := false, done := true }

/-- The end of a command: completion (R109) or abort, with every change made before the raise kept (R111). This is the one
operation that takes an error; there is no trap entry beyond it (R116). -/
def complete : Run → State
  | .ok s => { s with status := s.status.finish }
  | .raised e s => { s with status := (s.status.record e).finish }

/-- A host write to STATUS (R21, R113): bit 1 clears DONE, bit 2 clears ERR and ERRCODE. This is how the host returns from
an error (R117). -/
def Status.writeOneToClear (v : Word) (st : Status) : Status :=
  { st with
    done := st.done && !v.getLsbD 1
    err := st.err && !v.getLsbD 2
    code := if v.getLsbD 2 then .none else st.code }

/-- `VALID <- 0`. -/
def State.clearValid (s : State) : State := { s with status := { s.status with valid := false } }

/-! ### The frequency table -/

/-- A number for each key, distinct for distinct keys: the symbols as digits in base 2^24 after a leading 1, so that keys
of different lengths differ (R38). It only orders the entries (log 10). -/
def Key.rank (k : Key) : Nat :=
  16777216 * k.ctx.foldl (fun n c => 16777216 * n + c.toNat) 1 + k.value.toNat

/-- `FT.count(key)`: the count of a key, 0 if absent (R11, R38). -/
def FreqTable.count (ft : FreqTable) (k : Key) : Word :=
  match assocFind Key.rank k.rank ft.entries with
  | some n => n
  | none => 0#32

/-- The key is present in the table. -/
def FreqTable.present (ft : FreqTable) (k : Key) : Bool := (assocFind Key.rank k.rank ft.entries).isSome

/-- Set a key's count. -/
def FreqTable.setCount (ft : FreqTable) (k : Key) (n : Word) : List (Key × Word) := assocPut Key.rank k n ft.entries

/-- The sum of all counts (R33). -/
def FreqTable.sum (ft : FreqTable) : Nat := (ft.entries.map fun e => e.2.toNat).sum

/-- The canonical form and the invariant of R38: keys rising, contexts of at most four symbols, counts at least 1, FT_TOTAL
the sum of the counts and FT_USED the number of keys. -/
abbrev FreqTable.wf (ft : FreqTable) : Prop :=
  assocRising Key.rank ft.entries ∧ (∀ e ∈ ft.entries, e.1.ctx.length ≤ 4 ∧ e.2 ≠ 0#32) ∧
    ft.total.toNat = ft.sum ∧ ft.used.toNat = ft.entries.length

/-- `FT.inc(k)` (R79). -/
def ftIncrement (k : Key) (s : State) : Run :=
  if s.ft.total = 0xFFFFFFFF#32 then .raised .countOverflow s
  else if s.ft.present k then
    .ok { s with
      ft := { entries := s.ft.setCount k (s.ft.count k + 1#32), total := s.ft.total + 1#32, used := s.ft.used } }
  else if s.ft.used.toNat = s.caps.ftEntries then .raised .ftFull s
  else .ok { s with ft := { entries := s.ft.setCount k 1#32, total := s.ft.total + 1#32, used := s.ft.used + 1#32 } }

end Sys2Proof.Machine
end

