-- ==== Sys2Proof/Machine/Operands.lean ====
section
/-! DEFINITION. The operands of the commands (30_encoding.md R57, R62): each is a zero-extended field of a register, nothing
is sign-extended, scaled or shifted. -/

namespace Sys2Proof.Machine

open Sys2Proof

/-- The sample or symbol that QUANT, PROB, FT_INC and AC_ENCODE read: OP0[23:0] (R62). -/
def State.symbolOperand (s : State) : Sym := s.op0

/-- The current context, HIST[0] to HIST[HLEN − 1], oldest first (R76). -/
def History.context (h : History) : List Sym := [h.h0, h.h1, h.h2, h.h3].take h.len.val

/-- The key (ctx, v) of symbol v in the current context (R76, R91). -/
def State.keyOf (s : State) (v : Sym) : Key := { ctx := s.hist.context, value := v }

/-- L = QLEVEL[15:0] (R24). -/
def State.level (s : State) : Nat := s.qlevel.toNat

/-- B = CONFIG.BSIZE (R68). -/
def State.side (s : State) : Nat := s.config.bsize.toNat

/-- W = WIDTH[15:0] (R68). -/
def State.imgWidth (s : State) : Nat := s.width.toNat

/-- H = HEIGHT[15:0] (R68). -/
def State.imgHeight (s : State) : Nat := s.height.toNat

end Sys2Proof.Machine
end

