-- ==== Sys2Proof/Machine/Flags.lean ====
section
/-! DEFINITION. The status fields as the host sees them: the STATUS and IER words (10_state.md R21, R22), the error code values
(60_exceptions.md R110) and the interrupt output (R115). -/

namespace Sys2Proof.Machine

open Sys2Proof

/-- The value of ERRCODE (R110). -/
def ErrCode.value : ErrCode → Byte
  | .none => 0x00#8
  | .illegalCmd => 0x01#8
  | .cmdBusy => 0x02#8
  | .accessBusy => 0x03#8
  | .configError => 0x04#8
  | .shapeError => 0x05#8
  | .codingDegeneracy => 0x06#8
  | .ftFull => 0x07#8
  | .countOverflow => 0x08#8
  | .outOverflow => 0x09#8

/-- STATUS (R21): ERRCODE in bits [15:8], VALID, ERR, DONE, BUSY in bits 3 to 0, every other bit 0. -/
def Status.word (st : Status) : Word :=
  0#16 ++ st.code.value ++ 0#4 ++ BitVec.ofBool st.valid ++ BitVec.ofBool st.err ++ BitVec.ofBool st.done ++
    BitVec.ofBool st.busy

/-- IER (R22): ERR_IE in bit 1, DONE_IE in bit 0, every other bit 0. -/
def InterruptEnable.word (e : InterruptEnable) : Word :=
  0#30 ++ BitVec.ofBool e.errIe ++ BitVec.ofBool e.doneIe

/-- CONFIG (R23): ADAPT in bit 9, CSPACE in bit 8, BSIZE in bits [7:0], every other bit 0. -/
def ConfigReg.word (c : ConfigReg) : Word :=
  0#22 ++ BitVec.ofBool c.adapt ++ BitVec.ofBool c.cspace ++ c.bsize

/-- The interrupt output, level-sensitive (R41, R115). -/
def State.irq (s : State) : Bool := (s.status.done && s.ier.doneIe) || (s.status.err && s.ier.errIe)

end Sys2Proof.Machine
end

