-- ==== Sys2Proof/Machine/ColorTransform.lean ====
section
/-! DEFINITION. The colour-space matrix transform (41_color_transform.md): `Xform`, the pass-through and XFORM. -/

namespace Sys2Proof.Machine

open Sys2Proof

/-- accY of R63: at most 40 bits. -/
def accY (r g b : Nat) : Nat := 19595 * r + 38470 * g + 7471 * b

/-- accCb of R63, 128 << 32 = 549755813888. The subtraction never goes below 0 (R65). -/
def accCb (r g b : Nat) : Nat := 549755813888 + 32768 * b - (11058 * r + 21710 * g)

/-- accCr of R63. The subtraction never goes below 0 (R65). -/
def accCr (r g b : Nat) : Nat := 549755813888 + 32768 * r - (27439 * g + 5329 * b)

/-- `acc >> 16` as a 24-bit Q8.16 value (R63, R65: it fits). -/
def truncAcc (acc : Nat) : Sym := BitVec.ofNat 24 (acc / 65536)

/-- `Xform(R, G, B)` (R63). -/
def xformTriple (r g b : Sym) : Sym × Sym × Sym :=
  (truncAcc (accY r.toNat g.toNat b.toNat), truncAcc (accCb r.toNat g.toNat b.toNat),
    truncAcc (accCr r.toNat g.toNat b.toNat))

/-- The transform that COMPRESS applies: `Xform` for YCbCr (R102), the identity for RGB (R66). -/
def colorTriple (ycbcr : Bool) (r g b : Sym) : Sym × Sym × Sym :=
  if ycbcr then xformTriple r g b else (r, g, b)

/-- The rule of XFORM (R64). -/
def xformRule (s : State) : Run :=
  .ok { s with
    res0 := (xformTriple s.op0 s.op1 s.op2).1.setWidth 32
    res1 := (xformTriple s.op0 s.op1 s.op2).2.1.setWidth 32
    res2 := (xformTriple s.op0 s.op1 s.op2).2.2.setWidth 32 }

/-- XFORM (R64). -/
def execXform (s : State) : Host.Outcome State Fault Refusal := .next (complete (xformRule s))

end Sys2Proof.Machine
end

