-- ==== Sys2Proof/Machine/TilerQuantizer.lean ====
section
/-! DEFINITION. The block tiler and the block quantizer (42_tiler_quantizer.md): the geometry of the blocks, the samples of a
tile, `Quant` and QUANT. -/

namespace Sys2Proof.Machine

open Sys2Proof

/-- `ceil(a / b)` (R10). -/
def ceilDiv (a b : Nat) : Nat := (a + b - 1) / b

/-- nby = ceil(H / B) (R68). -/
def State.blockRows (s : State) : Nat := ceilDiv s.imgHeight s.side

/-- nbx = ceil(W / B) (R68). -/
def State.blockCols (s : State) : Nat := ceilDiv s.imgWidth s.side

/-- NB = nby * nbx (R68). -/
def State.blockCount (s : State) : Nat := s.blockRows * s.blockCols

/-- The IMG address of the sample of column x, row y, channel ch (R47). -/
def State.pixelAddr (s : State) (x y ch : Nat) : Nat := 4 * (y * s.imgWidth + x) + ch

/-- The Q8.16 value of a byte: `b << 16` (R10). -/
def sampleOfByte (b : Byte) : Sym := b ++ 0#16

/-- `TileSample(by, bx, r, c, ch)`, 0 in the padding (R70). -/
def tileSample (s : State) (by' bx r c ch : Nat) : Sym :=
  if by' * s.side + r < s.imgHeight ∧ bx * s.side + c < s.imgWidth then
    sampleOfByte (s.img.read .img (s.pixelAddr (bx * s.side + c) (by' * s.side + r) ch))
  else 0#24

/-- `k = floor(x * L / 2^24)` (R72). -/
def quantIndex (x l : Nat) : Nat := x * l / 16777216

/-- `ceil(k * 2^24 / L)` (R72). -/
def quantRaw (x l : Nat) : Nat := ceilDiv (16777216 * quantIndex x l) l

/-- `Quant(x, L)` for L at least 1 (R72); the result fits in 24 bits (R74). -/
def quantize (x : Sym) (l : Nat) : Sym := BitVec.ofNat 24 (quantRaw x.toNat l)

/-- The rule of QUANT (R73). -/
def quantRule (s : State) : Run :=
  if s.level = 0 then .raised .configError s
  else .ok { s with res0 := (quantize s.symbolOperand s.level).setWidth 32 }

/-- QUANT (R73). -/
def execQuant (s : State) : Host.Outcome State Fault Refusal := .next (complete (quantRule s))

end Sys2Proof.Machine
end

