-- ==== Sys2Proof/Machine/ContextModel.lean ====
section
/-! DEFINITION. The context-adaptive frequency model (43_context_model.md): PROB, FT_INC and FT_CLEAR. -/

namespace Sys2Proof.Machine

open Sys2Proof

/-- `Prob(v)`: the count of (ctx, v) and FT_TOTAL (R77). -/
def State.prob (s : State) (v : Sym) : Word × Word := (s.ft.count (s.keyOf v), s.ft.total)

/-- The rule of PROB (R82). -/
def probRule (s : State) : Run :=
  .ok { s with res0 := (s.prob s.symbolOperand).1, res1 := (s.prob s.symbolOperand).2, res2 := 0#32 }

/-- PROB (R82). -/
def execProb (s : State) : Host.Outcome State Fault Refusal := .next (complete (probRule s))

/-- The rule of FT_INC (R83). -/
def ftIncRule (s : State) : Run := ftIncrement (s.keyOf s.symbolOperand) s

/-- FT_INC (R83). -/
def execFtInc (s : State) : Host.Outcome State Fault Refusal := .next (complete (ftIncRule s))

/-- The rule of FT_CLEAR (R84). -/
def ftClearRule (s : State) : Run := .ok { s with ft := FreqTable.empty }

/-- FT_CLEAR (R84). -/
def execFtClear (s : State) : Host.Outcome State Fault Refusal := .next (complete (ftClearRule s))

end Sys2Proof.Machine
end

