-- ==== Sys2Proof/Machine/ArithCoder.lean ====
section
/-! DEFINITION. The arithmetic binary coder, renormalization and bit packing (44_arith_coder.md): AC_BEGIN, AC_ENCODE, AC_END
and PK_RESET. -/

namespace Sys2Proof.Machine

open Sys2Proof

/-- `ONE = 2^31`, which denotes 1 (R85). -/
def coderOne : Nat := 2147483648

/-- `HALF = 2^30`, which denotes 0.5 (R85). -/
def coderHalf : Nat := 1073741824

/-- `Narrow(c, t)` on a coder (R86): both new bounds from the old `low`, exact products, one floor each; none where the
narrowed interval is empty. -/
def narrowCoder (c t : Word) (k : Coder) : Option Coder :=
  let d := t.toNat + 1
  let r := k.high.toNat - k.low.toNat
  let nh := k.low.toNat + r * (c.toNat + 1) / d
  let nl := k.low.toNat + r * c.toNat / d
  if nh = nl then none else some { low := BitVec.ofNat 32 nl, high := BitVec.ofNat 32 nh }

/-- `Narrow(c, t)` (R86). -/
def narrow (c t : Word) (s : State) : Run :=
  match narrowCoder c t s.coder with
  | none => .raised .codingDegeneracy s
  | some k => .ok { s with coder := k }

/-- The byte that `Emit(b)` writes at position `n` of the stream: the first bit of a byte clears the byte (R89). -/
def emitByte (b : Bool) (n : Nat) (old : Byte) : Byte :=
  if 7 - n % 8 = 7 then (BitVec.ofBool b).setWidth 8 <<< 7 else old ||| (BitVec.ofBool b).setWidth 8 <<< (7 - n % 8)

/-- BITPOS, BLKBITS and TOTALBITS go up by one (R89). -/
def Packer.advance (p : Packer) : Packer :=
  { p with bitpos := p.bitpos + 1#32, blkbits := p.blkbits + 1#32, totalbits := p.totalbits + 1#32 }

/-- `Emit(b)` (R89). -/
def emit (b : Bool) (s : State) : Run :=
  if 8 * s.caps.bitsBytes ≤ s.pk.bitpos.toNat then .raised .outOverflow s
  else
    .ok { s with
      bits := s.bits.write (s.pk.bitpos.toNat / 8)
        (emitByte b s.pk.bitpos.toNat (s.bits.read .bits (s.pk.bitpos.toNat / 8)))
      pk := s.pk.advance }

/-- The doubling of the lower half: `low <- 2*low; high <- 2*high` (R87). -/
def Coder.doubleLower (k : Coder) : Coder :=
  { low := BitVec.ofNat 32 (2 * k.low.toNat), high := BitVec.ofNat 32 (2 * k.high.toNat) }

/-- The doubling of the upper half: `low <- 2*low - ONE; high <- 2*high - ONE` (R87). The bounds are at least HALF there, so
the 32-bit difference is the exact one; `high = ONE` maps to ONE (90_conflicts.md C4). -/
def Coder.doubleUpper (k : Coder) : Coder :=
  { low := BitVec.ofNat 32 (2 * k.low.toNat) - 0x80000000#32, high := BitVec.ofNat 32 (2 * k.high.toNat) - 0x80000000#32 }

/-- The loop of `Renorm()` (R87), at most `fuel` times. `Emit` runs before the doubling. -/
def renormLoop : Nat → State → Run
  | 0, s => .ok s
  | fuel + 1, s =>
    if s.coder.high.toNat < coderHalf then
      (emit false s).andThen fun t => renormLoop fuel { t with coder := t.coder.doubleLower }
    else if coderHalf ≤ s.coder.low.toNat then
      (emit true s).andThen fun t => renormLoop fuel { t with coder := t.coder.doubleUpper }
    else .ok s

/-- The bits that BITS still has room for. -/
def State.room (s : State) : Nat := 8 * s.caps.bitsBytes - s.pk.bitpos.toNat

/-- `Renorm()` (R87). Every turn of the loop emits a bit or raises, so it never makes more than `room + 1` turns: the bound
cuts nothing off (log 11; the tighter bound for a coder in range is R88's 31). -/
def renorm (s : State) : Run := renormLoop (s.room + 1) s

/-- `Push(v)` on a history (R90). -/
def History.push (v : Sym) (h : History) : History :=
  match h.len with
  | 0 => { h with len := 1, h0 := v }
  | 1 => { h with len := 2, h1 := v }
  | 2 => { h with len := 3, h2 := v }
  | 3 => { h with len := 4, h3 := v }
  | 4 => { h with h0 := h.h1, h1 := h.h2, h2 := h.h3, h3 := v }

/-- The post-symbol increment of the adaptive mode (R80). -/
def adaptTable (k : Key) (s : State) : Run := if s.config.adapt then ftIncrement k s else .ok s

/-- `EncodeSymbol(v)` (R91). -/
def encodeSymbol (v : Sym) (s : State) : Run :=
  (narrow (s.prob v).1 (s.prob v).2 s).andThen fun s1 =>
    (renorm s1).andThen fun s2 =>
      (adaptTable (s.keyOf v) s2).andThen fun s3 =>
        .ok { s3 with hist := s3.hist.push v }

/-- The effect of AC_BEGIN without VALID (R94, R103). -/
def beginBlock (s : State) : State :=
  { s with coder := Coder.full, hist := History.empty, pk := { s.pk with blkbits := 0#32 } }

/-- `BITPOS <- 8 * ceil(BITPOS / 8)` (R96). -/
def padToByte (n : Word) : Word := BitVec.ofNat 32 (8 * ceilDiv n.toNat 8)

/-- The effect of AC_END without VALID and without its capacity check (R96, R103). -/
def closeBlock (s : State) : State :=
  { s with
    lenMem := s.lenMem.writeWord (4 * s.pk.blkidx.toNat) s.pk.blkbits
    pk := { s.pk with blkidx := s.pk.blkidx + 1#32, bitpos := padToByte s.pk.bitpos, blkbits := 0#32 } }

/-- The rule of AC_BEGIN (R94). -/
def acBeginRule (s : State) : Run := .ok (beginBlock s).clearValid

/-- AC_BEGIN (R94). -/
def execAcBegin (s : State) : Host.Outcome State Fault Refusal := .next (complete (acBeginRule s))

/-- The rule of AC_ENCODE (R95). -/
def acEncodeRule (s : State) : Run := encodeSymbol s.symbolOperand s.clearValid

/-- AC_ENCODE (R95). -/
def execAcEncode (s : State) : Host.Outcome State Fault Refusal := .next (complete (acEncodeRule s))

/-- The rule of AC_END (R96). -/
def acEndRule (s : State) : Run :=
  if s.caps.lenWords ≤ s.pk.blkidx.toNat then .raised .outOverflow s.clearValid
  else .ok (closeBlock s.clearValid)

/-- AC_END (R96). -/
def execAcEnd (s : State) : Host.Outcome State Fault Refusal := .next (complete (acEndRule s))

/-- The rule of PK_RESET (R97). -/
def pkResetRule (s : State) : Run := .ok { s.clearValid with pk := Packer.zero }

/-- PK_RESET (R97). -/
def execPkReset (s : State) : Host.Outcome State Fault Refusal := .next (complete (pkResetRule s))

end Sys2Proof.Machine
end

