-- ==== Sys2Proof/Machine/Compressor.lean ====
section
/-! DEFINITION. Compressor sequencing (45_compressor.md): NOP and COMPRESS. -/

namespace Sys2Proof.Machine

open Sys2Proof

/-- The rule of NOP (R98). -/
def nopRule (s : State) : Run := .ok s

/-- NOP (R98). -/
def execNop (s : State) : Host.Outcome State Fault Refusal := .next (complete (nopRule s))

/-- The checks of COMPRESS, in R100's order: the first that fails. -/
def compressCheck (s : State) : Option ErrCode :=
  if s.side = 0 ∨ s.level = 0 then some .configError
  else if s.imgWidth = 0 ∨ s.imgHeight = 0 then some .shapeError
  else if s.caps.imgBytes < 4 * (s.imgWidth * s.imgHeight) then some .shapeError
  else if s.caps.lenWords < s.blockCount then some .shapeError
  else none

/-- The set-up of COMPRESS (R101). -/
def compressSetup (s : State) : State := { s with nblocks := BitVec.ofNat 32 s.blockCount, pk := Packer.zero }

/-- The three symbols of the pixel at row r, column c of block (by, bx): quantize, then transform (R102). -/
def pixelSymbols (s : State) (by' bx r c : Nat) : List Sym :=
  let q := fun ch => quantize (tileSample s by' bx r c ch) s.level
  let t := colorTriple s.config.cspace (q 0) (q 1) (q 2)
  [t.1, t.2.1, t.2.2]

/-- `BlockSeq(by, bx)`: the 3*B*B symbols in scan order (R71, R102). -/
def blockSeq (s : State) (by' bx : Nat) : List Sym :=
  (List.range s.side).flatMap fun r => (List.range s.side).flatMap fun c => pixelSymbols s by' bx r c

/-- Code one sequence of symbols as one block (R103). -/
def codeSequence (seq : List Sym) (s : State) : Run :=
  (forEach encodeSymbol seq (beginBlock s)).andThen fun t => .ok (closeBlock t)

/-- Code block i (R69, R103). -/
def codeBlock (i : Nat) (s : State) : Run := codeSequence (blockSeq s (i / s.blockCols) (i % s.blockCols)) s

/-- `VALID <- 1`. -/
def State.setValid (s : State) : State := { s with status := { s.status with valid := true } }

/-- The rule of COMPRESS (R104). -/
def compressRule (s : State) : Run :=
  match compressCheck s with
  | some e => .raised e s.clearValid
  | none =>
    (forEach codeBlock (List.range s.blockCount) (compressSetup s.clearValid)).andThen fun t => .ok t.setValid

/-- COMPRESS (R104). -/
def execCompress (s : State) : Host.Outcome State Fault Refusal := .next (complete (compressRule s))

end Sys2Proof.Machine
end

