-- ==== Sys2Proof/Machine/Dispatch.lean ====
section
/-! DEFINITION. Dispatch: one arm per command (30_encoding.md R58). -/

namespace Sys2Proof.Machine

open Sys2Proof

/-- The engine step of each command (60_exceptions.md R109). -/
def exec (i : Instr) (s : State) : Host.Outcome State Fault Refusal :=
  match i with
  | .nop => Sys2Proof.Machine.execNop s
  | .compress => Sys2Proof.Machine.execCompress s
  | .ftClear => Sys2Proof.Machine.execFtClear s
  | .pkReset => Sys2Proof.Machine.execPkReset s
  | .xform => Sys2Proof.Machine.execXform s
  | .quant => Sys2Proof.Machine.execQuant s
  | .prob => Sys2Proof.Machine.execProb s
  | .ftInc => Sys2Proof.Machine.execFtInc s
  | .acBegin => Sys2Proof.Machine.execAcBegin s
  | .acEncode => Sys2Proof.Machine.execAcEncode s
  | .acEnd => Sys2Proof.Machine.execAcEnd s

end Sys2Proof.Machine
end

