-- ==== Sys2Proof/Machine/HostPort.lean ====
section
/-! DEFINITION. The host port: the address map (10_state.md R16, 20_memory.md R45), reads and writes with the busy rules (R50),
command acceptance (60_exceptions.md R108), the two resets (70_reset_and_hazards.md R124, R125), and whose turn it is (R109). -/

namespace Sys2Proof.Machine

open Sys2Proof

/-- The registers of the CSR block (R16). -/
inductive Csr where
  | id | version | ctrl | cmd | status | ier | config | qlevel | width | height
  | nblocks | totalbits | bitpos | blkidx | blkbits
  | op0 | op1 | op2 | res0 | res1 | res2
  | ftTotal | ftUsed | ftCap | imgCap | lenCap | bitsCap
  | acLow | acHigh | acHlen | acHist0 | acHist1 | acHist2 | acHist3
deriving DecidableEq, Repr

/-- What a device offset names (R45). -/
inductive Region where
  | csr (c : Csr)
  /-- A reserved offset of the CSR block (R37). -/
  | reserved
  /-- The word at byte `a` of IMG. -/
  | img (a : Nat)
  /-- The word at byte `a` of LEN. -/
  | len (a : Nat)
  /-- The word at byte `a` of BITS. -/
  | bits (a : Nat)
  | unmapped
deriving DecidableEq, Repr

/-- The offsets of the registers (R16). -/
def csrMap : List (Nat × Csr) :=
  [(0x000, .id), (0x004, .version), (0x008, .ctrl), (0x00C, .cmd), (0x010, .status), (0x014, .ier), (0x018, .config),
   (0x01C, .qlevel), (0x020, .width), (0x024, .height), (0x028, .nblocks), (0x02C, .totalbits), (0x030, .bitpos),
   (0x034, .blkidx), (0x038, .blkbits), (0x040, .op0), (0x044, .op1), (0x048, .op2), (0x050, .res0), (0x054, .res1),
   (0x058, .res2), (0x060, .ftTotal), (0x064, .ftUsed), (0x068, .ftCap), (0x06C, .imgCap), (0x070, .lenCap),
   (0x074, .bitsCap), (0x080, .acLow), (0x084, .acHigh), (0x088, .acHlen), (0x090, .acHist0), (0x094, .acHist1),
   (0x098, .acHist2), (0x09C, .acHist3)]

/-- The aligned word that an offset addresses: `off & ~3` (R43). -/
def alignedOffset (off : Offset) : Nat := 4 * (off.toNat / 4)

/-- The device address map (R45), each 1 MiB window up to its capacity. -/
def regionAt (caps : Config.Caps) (off : Offset) : Region :=
  let w := alignedOffset off / 1048576
  let a := alignedOffset off % 1048576
  if w = 0 then
    if a < 4096 then
      match assocFind id a csrMap with
      | some c => .csr c
      | none => .reserved
    else .unmapped
  else if w = 1 then if a < caps.imgBytes then .img a else .unmapped
  else if w = 2 then if a < 4 * caps.lenWords then .len a else .unmapped
  else if a < caps.bitsBytes then .bits a else .unmapped

/-- The exact value of a register (R16 to R36). -/
def csrValue (s : State) : Csr → Word
  | .id => 0x44434631#32
  | .version => 0x00010000#32
  | .ctrl => 0#32
  | .cmd => 0#32
  | .status => s.status.word
  | .ier => s.ier.word
  | .config => s.config.word
  | .qlevel => s.qlevel.setWidth 32
  | .width => s.width.setWidth 32
  | .height => s.height.setWidth 32
  | .nblocks => s.nblocks
  | .totalbits => s.pk.totalbits
  | .bitpos => s.pk.bitpos
  | .blkidx => s.pk.blkidx
  | .blkbits => s.pk.blkbits
  | .op0 => s.op0.setWidth 32
  | .op1 => s.op1.setWidth 32
  | .op2 => s.op2.setWidth 32
  | .res0 => s.res0
  | .res1 => s.res1
  | .res2 => s.res2
  | .ftTotal => s.ft.total
  | .ftUsed => s.ft.used
  | .ftCap => BitVec.ofNat 32 s.caps.ftEntries
  | .imgCap => BitVec.ofNat 32 s.caps.imgBytes
  | .lenCap => BitVec.ofNat 32 s.caps.lenWords
  | .bitsCap => BitVec.ofNat 32 s.caps.bitsBytes
  | .acLow => s.coder.low
  | .acHigh => s.coder.high
  | .acHlen => BitVec.ofNat 32 s.hist.len.val
  | .acHist0 => s.hist.h0.setWidth 32
  | .acHist1 => s.hist.h1.setWidth 32
  | .acHist2 => s.hist.h2.setWidth 32
  | .acHist3 => s.hist.h3.setWidth 32

/-- The registers whose reads are free while BUSY = 1 (R50(e)). -/
def Csr.engineWritten : Csr → Bool
  | .nblocks | .totalbits | .bitpos | .blkidx | .blkbits => true
  | .res0 | .res1 | .res2 => true
  | .ftTotal | .ftUsed => true
  | .acLow | .acHigh | .acHlen | .acHist0 | .acHist1 | .acHist2 | .acHist3 => true
  | .id | .version | .ctrl | .cmd | .status | .ier | .config | .qlevel | .width | .height => false
  | .op0 | .op1 | .op2 => false
  | .ftCap | .imgCap | .lenCap | .bitsCap => false

/-- What the engine may be writing while it is busy (R50(e)): those registers, LEN and BITS. -/
def Region.engineWritten : Region → Bool
  | .csr c => c.engineWritten
  | .reserved => false
  | .img _ => false
  | .len _ => true
  | .bits _ => true
  | .unmapped => false

/-- The exact word of a region (R37, R45, R46). -/
def regionValue (s : State) : Region → Word
  | .csr c => csrValue s c
  | .reserved => 0#32
  | .img a => s.img.readWord .img a
  | .len a => s.lenMem.readWord .len a
  | .bits a => s.bits.readWord .bits a
  | .unmapped => 0#32

/-- A read at this offset now is a free draw (R50(e)). -/
def readIsFree (s : State) (off : Offset) : Bool := s.status.busy && (regionAt s.caps off).engineWritten

/-- The word that `HostRead(off)` answers (R43, R50). -/
def hostReadValue (s : State) (off : Offset) : Word :=
  if readIsFree s off then Config.busyRead s.draws else regionValue s (regionAt s.caps off)

/-- `HostRead(off)` (R43): the answer goes to the host, and no state of the device changes (R51). -/
def hostRead (off : Offset) (s : State) : State :=
  { s with
    replies := hostReadValue s off :: s.replies
    draws := if readIsFree s off then s.draws + 1 else s.draws }

/-- A host write of `w` to CMD (R108): dropped while busy, refused where illegal, else accepted. -/
def writeCmd (w : Word) (s : State) : State :=
  if s.status.busy then s.recordError .cmdBusy
  else
    match decode w with
    | .error _ => { s with status := { s.status.record .illegalCmd with done := true } }
    | .ok _ =>
      { s with
        pending := some w
        status := { s.status with busy := true, done := false }
        delay := Config.engineDelay s.draws
        draws := s.draws + 1 }

/-- A soft reset (R125): every state element of R124 but the memories goes to its power-on value; the contents of LEN and
BITS become unspecified where a command was running. The model's own inbox and replies are the host's, not the device's
(log 7). -/
def softReset (s : State) : State :=
  { State.reset with
    caps := s.caps
    img := s.img
    lenMem := if s.status.busy then Memory.unwritten (s.draws + 1) else s.lenMem
    bits := if s.status.busy then Memory.unwritten (s.draws + 1) else s.bits
    inbox := s.inbox
    replies := s.replies
    draws := s.draws + 1 }

/-- Power-on reset through the device's reset input (R124): as at reset, with the contents of every memory unspecified. -/
def powerOn (s : State) : State :=
  { State.reset with
    caps := s.caps
    img := Memory.unwritten (s.draws + 1)
    lenMem := Memory.unwritten (s.draws + 1)
    bits := Memory.unwritten (s.draws + 1)
    inbox := s.inbox
    replies := s.replies
    draws := s.draws + 1 }

/-- A write to a register or memory that is frozen while busy (R50(b), R129): dropped with ACCESS_BUSY, else performed. -/
def frozenWhileBusy (s t : State) : State := if s.status.busy then s.recordError .accessBusy else t

/-- A host write to a register (R16, R19 to R25, R31); to a read-only register it is ignored. -/
def writeCsr (c : Csr) (v : Word) (s : State) : State :=
  match c with
  | .ctrl => if v.getLsbD 0 then softReset s else s
  | .cmd => writeCmd v s
  | .status => { s with status := s.status.writeOneToClear v }
  | .ier => { s with ier := { doneIe := v.getLsbD 0, errIe := v.getLsbD 1 } }
  | .config =>
    frozenWhileBusy s
      { s with config := { bsize := v.extractLsb' 0 8, cspace := v.getLsbD 8, adapt := v.getLsbD 9 } }
  | .qlevel => frozenWhileBusy s { s with qlevel := v.extractLsb' 0 16 }
  | .width => frozenWhileBusy s { s with width := v.extractLsb' 0 16 }
  | .height => frozenWhileBusy s { s with height := v.extractLsb' 0 16 }
  | .op0 => frozenWhileBusy s { s with op0 := v.extractLsb' 0 24 }
  | .op1 => frozenWhileBusy s { s with op1 := v.extractLsb' 0 24 }
  | .op2 => frozenWhileBusy s { s with op2 := v.extractLsb' 0 24 }
  | .id | .version => s
  | .nblocks | .totalbits | .bitpos | .blkidx | .blkbits => s
  | .res0 | .res1 | .res2 => s
  | .ftTotal | .ftUsed | .ftCap | .imgCap | .lenCap | .bitsCap => s
  | .acLow | .acHigh | .acHlen | .acHist0 | .acHist1 | .acHist2 | .acHist3 => s

/-- `HostWrite(off, v)` (R43, R45, R50). -/
def hostWrite (off : Offset) (v : Word) (s : State) : State :=
  match regionAt s.caps off with
  | .csr c => writeCsr c v s
  | .img a => frozenWhileBusy s { s with img := s.img.writeWord a v }
  | .reserved => s
  | .len _ => s
  | .bits _ => s
  | .unmapped => s

/-- The offset of STATUS (R16). -/
def statusOffset : Offset := 0x000010#22

/-- The offset of CMD (R16). -/
def cmdOffset : Offset := 0x00000C#22

/-- One transaction leaves the inbox; one host access fewer comes before the engine step. -/
def takeTurn (rest : List Transaction) (s : State) : State := { s with inbox := rest, delay := s.delay - 1 }

/-- The host's turn: its next transaction. With nothing in the inbox an idle device keeps all state (R123). -/
def hostTurn (s : State) : State :=
  match s.inbox with
  | [] => s
  | .read off :: rest => hostRead off (takeTurn rest s)
  | .write off v :: rest => hostWrite off v (takeTurn rest s)
  | .poll :: rest => hostRead statusOffset (takeTurn (if s.status.busy then s.inbox else rest) s)
  | .powerOn :: rest => powerOn (takeTurn rest s)

/-- It is the engine's turn: a command is running, and the host transactions that come before its step have been made, or
the host makes none (R109, R133; log 3). -/
def engineTurn (s : State) : Bool := s.status.busy && (s.inbox.isEmpty || s.delay == 0)

/-- The command that `pending` holds (R40). -/
def pendingCommand (s : State) : Option Instr :=
  match s.pending with
  | none => none
  | some w =>
    match decode w with
    | .ok i => some i
    | .error _ => none

end Sys2Proof.Machine
end

