-- ==== Sys2Proof/Machine/HostProgram.lean ====
section
/-! DEFINITION. The host listings of 30_encoding.md R61: the transactions that a line stands for. -/

namespace Sys2Proof.Machine

open Sys2Proof

/-- The device offset of byte `n` of IMG, `IMG+n` (R45, R61). Where 0x100000 + n is 0x400000 or more it is no 22-bit offset
(R43) and the spec gives the line no transaction: the line is one write to a free offset, the model's choice (DESIGN CHOICE,
log 17). -/
def imgOffset (n : Nat) : Offset :=
  if 0x100000 + n < 0x400000 then BitVec.ofNat 22 (0x100000 + n) else Config.offsetBeyondWindow n

/-- The word of a pixel with alpha byte 0: `(b << 16) | (g << 8) | r` (R61 PIX). -/
def pixelWord (r g b : Byte) : Word := 0#8 ++ b ++ g ++ r

/-- The transactions of a line (R61); PIX uses the WIDTH that the program last wrote, `w`. A PIX line beyond the device window
is one write too (`imgOffset`; the model's choice, log 17). -/
def lineTransactions (w : Nat) : HostLine → List Transaction
  | .wr off v => [.write off v]
  | .rd off => [.read off]
  | .cmd i => [.write cmdOffset (encode i)]
  | .poll => [.poll]
  | .clrst => [.write statusOffset 0x00000006#32]
  | .pix x y r g b => [.write (imgOffset (4 * (y * w + x))) (pixelWord r g b)]

/-- The WIDTH that the program has written after a line: WIDTH is at offset 0x020, and bits [15:0] count (R25). -/
def widthAfter (w : Nat) : HostLine → Nat
  | .wr off v => if alignedOffset off = 0x020 then (v.extractLsb' 0 16).toNat else w
  | .rd _ => w
  | .cmd _ => w
  | .poll => w
  | .clrst => w
  | .pix _ _ _ _ _ => w

/-- The transactions of a listing; `w` is the WIDTH written before it. -/
def listingTransactions : Nat → List HostLine → List Transaction
  | _, [] => []
  | w, l :: ls => lineTransactions w l ++ listingTransactions (widthAfter w l) ls

end Sys2Proof.Machine
end

