-- ==== Sys2Proof/Machine/Step.lean ====
section
/-! DEFINITION. One step of the device: the engine runs the accepted command, or the host makes its next transaction
(10_state.md R13, 60_exceptions.md R109). -/

namespace Sys2Proof.Machine

open Sys2Proof

/-- One step. On the engine's turn it fetches the command from `pending` and runs its whole rule; else it is the host's. -/
def step (s : State) : Host.Outcome State Fault Refusal :=
  if engineTurn s then
    match pendingCommand s with
    | some i => exec i s
    | none => .fault .pendingNotACommand
  else .next (hostTurn s)

/-- `s` with the command word `w` accepted and its engine step next: the word in `pending`, BUSY = 1, and no host transaction
before the engine step (log 12). -/
def State.withFetchWord (s : State) (nbits w : Nat) : State :=
  { s with
    pending := some (BitVec.ofNat 32 (w % 2 ^ nbits))
    status := { s.status with busy := true }
    delay := 0 }

end Sys2Proof.Machine
end

