-- ==== Sys2Proof/Safety.lean ====
section
/-! DEFINITION. What counts as a safe state and a safe run: the invariants that the spec gives the state between steps, and
never stopping. Claims are stated in these terms. -/

namespace Sys2Proof.Machine

open Sys2Proof

/-- Every listed address is below the capacity, and the canonical form holds. -/
abbrev Memory.within (m : Memory) (size : Nat) : Prop := m.wf ∧ ∀ e ∈ m.cells, e.1 < size

/-- `0 <= low < high <= ONE` (R35, R85). -/
abbrev Coder.inRange (k : Coder) : Prop := k.low.toNat < k.high.toNat ∧ k.high.toNat ≤ coderOne

/-- The entries at index HLEN and above are 0: nothing has been stored there since the block began (R36, R90). -/
abbrev History.clearAbove (h : History) : Prop :=
  (h.len.val ≤ 0 → h.h0 = 0#24) ∧ (h.len.val ≤ 1 → h.h1 = 0#24) ∧ (h.len.val ≤ 2 → h.h2 = 0#24) ∧
    (h.len.val ≤ 3 → h.h3 = 0#24)

/-- The counters of the bit-packing unit: BLKBITS <= TOTALBITS <= BITPOS <= 8 * BITS_BYTES and BLKIDX <= LEN_WORDS
(R28, R89, R96). -/
abbrev Packer.inRange (p : Packer) (c : Config.Caps) : Prop :=
  p.blkbits.toNat ≤ p.totalbits.toNat ∧ p.totalbits.toNat ≤ p.bitpos.toNat ∧ p.bitpos.toNat ≤ 8 * c.bitsBytes ∧
    p.blkidx.toNat ≤ c.lenWords

/-- ERRCODE is 0x00 exactly when ERR = 0 (R21, R113). -/
abbrev Status.consistent (st : Status) : Prop := st.err = false ↔ st.code = .none

/-- While BUSY = 1 the pending word is a legal command (R108). -/
abbrev State.pendingLegal (s : State) : Prop := s.status.busy = true → (pendingCommand s).isSome = true

/-- The bits from BITPOS up to the next byte boundary are 0: the first bit of a byte clears the byte (R89, R96; U6). -/
abbrev State.paddingClear (s : State) : Prop :=
  ∀ n, s.pk.bitpos.toNat ≤ n → n < 8 * ceilDiv s.pk.bitpos.toNat 8 → s.streamBit n = false

/-- The invariant of the device between steps. -/
structure State.Inv (s : State) : Prop where
  caps    : s.caps.legal = true
  status  : s.status.consistent
  pending : s.pendingLegal
  coder   : s.coder.inRange
  hist    : s.hist.clearAbove
  pk      : s.pk.inRange s.caps
  ft      : s.ft.wf
  ftRoom  : s.ft.used.toNat ≤ s.caps.ftEntries
  img     : s.img.within s.caps.imgBytes
  lenMem  : s.lenMem.within (4 * s.caps.lenWords)
  bits    : s.bits.within s.caps.bitsBytes
  padding : s.paddingClear

/-- `n` steps, stopping at the first fault or refusal (the same as `Sys2Proof.core.run`: `Laws.run_eq_core_run`). -/
def runSteps : Nat → State → Host.Outcome State Fault Refusal
  | 0, s => .next s
  | n + 1, s =>
    match step s with
    | .next t => runSteps n t
    | .fault r => .fault r
    | .refused r => .refused r

/-- A run of `n` steps that never stops. -/
def runsSafely (n : Nat) (s : State) : Prop := ∃ t, runSteps n s = .next t

/-! ### The coder in closed form, for claims: no loop and no state -/

/-- The lower bound of R86, in exact arithmetic. -/
def narrowedLow (k : Coder) (c t : Nat) : Nat := k.low.toNat + (k.high.toNat - k.low.toNat) * c / (t + 1)

/-- The upper bound of R86, in exact arithmetic. -/
def narrowedHigh (k : Coder) (c t : Nat) : Nat := k.low.toNat + (k.high.toNat - k.low.toNat) * (c + 1) / (t + 1)

/-- The lower bound `l` after `m` doublings "modulo 1" (R87; 90_conflicts.md C4): the low 31 bits of `l * 2^m`. -/
def lowAfter (l m : Nat) : Nat := l * 2 ^ m % 2147483648

/-- The upper bound after `m` doublings: the width `h - l` doubles each time (R88). -/
def highAfter (l h m : Nat) : Nat := lowAfter l m + (h - l) * 2 ^ m

/-- After `m` doublings the interval straddles 0.5: `low < HALF <= high` (R87). -/
abbrev straddles (l h m : Nat) : Prop := lowAfter l m < 1073741824 ∧ 1073741824 ≤ highAfter l h m

/-- Renormalizing [l, h) takes exactly `n` doublings: it straddles 0.5 after `n` and not before (R87). -/
abbrev renormTurns (l h n : Nat) : Prop := straddles l h n ∧ ∀ m < n, ¬ straddles l h m

/-- BITPOS, BLKBITS and TOTALBITS after `n` emitted bits (R89). -/
def Packer.after (p : Packer) (n : Nat) : Packer :=
  { p with
    bitpos := p.bitpos + BitVec.ofNat 32 n
    blkbits := p.blkbits + BitVec.ofNat 32 n
    totalbits := p.totalbits + BitVec.ofNat 32 n }

/-- The codes that a command can leave in ERRCODE where ERR was 0 (R110). -/
def errorCodes : Instr → List ErrCode
  | .nop => [.none]
  | .compress => [.none, .configError, .shapeError, .codingDegeneracy, .ftFull, .countOverflow, .outOverflow]
  | .ftClear => [.none]
  | .pkReset => [.none]
  | .xform => [.none]
  | .quant => [.none, .configError]
  | .prob => [.none]
  | .ftInc => [.none, .ftFull, .countOverflow]
  | .acBegin => [.none]
  | .acEncode => [.none, .codingDegeneracy, .ftFull, .countOverflow, .outOverflow]
  | .acEnd => [.none, .outOverflow]

/-! ### Coding with the unit commands, for claims about COMPRESS (R132) -/

/-- The host writes OP0 where a symbol is given, and issues the command. -/
structure UnitStep where
  operand : Option Sym
  command : Instr
deriving DecidableEq, Repr

/-- The unit commands that code one block: AC_BEGIN, AC_ENCODE once per symbol in order, AC_END (R132). -/
def blockCommands (seq : List Sym) : List UnitStep :=
  { operand := none, command := .acBegin } ::
    (seq.map fun v => { operand := some v, command := .acEncode }) ++ [{ operand := none, command := .acEnd }]

/-- Put a symbol in OP0. -/
def State.withOperand (v : Option Sym) (s : State) : State :=
  match v with
  | some x => { s with op0 := x }
  | none => s

/-- Run unit commands one after another, up to the first that sets ERR. -/
def execUnits : List UnitStep → State → State
  | [], s => s
  | u :: us, s =>
    match exec u.command (s.withOperand u.operand) with
    | .next t => if t.status.err then t else execUnits us t
    | .fault _ => s
    | .refused _ => s

end Sys2Proof.Machine
end

