-- ==== Sys2Proof/Certificates/Slice0/Obligations.lean ====
section
/-! DEFINITION. The statements for the provers, from the numbered rules of spec/. `s` is the state before, `t` the state after.
Where a statement writes a whole state as an update of `s`, every field it does not name is unchanged. -/

open Sys2Proof Sys2Proof.Machine

/-! ### Encoding -/

/-- Every command's word decodes to the command, through the table's numbering too (30_encoding.md R56, R58). -/
def Obligations.EncodeThenDecode : Prop :=
  ∀ i : Instr, i.wellFormed = true → decode (encode i) = .ok i ∧ decodeTableWord 32 (encode i).toNat = some i

/-- The legal words are exactly the eleven of R60, every other word is illegal, and each legal word is one command. -/
def Obligations.LegalWordsExactly : Prop :=
  ∀ w : Word,
    (w ∈ [0x00000000#32, 0x00000001#32, 0x00000002#32, 0x00000003#32, 0x00000010#32, 0x00000011#32, 0x00000012#32,
          0x00000013#32, 0x00000020#32, 0x00000021#32, 0x00000022#32] →
      ∃ i, decode w = .ok i ∧ encode i = w ∧ ∀ j, encode j = w → j = i) ∧
    (w ∉ [0x00000000#32, 0x00000001#32, 0x00000002#32, 0x00000003#32, 0x00000010#32, 0x00000011#32, 0x00000012#32,
          0x00000013#32, 0x00000020#32, 0x00000021#32, 0x00000022#32] →
      (∃ e, decode w = .error e) ∧ ∀ j, encode j ≠ w)

/-- The illegal words (R59): exactly those with RSV not 0 or one of the unlisted opcodes. Writing one to CMD while BUSY = 0
performs nothing but setting DONE and recording ILLEGAL_CMD. -/
def Obligations.IllegalWordsRefused : Prop :=
  ∀ w : Word,
    ((∃ e, decode w = .error e) ↔
      w.toNat / 256 ≠ 0 ∨ (0x04 ≤ w.toNat % 256 ∧ w.toNat % 256 ≤ 0x0F) ∨
        (0x14 ≤ w.toNat % 256 ∧ w.toNat % 256 ≤ 0x1F) ∨ 0x23 ≤ w.toNat % 256) ∧
    ∀ (s : State) (e : DecodeError), s.status.busy = false → decode w = .error e →
      hostWrite 0x00000C#22 w s = { s with
        status := { s.status with
          done := true, err := true, code := if s.status.err then s.status.code else .illegalCmd } }

/-- A few words written out from R58, legal and illegal. -/
def Obligations.SpecWordsDecode : Prop :=
  decode 0x00000000#32 = .ok .nop ∧ decode 0x00000001#32 = .ok .compress ∧ decode 0x00000013#32 = .ok .ftInc ∧
    decode 0x00000021#32 = .ok .acEncode ∧ decode 0x00000004#32 = .error .unknownOpcode ∧
    decode 0x00000101#32 = .error .reservedNonzero

/-! ### Steps -/

/-- On the engine's turn, with a legal word in `pending`, a step runs the decoded command and nothing else (R109): the engine
moves when the host has made the transactions drawn for it (log 3) or makes none. -/
def Obligations.StepRunsPendingCommand : Prop :=
  ∀ (s : State) (w : Word) (i : Instr), s.status.busy = true → s.pending = some w → decode w = .ok i →
    (s.inbox = [] ∨ s.delay = 0) → step s = exec i s

/-- The host's turn. A host read answers a word to the host and changes no state of the device (R51): only the model's own
inbox, replies and counters move. A host write does to the device exactly what `hostWrite` says, and an idle device to which
nothing comes keeps all state (R123). That the host's transactions stand in `inbox` and count down `delay` is the model's choice
(log 1, log 3, log 4, log 6). -/
def Obligations.ReadChangesNothing : Prop :=
  ∀ s : State,
    (∀ (off : Offset) (rest : List Transaction), s.inbox = .read off :: rest → (s.status.busy = false ∨ 0 < s.delay) →
      ∃ n, step s = .next { s with
        inbox := rest, delay := s.delay - 1, replies := hostReadValue s off :: s.replies, draws := n }) ∧
    (∀ (off : Offset) (v : Word) (rest : List Transaction), s.inbox = .write off v :: rest →
      (s.status.busy = false ∨ 0 < s.delay) →
      step s = .next (hostWrite off v { s with inbox := rest, delay := s.delay - 1 })) ∧
    (s.status.busy = false → s.inbox = [] → step s = .next s)

/-- Every command completes: whatever the state, the engine step answers a next state with BUSY = 0 and DONE = 1 (R109,
R111). -/
def Obligations.EveryCommandCompletes : Prop :=
  ∀ (i : Instr) (s : State), ∃ t, exec i s = .next t ∧ t.status.busy = false ∧ t.status.done = true

/-- What each command may write (R58, the writes column): everything else is as before. -/
def Obligations.CommandsWriteOnlyTheirColumn : Prop :=
  ∀ s t : State,
    (exec .nop s = .next t → t = { s with status := t.status }) ∧
    (exec .compress s = .next t → t = { s with
      nblocks := t.nblocks, lenMem := t.lenMem, bits := t.bits, pk := t.pk, coder := t.coder, hist := t.hist, ft := t.ft,
      status := t.status }) ∧
    (exec .ftClear s = .next t → t = { s with ft := t.ft, status := t.status }) ∧
    (exec .pkReset s = .next t → t = { s with pk := t.pk, status := t.status }) ∧
    (exec .xform s = .next t → t = { s with res0 := t.res0, res1 := t.res1, res2 := t.res2, status := t.status }) ∧
    (exec .quant s = .next t → t = { s with res0 := t.res0, status := t.status }) ∧
    (exec .prob s = .next t → t = { s with res0 := t.res0, res1 := t.res1, res2 := t.res2, status := t.status }) ∧
    (exec .ftInc s = .next t → t = { s with ft := t.ft, status := t.status }) ∧
    (exec .acBegin s = .next t → t = { s with
      coder := t.coder, hist := t.hist, pk := { s.pk with blkbits := t.pk.blkbits }, status := t.status }) ∧
    (exec .acEncode s = .next t → t = { s with
      coder := t.coder, hist := t.hist, pk := { t.pk with blkidx := s.pk.blkidx }, bits := t.bits, ft := t.ft,
      status := t.status }) ∧
    (exec .acEnd s = .next t → t = { s with
      lenMem := t.lenMem, pk := { t.pk with totalbits := s.pk.totalbits }, status := t.status })

/-- In reference mode no command but FT_INC and FT_CLEAR changes the table (R80, R81). -/
def Obligations.ReferenceModeKeepsTable : Prop :=
  ∀ (i : Instr) (s t : State), s.config.adapt = false → i ≠ .ftInc → i ≠ .ftClear → exec i s = .next t → t.ft = s.ft

/-- VALID: the unit commands of the coder and the packer clear it, the other unit commands leave it, and only COMPRESS can set
it (R21). -/
def Obligations.ValidOnlyByCompress : Prop :=
  ∀ (i : Instr) (s t : State), exec i s = .next t →
    (i = .acBegin ∨ i = .acEncode ∨ i = .acEnd ∨ i = .pkReset → t.status.valid = false) ∧
    (i = .nop ∨ i = .ftClear ∨ i = .xform ∨ i = .quant ∨ i = .prob ∨ i = .ftInc → t.status.valid = s.status.valid)

/-- A command that starts with ERR = 0 ends with one of the codes R110 gives it, and ERR = 1 exactly where that is not
NONE. -/
def Obligations.CommandErrorCodes : Prop :=
  ∀ (i : Instr) (s t : State), s.status.err = false → s.status.code = .none → exec i s = .next t →
    t.status.code ∈ errorCodes i ∧ (t.status.err = true ↔ t.status.code ≠ .none)

/-- ERR and ERRCODE are sticky (R113): with ERR = 1 no command and no host write changes them, but a write to STATUS with bit
2 = 1, which clears both (and a soft reset); and a command is accepted whatever ERR is. -/
def Obligations.FirstErrorWins : Prop :=
  ∀ s : State,
    (∀ (i : Instr) (t : State), s.status.err = true → exec i s = .next t →
      t.status.err = true ∧ t.status.code = s.status.code) ∧
    (∀ (off : Offset) (v : Word), s.status.err = true →
      ¬ (4 * (off.toNat / 4) = 0x010 ∧ v.getLsbD 2 = true) → ¬ (4 * (off.toNat / 4) = 0x008 ∧ v.getLsbD 0 = true) →
      (hostWrite off v s).status.err = true ∧ (hostWrite off v s).status.code = s.status.code) ∧
    (∀ v : Word, v.getLsbD 2 = true →
      (hostWrite 0x000010#22 v s).status.err = false ∧ (hostWrite 0x000010#22 v s).status.code = .none) ∧
    (∀ (w : Word) (i : Instr), s.status.busy = false → decode w = .ok i →
      (hostWrite 0x00000C#22 w s).status.busy = true ∧ (hostWrite 0x00000C#22 w s).pending = some w)

/-! ### NOP, XFORM, QUANT -/

/-- NOP changes nothing but BUSY and DONE (R98). -/
def Obligations.NopResult : Prop :=
  decode 0x00000000#32 = .ok .nop ∧
  ∀ s : State, exec .nop s = .next { s with status := { s.status with busy := false, done := true } }

/-- XFORM (R63, R64): RES0 to RES2 are the truncated accumulators of the matrix, RES2 and RES1 with the offset 128 << 32. -/
def Obligations.XformResult : Prop :=
  decode 0x00000010#32 = .ok .xform ∧
  ∀ s : State, exec .xform s = .next { s with
    res0 := BitVec.ofNat 32 ((19595 * s.op0.toNat + 38470 * s.op1.toNat + 7471 * s.op2.toNat) / 2 ^ 16)
    res1 := BitVec.ofNat 32
      ((128 * 2 ^ 32 + 32768 * s.op2.toNat - 11058 * s.op0.toNat - 21710 * s.op1.toNat) / 2 ^ 16)
    res2 := BitVec.ofNat 32
      ((128 * 2 ^ 32 + 32768 * s.op0.toNat - 27439 * s.op1.toNat - 5329 * s.op2.toNat) / 2 ^ 16)
    status := { s.status with busy := false, done := true } }

/-- The range law of the transform (R65): exact coefficient sums, accumulators in their ranges and never negative, results
below 2^24, grey stays grey, and for byte inputs Y in [0, 255] and Cb, Cr in [0.5, 255.5]. -/
def Obligations.XformRange : Prop :=
  19595 + 38470 + 7471 = 65536 ∧ 11058 + 21710 = 32768 ∧ 27439 + 5329 = 32768 ∧
  (∀ r g b : Nat, r < 2 ^ 24 → g < 2 ^ 24 → b < 2 ^ 24 →
    accY r g b ≤ 65536 * (2 ^ 24 - 1) ∧
    (2 ^ 15 ≤ accCb r g b ∧ accCb r g b ≤ 2 ^ 40 - 2 ^ 15) ∧ (2 ^ 15 ≤ accCr r g b ∧ accCr r g b ≤ 2 ^ 40 - 2 ^ 15) ∧
    (accCb r g b : Int) = 128 * 2 ^ 32 - 11058 * r - 21710 * g + 32768 * b ∧
    (accCr r g b : Int) = 128 * 2 ^ 32 + 32768 * r - 27439 * g - 5329 * b ∧
    accY r g b / 2 ^ 16 < 2 ^ 24 ∧ accCb r g b / 2 ^ 16 < 2 ^ 24 ∧ accCr r g b / 2 ^ 16 < 2 ^ 24) ∧
  (∀ v : Sym, xformTriple v v v = (v, 0x800000#24, 0x800000#24)) ∧
  (∀ r g b : Byte, (xformTriple (sampleOfByte r) (sampleOfByte g) (sampleOfByte b)).1.toNat ≤ 255 * 65536 ∧
    32768 ≤ (xformTriple (sampleOfByte r) (sampleOfByte g) (sampleOfByte b)).2.1.toNat ∧
    (xformTriple (sampleOfByte r) (sampleOfByte g) (sampleOfByte b)).2.1.toNat ≤ 255 * 65536 + 32768 ∧
    32768 ≤ (xformTriple (sampleOfByte r) (sampleOfByte g) (sampleOfByte b)).2.2.toNat ∧
    (xformTriple (sampleOfByte r) (sampleOfByte g) (sampleOfByte b)).2.2.toNat ≤ 255 * 65536 + 32768)

/-- QUANT (R72, R73): RES0 is ceil(k * 2^24 / L) for k = floor(x * L / 2^24); with QLEVEL = 0 it raises CONFIG_ERROR and RES0
is unchanged. -/
def Obligations.QuantResult : Prop :=
  decode 0x00000011#32 = .ok .quant ∧
  ∀ s : State,
    (s.qlevel ≠ 0#16 → exec .quant s = .next { s with
      res0 := BitVec.ofNat 32
        ((2 ^ 24 * (s.op0.toNat * s.qlevel.toNat / 2 ^ 24) + (s.qlevel.toNat - 1)) / s.qlevel.toNat)
      status := { s.status with busy := false, done := true } }) ∧
    (s.qlevel = 0#16 → exec .quant s = .next { s with
      status := { s.status with
        busy := false, done := true, err := true
        code := if s.status.err then s.status.code else .configError } })

/-- The laws of the quantizer (R74): idempotent, never above its input, below 2^24, exact where L is a power of two, 0 for
L = 1. -/
def Obligations.QuantLaws : Prop :=
  ∀ (x : Sym) (l : Nat), 1 ≤ l → l ≤ 65535 →
    quantize (quantize x l) l = quantize x l ∧
    (quantize x l).toNat ≤ x.toNat ∧
    quantRaw x.toNat l < 2 ^ 24 ∧
    (∀ m, l = 2 ^ m → l * (quantize x l).toNat = 2 ^ 24 * (x.toNat * l / 2 ^ 24)) ∧
    quantize x 1 = 0#24

/-! ### The frequency table -/

/-- PROB (R77, R82): RES0 is the count of (ctx, OP0), RES1 is FT_TOTAL, RES2 is 0. -/
def Obligations.ProbResult : Prop :=
  decode 0x00000012#32 = .ok .prob ∧
  ∀ s : State, exec .prob s = .next { s with
    res0 := s.ft.count
      { ctx := [s.hist.h0, s.hist.h1, s.hist.h2, s.hist.h3].take s.hist.len.val, value := s.op0 }
    res1 := s.ft.total
    res2 := 0#32
    status := { s.status with busy := false, done := true } }

/-- The interval law (R78): c ≤ t for every state of the table, so 0 ≤ c/(t+1) < (c+1)/(t+1) ≤ 1 and the width 1/(t+1) is
not 0; the empty table gives [0, 1). -/
def Obligations.IntervalLaw : Prop :=
  (∀ (ft : FreqTable) (k : Key), ft.wf →
    (ft.count k).toNat ≤ ft.total.toNat ∧
    (0 : Rat) ≤ ((ft.count k).toNat : Rat) / (ft.total.toNat + 1) ∧
    ((ft.count k).toNat : Rat) / (ft.total.toNat + 1) < ((ft.count k).toNat + 1) / (ft.total.toNat + 1) ∧
    (((ft.count k).toNat : Rat) + 1) / (ft.total.toNat + 1) ≤ 1 ∧
    (0 : Rat) < 1 / (ft.total.toNat + 1)) ∧
  (∀ k : Key, FreqTable.empty.count k = 0#32) ∧ FreqTable.empty.total = 0#32

/-- FT_INC (R79, R83): COUNT_OVERFLOW first; a present key's count and the total go up by one; an absent key enters with
count 1 unless the table is full. The counts of the other keys, the history, the coder and RES are unchanged, and in a table
whose total is the sum of its counts no count wraps. -/
def Obligations.FtIncResult : Prop :=
  decode 0x00000013#32 = .ok .ftInc ∧
  ∀ (s : State) (k : Key),
    k = { ctx := [s.hist.h0, s.hist.h1, s.hist.h2, s.hist.h3].take s.hist.len.val, value := s.op0 } →
    (s.ft.total = 0xFFFFFFFF#32 → exec .ftInc s = .next { s with
      status := { s.status with
        busy := false, done := true, err := true
        code := if s.status.err then s.status.code else .countOverflow } }) ∧
    (s.ft.total ≠ 0xFFFFFFFF#32 → s.ft.present k = true → ∃ t, exec .ftInc s = .next t ∧
      t = { s with
        ft := { entries := t.ft.entries, total := s.ft.total + 1#32, used := s.ft.used }
        status := { s.status with busy := false, done := true } } ∧
      t.ft.count k = s.ft.count k + 1#32 ∧ (s.ft.wf → (t.ft.count k).toNat = (s.ft.count k).toNat + 1) ∧
      (∀ k', k' ≠ k → t.ft.count k' = s.ft.count k') ∧ (∀ k', t.ft.present k' = s.ft.present k')) ∧
    (s.ft.total ≠ 0xFFFFFFFF#32 → s.ft.present k = false → s.ft.used.toNat = s.caps.ftEntries →
      exec .ftInc s = .next { s with
        status := { s.status with
          busy := false, done := true, err := true
          code := if s.status.err then s.status.code else .ftFull } }) ∧
    (s.ft.total ≠ 0xFFFFFFFF#32 → s.ft.present k = false → s.ft.used.toNat ≠ s.caps.ftEntries →
      ∃ t, exec .ftInc s = .next t ∧
      t = { s with
        ft := { entries := t.ft.entries, total := s.ft.total + 1#32, used := s.ft.used + 1#32 }
        status := { s.status with busy := false, done := true } } ∧
      t.ft.count k = 1#32 ∧ (∀ k', k' ≠ k → t.ft.count k' = s.ft.count k') ∧
      (∀ k', t.ft.present k' = (decide (k' = k) || s.ft.present k')))

/-- FT_CLEAR (R84): the table is empty, FT_TOTAL and FT_USED are 0, every key's count is 0. -/
def Obligations.FtClearResult : Prop :=
  decode 0x00000002#32 = .ok .ftClear ∧
  ∀ s : State, ∃ t, exec .ftClear s = .next t ∧
    t = { s with
      ft := { entries := [], total := 0#32, used := 0#32 }
      status := { s.status with busy := false, done := true } } ∧
    ∀ k, t.ft.count k = 0#32 ∧ t.ft.present k = false

/-! ### The coder and the packer -/

/-- AC_BEGIN (R94). -/
def Obligations.AcBeginResult : Prop :=
  decode 0x00000020#32 = .ok .acBegin ∧
  ∀ s : State, exec .acBegin s = .next { s with
    coder := { low := 0x00000000#32, high := 0x80000000#32 }
    hist := { len := 0, h0 := 0#24, h1 := 0#24, h2 := 0#24, h3 := 0#24 }
    pk := { s.pk with blkbits := 0#32 }
    status := { s.status with busy := false, done := true, valid := false } }

/-- AC_ENCODE goes through (R86, R87, R89, R90, R91, R95): from a state with the invariant, where the narrowed interval
[nl, nh) is not empty, takes n turns to renormalize, BITS has room for its n bits and the adaptive increment is possible. The
new bounds are those after n doublings, bit k is 1 exactly where the lower bound is at or above 0.5 after k doublings, no other
bit before BITPOS and no other byte of BITS changes, the symbol is pushed, and the key's count goes up in adaptive mode
only. -/
def Obligations.AcEncodeCodes : Prop :=
  ∀ (s : State) (k : Key) (nl nh n : Nat), s.Inv →
    k = { ctx := [s.hist.h0, s.hist.h1, s.hist.h2, s.hist.h3].take s.hist.len.val, value := s.op0 } →
    nl = narrowedLow s.coder (s.ft.count k).toNat s.ft.total.toNat →
    nh = narrowedHigh s.coder (s.ft.count k).toNat s.ft.total.toNat →
    nl ≠ nh → renormTurns nl nh n → s.pk.bitpos.toNat + n ≤ 8 * s.caps.bitsBytes →
    (s.config.adapt = true → s.ft.total ≠ 0xFFFFFFFF#32 ∧
      (s.ft.present k = true ∨ s.ft.used.toNat ≠ s.caps.ftEntries)) →
    ∃ t, exec .acEncode s = .next t ∧
      t = { s with
        coder := { low := BitVec.ofNat 32 (lowAfter nl n), high := BitVec.ofNat 32 (highAfter nl nh n) }
        hist := s.hist.push s.op0
        pk := s.pk.after n
        bits := t.bits
        ft := t.ft
        status := { s.status with busy := false, done := true, valid := false } } ∧
      (∀ j < n, t.streamBit (s.pk.bitpos.toNat + j) = decide (2 ^ 30 ≤ lowAfter nl j)) ∧
      (∀ j < s.pk.bitpos.toNat, t.streamBit j = s.streamBit j) ∧
      (∀ a, (∀ j < n, a ≠ (s.pk.bitpos.toNat + j) / 8) → t.byteAt .bits a = s.byteAt .bits a) ∧
      (s.config.adapt = false → t.ft = s.ft) ∧
      (s.config.adapt = true → t.ft.count k = s.ft.count k + 1#32 ∧ (∀ k', k' ≠ k → t.ft.count k' = s.ft.count k') ∧
        t.ft.total = s.ft.total + 1#32 ∧
        t.ft.used = if s.ft.present k then s.ft.used else s.ft.used + 1#32)

/-- Push (R90): below four entries v is stored at HIST[HLEN] and HLEN goes up; at four the entries move down by one and v is
HIST[3]. So the context holds the last up to four symbols, oldest first (R76). -/
def Obligations.PushShiftsHistory : Prop :=
  ∀ (h p : History) (v : Sym), p = h.push v →
    [p.h0, p.h1, p.h2, p.h3] = (if h.len.val < 4 then [h.h0, h.h1, h.h2, h.h3].set h.len.val v else [h.h1, h.h2, h.h3, v]) ∧
    p.len.val = (if h.len.val < 4 then h.len.val + 1 else 4) ∧
    p.context = (if h.len.val < 4 then h.context else h.context.drop 1) ++ [v]

/-- CODING_DEGENERACY (R86, R91, R95): where the narrowed interval is empty, AC_ENCODE changes nothing but VALID, BUSY, DONE
and the error record. -/
def Obligations.AcEncodeDegenerate : Prop :=
  ∀ (s : State) (k : Key), s.Inv →
    k = { ctx := [s.hist.h0, s.hist.h1, s.hist.h2, s.hist.h3].take s.hist.len.val, value := s.op0 } →
    narrowedLow s.coder (s.ft.count k).toNat s.ft.total.toNat =
      narrowedHigh s.coder (s.ft.count k).toNat s.ft.total.toNat →
    exec .acEncode s = .next { s with
      status := { busy := false, done := true, valid := false, err := true
                  code := if s.status.err then s.status.code else .codingDegeneracy } }

/-- OUT_OVERFLOW (R87, R89, R91, R95): where BITS has room for only m of the n bits, AC_ENCODE emits those m, keeps the
bounds of that turn, not yet doubled again, and neither counts nor pushes the symbol. -/
def Obligations.AcEncodeOutOverflow : Prop :=
  ∀ (s : State) (k : Key) (nl nh n m : Nat), s.Inv →
    k = { ctx := [s.hist.h0, s.hist.h1, s.hist.h2, s.hist.h3].take s.hist.len.val, value := s.op0 } →
    nl = narrowedLow s.coder (s.ft.count k).toNat s.ft.total.toNat →
    nh = narrowedHigh s.coder (s.ft.count k).toNat s.ft.total.toNat →
    nl ≠ nh → renormTurns nl nh n → m < n → s.pk.bitpos.toNat + m = 8 * s.caps.bitsBytes →
    ∃ t, exec .acEncode s = .next t ∧
      t = { s with
        coder := { low := BitVec.ofNat 32 (lowAfter nl m), high := BitVec.ofNat 32 (highAfter nl nh m) }
        pk := s.pk.after m
        bits := t.bits
        status := { busy := false, done := true, valid := false, err := true
                    code := if s.status.err then s.status.code else .outOverflow } } ∧
      (∀ j < m, t.streamBit (s.pk.bitpos.toNat + j) = decide (2 ^ 30 ≤ lowAfter nl j)) ∧
      (∀ j < s.pk.bitpos.toNat, t.streamBit j = s.streamBit j) ∧
      (∀ a, (∀ j < m, a ≠ (s.pk.bitpos.toNat + j) / 8) → t.byteAt .bits a = s.byteAt .bits a)

/-- The errors of the adaptive increment (R79, R91, R95): the interval is narrowed and renormalized and its bits stay, the
table is unchanged and the symbol is not pushed; COUNT_OVERFLOW before FT_FULL (R114). -/
def Obligations.AcEncodeTableErrors : Prop :=
  ∀ (s : State) (k : Key) (nl nh n : Nat), s.Inv →
    k = { ctx := [s.hist.h0, s.hist.h1, s.hist.h2, s.hist.h3].take s.hist.len.val, value := s.op0 } →
    nl = narrowedLow s.coder (s.ft.count k).toNat s.ft.total.toNat →
    nh = narrowedHigh s.coder (s.ft.count k).toNat s.ft.total.toNat →
    nl ≠ nh → renormTurns nl nh n → s.pk.bitpos.toNat + n ≤ 8 * s.caps.bitsBytes →
    s.config.adapt = true →
    (s.ft.total = 0xFFFFFFFF#32 ∨ (s.ft.present k = false ∧ s.ft.used.toNat = s.caps.ftEntries)) →
    ∃ t, exec .acEncode s = .next t ∧
      t = { s with
        coder := { low := BitVec.ofNat 32 (lowAfter nl n), high := BitVec.ofNat 32 (highAfter nl nh n) }
        pk := s.pk.after n
        bits := t.bits
        status := { busy := false, done := true, valid := false, err := true
                    code := if s.status.err then s.status.code
                      else if s.ft.total = 0xFFFFFFFF#32 then .countOverflow else .ftFull } } ∧
      (∀ j < n, t.streamBit (s.pk.bitpos.toNat + j) = decide (2 ^ 30 ≤ lowAfter nl j)) ∧
      (∀ j < s.pk.bitpos.toNat, t.streamBit j = s.streamBit j) ∧
      (∀ a, (∀ j < n, a ≠ (s.pk.bitpos.toNat + j) / 8) → t.byteAt .bits a = s.byteAt .bits a)

/-- The bound of renormalization (R88): a non-empty interval inside [0, ONE] takes a number of turns, at most 31, and keeps
`0 <= low < high <= ONE` while its width doubles at each. So with room for 31 bits the loop makes exactly that many turns, emits
a bit at each, 1 exactly where the lower bound is then at or above 0.5, and ends with `low < HALF <= high`. -/
def Obligations.RenormBound : Prop :=
  (∀ l h : Nat, l < h → h ≤ 2 ^ 31 →
    ∃ n, n ≤ 31 ∧ renormTurns l h n ∧
      ∀ m ≤ n, lowAfter l m < highAfter l h m ∧ highAfter l h m ≤ 2 ^ 31 ∧
        highAfter l h m - lowAfter l m = (h - l) * 2 ^ m) ∧
  (∀ s : State, s.Inv → s.pk.bitpos.toNat + 31 ≤ 8 * s.caps.bitsBytes →
    ∃ (n : Nat) (t : State), n ≤ 31 ∧ renormTurns s.coder.low.toNat s.coder.high.toNat n ∧ renorm s = .ok t ∧
      t = { s with coder := t.coder, pk := s.pk.after n, bits := t.bits } ∧ t.coder.inRange ∧
      t.coder.low.toNat = lowAfter s.coder.low.toNat n ∧
      t.coder.high.toNat = highAfter s.coder.low.toNat s.coder.high.toNat n ∧
      t.coder.low.toNat < 2 ^ 30 ∧ 2 ^ 30 ≤ t.coder.high.toNat ∧
      t.coder.high.toNat - t.coder.low.toNat = (s.coder.high.toNat - s.coder.low.toNat) * 2 ^ n ∧
      (∀ j < n, t.streamBit (s.pk.bitpos.toNat + j) = decide (2 ^ 30 ≤ lowAfter s.coder.low.toNat j)) ∧
      (∀ j < s.pk.bitpos.toNat, t.streamBit j = s.streamBit j) ∧
      (∀ a, (∀ j < n, a ≠ (s.pk.bitpos.toNat + j) / 8) → t.byteAt .bits a = s.byteAt .bits a))

/-- Reference mode codes nothing (R93): with ADAPT = 0, an empty table and the interval [0, 1), AC_ENCODE emits no bit and
leaves the interval; it only pushes the symbol. -/
def Obligations.ReferenceModeEmitsNothing : Prop :=
  ∀ s : State, s.config.adapt = false → s.ft = { entries := [], total := 0#32, used := 0#32 } →
    s.coder = { low := 0x00000000#32, high := 0x80000000#32 } →
    exec .acEncode s = .next { s with
      hist := s.hist.push s.op0
      status := { s.status with busy := false, done := true, valid := false } }

/-- AC_END (R96): the LEN entry BLKIDX gets BLKBITS, BITPOS goes to the next byte boundary; with no LEN entry left it raises
OUT_OVERFLOW and writes nothing. The bytes of LEN outside that entry are unchanged. -/
def Obligations.AcEndResult : Prop :=
  decode 0x00000022#32 = .ok .acEnd ∧
  ∀ s : State,
    (s.pk.blkidx.toNat < s.caps.lenWords → ∃ t, exec .acEnd s = .next t ∧
      t = { s with
        lenMem := t.lenMem
        pk := { s.pk with
          blkidx := s.pk.blkidx + 1#32
          bitpos := BitVec.ofNat 32 (8 * ((s.pk.bitpos.toNat + 7) / 8))
          blkbits := 0#32 }
        status := { s.status with busy := false, done := true, valid := false } } ∧
      t.lenEntry s.pk.blkidx.toNat = s.pk.blkbits ∧
      ∀ a, a < 4 * s.pk.blkidx.toNat ∨ 4 * s.pk.blkidx.toNat + 3 < a → t.byteAt .len a = s.byteAt .len a) ∧
    (s.caps.lenWords ≤ s.pk.blkidx.toNat → exec .acEnd s = .next { s with
      status := { busy := false, done := true, valid := false, err := true
                  code := if s.status.err then s.status.code else .outOverflow } })

/-- PK_RESET (R97). -/
def Obligations.PkResetResult : Prop :=
  decode 0x00000003#32 = .ok .pkReset ∧
  ∀ s : State, exec .pkReset s = .next { s with
    pk := { bitpos := 0#32, blkidx := 0#32, blkbits := 0#32, totalbits := 0#32 }
    status := { s.status with busy := false, done := true, valid := false } }

/-! ### COMPRESS -/

/-- The tiler (R75): the block count is ceil(H/B) * ceil(W/B), nby and nbx are those ceilings, every pixel of the image is
reached by exactly one block, row and column and its sample is the byte of IMG shifted left by 16, and every other position
samples 0. -/
def Obligations.TilerCovers : Prop :=
  ∀ s : State, s.config.bsize ≠ 0#8 → s.width ≠ 0#16 → s.height ≠ 0#16 →
    s.blockCount = (s.height.toNat + s.config.bsize.toNat - 1) / s.config.bsize.toNat *
      ((s.width.toNat + s.config.bsize.toNat - 1) / s.config.bsize.toNat) ∧
    (s.height.toNat ≤ s.blockRows * s.config.bsize.toNat ∧
      (s.blockRows - 1) * s.config.bsize.toNat < s.height.toNat) ∧
    (s.width.toNat ≤ s.blockCols * s.config.bsize.toNat ∧ (s.blockCols - 1) * s.config.bsize.toNat < s.width.toNat) ∧
    (∀ x y : Nat, x < s.width.toNat → y < s.height.toNat →
      ∃! p : Nat × Nat × Nat × Nat, p.1 < s.blockRows ∧ p.2.1 < s.blockCols ∧ p.2.2.1 < s.config.bsize.toNat ∧
        p.2.2.2 < s.config.bsize.toNat ∧ p.1 * s.config.bsize.toNat + p.2.2.1 = y ∧
        p.2.1 * s.config.bsize.toNat + p.2.2.2 = x) ∧
    (∀ by' bx r c ch x y : Nat, y = by' * s.config.bsize.toNat + r → x = bx * s.config.bsize.toNat + c →
      (x < s.width.toNat ∧ y < s.height.toNat →
        (tileSample s by' bx r c ch).toNat = 2 ^ 16 * (s.byteAt .img (4 * (y * s.width.toNat + x) + ch)).toNat) ∧
      (¬ (x < s.width.toNat ∧ y < s.height.toNat) → tileSample s by' bx r c ch = 0#24))

/-- The symbols of a block (R71, R102): 3*B*B of them, the three of row r, column c at (r*B + c)*3, each pixel quantized and
then transformed where CSPACE = 1. -/
def Obligations.BlockSequence : Prop :=
  ∀ (s : State) (by' bx : Nat),
    (blockSeq s by' bx).length = 3 * s.config.bsize.toNat * s.config.bsize.toNat ∧
    ∀ (r c : Nat) (qr qg qb : Sym), r < s.config.bsize.toNat → c < s.config.bsize.toNat →
      qr = quantize (tileSample s by' bx r c 0) s.qlevel.toNat →
      qg = quantize (tileSample s by' bx r c 1) s.qlevel.toNat →
      qb = quantize (tileSample s by' bx r c 2) s.qlevel.toNat →
      (blockSeq s by' bx)[(r * s.config.bsize.toNat + c) * 3]? =
        some (if s.config.cspace then (xformTriple qr qg qb).1 else qr) ∧
      (blockSeq s by' bx)[(r * s.config.bsize.toNat + c) * 3 + 1]? =
        some (if s.config.cspace then (xformTriple qr qg qb).2.1 else qg) ∧
      (blockSeq s by' bx)[(r * s.config.bsize.toNat + c) * 3 + 2]? =
        some (if s.config.cspace then (xformTriple qr qg qb).2.2 else qb)

/-- The checks of COMPRESS, in R100's order; after a failed check nothing else changes but VALID. -/
def Obligations.CompressChecks : Prop :=
  ∀ s : State,
    (s.config.bsize = 0#8 ∨ s.qlevel = 0#16 → exec .compress s = .next { s with
      status := { busy := false, done := true, valid := false, err := true
                  code := if s.status.err then s.status.code else .configError } }) ∧
    (s.config.bsize ≠ 0#8 → s.qlevel ≠ 0#16 →
      (s.width = 0#16 ∨ s.height = 0#16 ∨ s.caps.imgBytes < s.width.toNat * s.height.toNat * 4 ∨
        s.caps.lenWords < (s.height.toNat + s.config.bsize.toNat - 1) / s.config.bsize.toNat *
          ((s.width.toNat + s.config.bsize.toNat - 1) / s.config.bsize.toNat)) →
      exec .compress s = .next { s with
        status := { busy := false, done := true, valid := false, err := true
                    code := if s.status.err then s.status.code else .shapeError } })

/-- COMPRESS in reference mode (R93, R103, R104): with the checks passed, ADAPT = 0 and an empty table, it completes with
VALID = 1, NB blocks of length 0, no bit emitted and no byte of BITS written; the history holds the last symbols of the last
block. -/
def Obligations.CompressReference : Prop :=
  ∀ s : State, s.config.bsize ≠ 0#8 → s.qlevel ≠ 0#16 → s.width ≠ 0#16 → s.height ≠ 0#16 →
    s.width.toNat * s.height.toNat * 4 ≤ s.caps.imgBytes → s.blockCount ≤ s.caps.lenWords →
    s.config.adapt = false → s.ft = { entries := [], total := 0#32, used := 0#32 } →
    ∃ t, exec .compress s = .next t ∧
      t = { s with
        nblocks := BitVec.ofNat 32 s.blockCount
        pk := { bitpos := 0#32, blkidx := BitVec.ofNat 32 s.blockCount, blkbits := 0#32, totalbits := 0#32 }
        coder := { low := 0x00000000#32, high := 0x80000000#32 }
        hist := (blockSeq s (s.blockRows - 1) (s.blockCols - 1)).foldl (fun h v => h.push v)
          { len := 0, h0 := 0#24, h1 := 0#24, h2 := 0#24, h3 := 0#24 }
        lenMem := t.lenMem
        status := { s.status with busy := false, done := true, valid := true } } ∧
      (∀ i < s.blockCount, t.lenEntry i = 0#32) ∧
      (∀ a, 4 * s.blockCount ≤ a → t.byteAt .len a = s.byteAt .len a)

/-- COMPRESS is the unit commands (R101, R103, R132): with the checks passed it ends, completed or aborted, as the host does
that sets NBLOCKS and the packer as R101 does and then codes every block in order with AC_BEGIN, AC_ENCODE and AC_END,
stopping at the first error; only OP0, which the host writes, and VALID differ. -/
def Obligations.CompressIsUnitCommands : Prop :=
  ∀ s u : State, s.config.bsize ≠ 0#8 → s.qlevel ≠ 0#16 → s.width ≠ 0#16 → s.height ≠ 0#16 →
    s.width.toNat * s.height.toNat * 4 ≤ s.caps.imgBytes → s.blockCount ≤ s.caps.lenWords → s.status.err = false →
    u = execUnits
      ((List.range s.blockCount).flatMap fun i => blockCommands (blockSeq s (i / s.blockCols) (i % s.blockCols)))
      { s with
        nblocks := BitVec.ofNat 32 s.blockCount
        pk := { bitpos := 0#32, blkidx := 0#32, blkbits := 0#32, totalbits := 0#32 } } →
    exec .compress s = .next { u with
      op0 := s.op0
      status := { u.status with valid := !u.status.err } }

/-- The output of a COMPRESS that completed with VALID = 1 (R68, R106): NBLOCKS is the block count, TOTALBITS is the sum of the
LEN entries, BITPOS is the end of the last block's bytes, and every block has its LEN entry. -/
def Obligations.CompressOutput : Prop :=
  ∀ s t : State, s.Inv → exec .compress s = .next t → t.status.valid = true →
    t.nblocks.toNat = s.blockCount ∧ t.pk.blkidx.toNat = s.blockCount ∧ t.pk.blkbits = 0#32 ∧
    t.pk.totalbits.toNat = ((List.range s.blockCount).map fun i => (t.lenEntry i).toNat).sum ∧
    t.pk.bitpos.toNat = 8 * ((List.range s.blockCount).map fun i => ((t.lenEntry i).toNat + 7) / 8).sum ∧
    (∀ a, 4 * s.blockCount ≤ a → t.byteAt .len a = s.byteAt .len a)

/-- VALID after COMPRESS tells whether it failed (R104, R105, R111): where ERR was 0, VALID = 1 exactly where no error was
raised. -/
def Obligations.CompressValidity : Prop :=
  ∀ s t : State, s.status.err = false → exec .compress s = .next t → t.status.valid = !t.status.err

/-- The bits of a block depend only on its symbols, CONFIG and the table where it starts (R107): two devices that agree on
these, with room in BITS and LEN, code a block to the same length and the same bits, and end with the same coder, history,
table and error. -/
def Obligations.BlockIndependence : Prop :=
  ∀ (s u t v : State) (seq : List Sym), s.Inv → u.Inv → s.status.err = false → u.status.err = false →
    s.config = u.config → s.ft = u.ft → s.caps.ftEntries = u.caps.ftEntries →
    s.pk.blkidx.toNat < s.caps.lenWords → u.pk.blkidx.toNat < u.caps.lenWords →
    s.pk.bitpos.toNat + 31 * seq.length ≤ 8 * s.caps.bitsBytes →
    u.pk.bitpos.toNat + 31 * seq.length ≤ 8 * u.caps.bitsBytes →
    t = execUnits (blockCommands seq) s → v = execUnits (blockCommands seq) u →
    t.status.err = v.status.err ∧ t.status.code = v.status.code ∧ t.coder = v.coder ∧ t.hist = v.hist ∧ t.ft = v.ft ∧
    (t.status.err = false →
      t.lenEntry s.pk.blkidx.toNat = v.lenEntry u.pk.blkidx.toNat ∧
      ∀ k < (t.lenEntry s.pk.blkidx.toNat).toNat,
        t.streamBit (s.pk.bitpos.toNat + k) = v.streamBit (u.pk.bitpos.toNat + k))

/-! ### The host port -/

/-- A host write to CMD (R108): CMD_BUSY while busy, ILLEGAL_CMD for an illegal word, else the word is accepted. The model's
own delay and draw counter are left open here. -/
def Obligations.CmdWrite : Prop :=
  ∀ (s : State) (w : Word),
    (s.status.busy = true → hostWrite 0x00000C#22 w s = { s with
      status := { s.status with err := true, code := if s.status.err then s.status.code else .cmdBusy } }) ∧
    (∀ e, s.status.busy = false → decode w = .error e → hostWrite 0x00000C#22 w s = { s with
      status := { s.status with
        done := true, err := true, code := if s.status.err then s.status.code else .illegalCmd } }) ∧
    (∀ i, s.status.busy = false → decode w = .ok i → ∃ d n : Nat, hostWrite 0x00000C#22 w s = { s with
      pending := some w
      status := { s.status with busy := true, done := false }
      delay := d
      draws := n })

/-- A write to an input register or to IMG while BUSY = 1 is dropped and records ACCESS_BUSY; nothing else changes
(R50(b), R112, R129). -/
def Obligations.BusyWritesDropped : Prop :=
  ∀ (s : State) (off : Offset) (v : Word), s.status.busy = true →
    (4 * (off.toNat / 4) ∈ [0x018, 0x01C, 0x020, 0x024, 0x040, 0x044, 0x048] ∨
      (0x100000 ≤ 4 * (off.toNat / 4) ∧ 4 * (off.toNat / 4) < 0x100000 + s.caps.imgBytes ∧ 4 * (off.toNat / 4) < 0x200000)) →
    hostWrite off v s = { s with
      status := { s.status with err := true, code := if s.status.err then s.status.code else .accessBusy } }

/-- Reads while BUSY = 1 (R50(d), (e), (f)): state that the engine writes, LEN and BITS answer a free word, drawn anew for
each read; the registers the host writes, the constants and IMG answer exactly. How a free word is drawn is the model's choice
(log 4). -/
def Obligations.BusyReads : Prop :=
  ∀ (s : State) (off : Offset), s.status.busy = true → s.caps.legal = true →
    (4 * (off.toNat / 4) ∈ [0x028, 0x02C, 0x030, 0x034, 0x038, 0x050, 0x054, 0x058, 0x060, 0x064, 0x080, 0x084, 0x088,
        0x090, 0x094, 0x098, 0x09C] ∨
      (0x200000 ≤ 4 * (off.toNat / 4) ∧ 4 * (off.toNat / 4) < 0x200000 + 4 * s.caps.lenWords) ∨
      (0x300000 ≤ 4 * (off.toNat / 4) ∧ 4 * (off.toNat / 4) < 0x300000 + s.caps.bitsBytes) →
      hostReadValue s off = Config.busyRead s.draws ∧ (hostRead off s).draws = s.draws + 1) ∧
    (4 * (off.toNat / 4) ∈ [0x000, 0x004, 0x008, 0x00C, 0x014, 0x018, 0x01C, 0x020, 0x024, 0x040, 0x044, 0x048, 0x068,
        0x06C, 0x070, 0x074] ∨
      (0x100000 ≤ 4 * (off.toNat / 4) ∧ 4 * (off.toNat / 4) < 0x100000 + s.caps.imgBytes) →
      hostReadValue s off = hostReadValue { s with status := { s.status with busy := false } } off) ∧
    (4 * (off.toNat / 4) = 0x010 → (hostReadValue s off).toNat =
      1 + 2 * s.status.done.toNat + 4 * s.status.err.toNat + 8 * s.status.valid.toNat + 256 * s.status.code.value.toNat)

/-- The register map while BUSY = 0 (R16 to R36): what each offset reads. -/
def Obligations.RegisterReads : Prop :=
  ∀ s : State, s.status.busy = false →
    hostReadValue s 0x000#22 = 0x44434631#32 ∧ hostReadValue s 0x004#22 = 0x00010000#32 ∧
    hostReadValue s 0x008#22 = 0#32 ∧ hostReadValue s 0x00C#22 = 0#32 ∧
    (hostReadValue s 0x010#22).toNat = 2 * s.status.done.toNat + 4 * s.status.err.toNat + 8 * s.status.valid.toNat +
      256 * s.status.code.value.toNat ∧
    (hostReadValue s 0x014#22).toNat = s.ier.doneIe.toNat + 2 * s.ier.errIe.toNat ∧
    (hostReadValue s 0x018#22).toNat = s.config.bsize.toNat + 256 * s.config.cspace.toNat + 512 * s.config.adapt.toNat ∧
    (hostReadValue s 0x01C#22).toNat = s.qlevel.toNat ∧
    (hostReadValue s 0x020#22).toNat = s.width.toNat ∧ (hostReadValue s 0x024#22).toNat = s.height.toNat ∧
    hostReadValue s 0x028#22 = s.nblocks ∧ hostReadValue s 0x02C#22 = s.pk.totalbits ∧
    hostReadValue s 0x030#22 = s.pk.bitpos ∧ hostReadValue s 0x034#22 = s.pk.blkidx ∧
    hostReadValue s 0x038#22 = s.pk.blkbits ∧
    (hostReadValue s 0x040#22).toNat = s.op0.toNat ∧ (hostReadValue s 0x044#22).toNat = s.op1.toNat ∧
    (hostReadValue s 0x048#22).toNat = s.op2.toNat ∧
    hostReadValue s 0x050#22 = s.res0 ∧ hostReadValue s 0x054#22 = s.res1 ∧ hostReadValue s 0x058#22 = s.res2 ∧
    hostReadValue s 0x060#22 = s.ft.total ∧ hostReadValue s 0x064#22 = s.ft.used ∧
    hostReadValue s 0x068#22 = BitVec.ofNat 32 s.caps.ftEntries ∧
    hostReadValue s 0x06C#22 = BitVec.ofNat 32 s.caps.imgBytes ∧
    hostReadValue s 0x070#22 = BitVec.ofNat 32 s.caps.lenWords ∧
    hostReadValue s 0x074#22 = BitVec.ofNat 32 s.caps.bitsBytes ∧
    hostReadValue s 0x080#22 = s.coder.low ∧ hostReadValue s 0x084#22 = s.coder.high ∧
    (hostReadValue s 0x088#22).toNat = s.hist.len.val ∧
    (hostReadValue s 0x090#22).toNat = s.hist.h0.toNat ∧ (hostReadValue s 0x094#22).toNat = s.hist.h1.toNat ∧
    (hostReadValue s 0x098#22).toNat = s.hist.h2.toNat ∧ (hostReadValue s 0x09C#22).toNat = s.hist.h3.toNat

/-- Writes to the registers the host may write, while BUSY = 0 (R22 to R25, R31), and to IER at any time: the fields take
their bits, reserved bits are ignored, nothing else changes. -/
def Obligations.RegisterWrites : Prop :=
  ∀ (s : State) (v : Word),
    hostWrite 0x014#22 v s = { s with ier := { doneIe := v.getLsbD 0, errIe := v.getLsbD 1 } } ∧
    (s.status.busy = false →
      hostWrite 0x018#22 v s = { s with config :=
        { bsize := BitVec.ofNat 8 v.toNat, cspace := v.getLsbD 8, adapt := v.getLsbD 9 } } ∧
      hostWrite 0x01C#22 v s = { s with qlevel := BitVec.ofNat 16 v.toNat } ∧
      hostWrite 0x020#22 v s = { s with width := BitVec.ofNat 16 v.toNat } ∧
      hostWrite 0x024#22 v s = { s with height := BitVec.ofNat 16 v.toNat } ∧
      hostWrite 0x040#22 v s = { s with op0 := BitVec.ofNat 24 v.toNat } ∧
      hostWrite 0x044#22 v s = { s with op1 := BitVec.ofNat 24 v.toNat } ∧
      hostWrite 0x048#22 v s = { s with op2 := BitVec.ofNat 24 v.toNat })

/-- Read-only offsets (R16, R45): a host write to a read-only register, to LEN or to BITS is ignored, busy or not. -/
def Obligations.ReadOnlyIgnored : Prop :=
  ∀ (s : State) (off : Offset) (v : Word),
    (4 * (off.toNat / 4) ∈ [0x000, 0x004, 0x028, 0x02C, 0x030, 0x034, 0x038, 0x050, 0x054, 0x058, 0x060, 0x064, 0x068, 0x06C,
        0x070, 0x074, 0x080, 0x084, 0x088, 0x090, 0x094, 0x098, 0x09C] ∨
      0x200000 ≤ 4 * (off.toNat / 4)) →
    hostWrite off v s = s

/-- Reserved and unmapped offsets (R37, R45): they read 0 and writes are ignored, busy or not. -/
def Obligations.UnmappedAccess : Prop :=
  ∀ (s : State) (off : Offset) (v : Word) (a : Nat), s.caps.legal = true → a = 4 * (off.toNat / 4) →
    ((a < 0x1000 ∧ a ∉ [0x000, 0x004, 0x008, 0x00C, 0x010, 0x014, 0x018, 0x01C, 0x020, 0x024, 0x028, 0x02C, 0x030, 0x034,
        0x038, 0x040, 0x044, 0x048, 0x050, 0x054, 0x058, 0x060, 0x064, 0x068, 0x06C, 0x070, 0x074, 0x080, 0x084, 0x088,
        0x090, 0x094, 0x098, 0x09C]) ∨
      (0x1000 ≤ a ∧ a < 0x100000) ∨
      (0x100000 + s.caps.imgBytes ≤ a ∧ a < 0x200000) ∨
      (0x200000 + 4 * s.caps.lenWords ≤ a ∧ a < 0x300000) ∨
      0x300000 + s.caps.bitsBytes ≤ a) →
    hostReadValue s off = 0#32 ∧ hostWrite off v s = s

/-- Offset bits [1:0] are ignored (R43): an access is to the aligned word. -/
def Obligations.OffsetsAligned : Prop :=
  ∀ (s : State) (off : Offset) (v : Word),
    hostReadValue s off = hostReadValue s (off &&& 0x3FFFFC#22) ∧
    hostWrite off v s = hostWrite (off &&& 0x3FFFFC#22) v s

/-- A word written to IMG while BUSY = 0 (R45, R46): its four bytes land little-endian, every other byte and every other part
of the state is unchanged, and the word reads back. -/
def Obligations.ImgWordReadBack : Prop :=
  ∀ (s t : State) (off : Offset) (v : Word) (a : Nat), s.status.busy = false → s.caps.legal = true →
    4 * (off.toNat / 4) = 0x100000 + a → a < s.caps.imgBytes → t = hostWrite off v s →
    t = { s with img := t.img } ∧ hostReadValue t off = v ∧
    (∀ j < 4, (t.byteAt .img (a + j)).toNat = v.toNat / 256 ^ j % 256) ∧
    (∀ b, b < a ∨ a + 3 < b → t.byteAt .img b = s.byteAt .img b)

/-- A PIX line (R47, R61) is one transaction, and while BUSY = 0 it stores the pixel: R, G, B and a zero alpha byte at IMG
offset 4 * (y * WIDTH + x), every other byte of IMG unchanged. -/
def Obligations.PixWritesPixel : Prop :=
  ∀ (s : State) (x y : Nat) (r g b : Byte), s.status.busy = false → s.caps.legal = true →
    4 * (y * s.width.toNat + x) < s.caps.imgBytes →
    ∃ off v, lineTransactions s.width.toNat (.pix x y r g b) = [.write off v] ∧
      (hostWrite off v s).byteAt .img (4 * (y * s.width.toNat + x)) = r ∧
      (hostWrite off v s).byteAt .img (4 * (y * s.width.toNat + x) + 1) = g ∧
      (hostWrite off v s).byteAt .img (4 * (y * s.width.toNat + x) + 2) = b ∧
      (hostWrite off v s).byteAt .img (4 * (y * s.width.toNat + x) + 3) = 0#8 ∧
      ∀ a, a < 4 * (y * s.width.toNat + x) ∨ 4 * (y * s.width.toNat + x) + 3 < a →
        (hostWrite off v s).byteAt .img a = s.byteAt .img a

/-- POLL (R61) reads STATUS, answers it to the host, and stands first in line again while BUSY = 1. Nothing of the device
changes. That POLL is one entry of `inbox` is the model's choice (log 6). -/
def Obligations.PollReadsStatus : Prop :=
  ∀ (s : State) (rest : List Transaction), s.inbox = .poll :: rest → (s.status.busy = false ∨ 0 < s.delay) →
    step s = .next { s with
      inbox := if s.status.busy then s.inbox else rest
      delay := s.delay - 1
      replies := s.status.word :: s.replies }

/-- LEN and BITS read little-endian while BUSY = 0 (R45, R46, R48). -/
def Obligations.OutputReads : Prop :=
  ∀ (s : State) (off : Offset) (a : Nat), s.status.busy = false → s.caps.legal = true →
    (4 * (off.toNat / 4) = 0x200000 + a → a < 4 * s.caps.lenWords →
      (hostReadValue s off).toNat = (s.byteAt .len a).toNat + 256 * (s.byteAt .len (a + 1)).toNat +
        65536 * (s.byteAt .len (a + 2)).toNat + 16777216 * (s.byteAt .len (a + 3)).toNat ∧
      hostReadValue s off = s.lenEntry (a / 4)) ∧
    (4 * (off.toNat / 4) = 0x300000 + a → a < s.caps.bitsBytes →
      (hostReadValue s off).toNat = (s.byteAt .bits a).toNat + 256 * (s.byteAt .bits (a + 1)).toNat +
        65536 * (s.byteAt .bits (a + 2)).toNat + 16777216 * (s.byteAt .bits (a + 3)).toNat)

/-- A host write to STATUS (R21): bit 1 clears DONE, bit 2 clears ERR and ERRCODE; BUSY, VALID and everything else stay. It is
honoured while busy. -/
def Obligations.StatusWrite : Prop :=
  ∀ (s : State) (v : Word), hostWrite 0x010#22 v s = { s with
    status := { s.status with
      done := if v.getLsbD 1 then false else s.status.done
      err := if v.getLsbD 2 then false else s.status.err
      code := if v.getLsbD 2 then .none else s.status.code } }

/-- The interrupt output (R115): its equation, masking by IER, clearing by a write of 6 to STATUS, and the acceptance of a
command clearing its DONE cause. -/
def Obligations.InterruptOutput : Prop :=
  ∀ s : State,
    (s.irq = true ↔ (s.status.done = true ∧ s.ier.doneIe = true) ∨ (s.status.err = true ∧ s.ier.errIe = true)) ∧
    (hostWrite 0x014#22 0#32 s).irq = false ∧
    (hostWrite 0x010#22 0x00000006#32 s).irq = false ∧
    (∀ (w : Word) (i : Instr), s.status.busy = false → decode w = .ok i →
      (hostWrite 0x00C#22 w s).irq = (s.status.err && s.ier.errIe))

/-! ### Reset -/

/-- Soft reset (R125): a write to CTRL with bit 0 = 1, busy or not, puts every register, the table and `pending` at its
power-on value and keeps IMG; LEN and BITS are kept where BUSY = 0, and hold a fresh free byte at each address where BUSY = 1
(how it is drawn is the model's choice: log 7).
A write with bit 0 = 0 does nothing (R19). -/
def Obligations.SoftReset : Prop :=
  ∀ (s t : State) (v : Word), t = hostWrite 0x008#22 v s →
    (v.getLsbD 0 = false → t = s) ∧
    (v.getLsbD 0 = true →
      t.status = { busy := false, done := false, err := false, valid := false, code := .none } ∧
      t.ier = { doneIe := false, errIe := false } ∧ t.config = { bsize := 8#8, cspace := true, adapt := false } ∧
      t.qlevel = 8#16 ∧ t.width = 0#16 ∧ t.height = 0#16 ∧ t.nblocks = 0#32 ∧
      t.pk = { bitpos := 0#32, blkidx := 0#32, blkbits := 0#32, totalbits := 0#32 } ∧
      t.op0 = 0#24 ∧ t.op1 = 0#24 ∧ t.op2 = 0#24 ∧ t.res0 = 0#32 ∧ t.res1 = 0#32 ∧ t.res2 = 0#32 ∧
      t.coder = { low := 0x00000000#32, high := 0x80000000#32 } ∧
      t.hist = { len := 0, h0 := 0#24, h1 := 0#24, h2 := 0#24, h3 := 0#24 } ∧
      t.ft = { entries := [], total := 0#32, used := 0#32 } ∧ t.pending = none ∧ t.caps = s.caps ∧ t.img = s.img ∧
      (s.status.busy = false → t.lenMem = s.lenMem ∧ t.bits = s.bits) ∧
      (s.status.busy = true → ∀ a, t.byteAt .len a = Config.unwrittenByte .len (s.draws + 1) a ∧
        t.byteAt .bits a = Config.unwrittenByte .bits (s.draws + 1) a))

/-- Power-on reset through the reset input (R124): every register at its value, the table empty, nothing pending, and every
byte of IMG, LEN and BITS a fresh free value. That the reset input is an entry of `inbox`, and how a free byte is drawn, is the
model's choice (log 2, log 8). -/
def Obligations.PowerOnReset : Prop :=
  ∀ (s : State) (rest : List Transaction), s.inbox = .powerOn :: rest → (s.status.busy = false ∨ 0 < s.delay) →
    ∃ t, step s = .next t ∧
      t.status = { busy := false, done := false, err := false, valid := false, code := .none } ∧
      t.ier = { doneIe := false, errIe := false } ∧ t.config = { bsize := 8#8, cspace := true, adapt := false } ∧
      t.qlevel = 8#16 ∧ t.width = 0#16 ∧ t.height = 0#16 ∧ t.nblocks = 0#32 ∧
      t.pk = { bitpos := 0#32, blkidx := 0#32, blkbits := 0#32, totalbits := 0#32 } ∧
      t.op0 = 0#24 ∧ t.op1 = 0#24 ∧ t.op2 = 0#24 ∧ t.res0 = 0#32 ∧ t.res1 = 0#32 ∧ t.res2 = 0#32 ∧
      t.coder = { low := 0x00000000#32, high := 0x80000000#32 } ∧
      t.hist = { len := 0, h0 := 0#24, h1 := 0#24, h2 := 0#24, h3 := 0#24 } ∧
      t.ft = { entries := [], total := 0#32, used := 0#32 } ∧ t.pending = none ∧ t.caps = s.caps ∧
      (∀ sp a, t.byteAt sp a = Config.unwrittenByte sp (s.draws + 1) a) ∧ t.irq = false

/-! ### Invariants and runs -/

/-- Every step keeps the invariant: the memories and the table in canonical form and within their capacities, FT_TOTAL the sum
of the counts, `0 <= low < high <= ONE`, the counters of the packer in range, cleared padding, a legal pending word while busy,
ERRCODE 0 exactly where ERR = 0. -/
def Obligations.InvariantKept : Prop :=
  ∀ s t : State, s.Inv → step s = .next t → t.Inv

/-- The invariant holds right after reset, with the capacities of log 5. -/
def Obligations.InvariantAtReset : Prop := State.reset.Inv

/-- With the invariant, no run ever stops: no step faults or refuses (R109 "Every command terminates"; log 9). -/
def Obligations.RunsNeverStop : Prop :=
  ∀ (n : Nat) (s : State), s.Inv → runsSafely n s

/-- A running command ends (R109, R133): within `delay` + 1 steps BUSY is 0, whatever the host does in between. That the
delay counts host transactions is the model's choice (log 3). -/
def Obligations.BusyEnds : Prop :=
  ∀ s : State, s.status.busy = true → s.pendingLegal →
    ∃ (n : Nat) (t : State), n ≤ s.delay + 1 ∧ runSteps n s = .next t ∧ t.status.busy = false

/-- Inputs are frozen while busy (R129): a step after which the command is still running changes no configuration, no operand,
no byte of IMG, not the pending word, and nothing the engine writes, VALID among it (R21); of STATUS only DONE, ERR and ERRCODE
can change. That such a step takes one from `delay` is the model's choice (log 3). -/
def Obligations.FrozenWhileBusy : Prop :=
  ∀ s t : State, s.status.busy = true → step s = .next t → t.status.busy = true →
    t = { s with
      status := { s.status with done := t.status.done, err := t.status.err, code := t.status.code }
      ier := t.ier, inbox := t.inbox, replies := t.replies, delay := s.delay - 1, draws := t.draws } ∧
    t.status.valid = s.status.valid
end

