-- ==== Sys2Proof/Laws/State.lean ====
section
/-! SUPPORT. The fields of State after each named update: one lemma per field per update, so that no later proof unfolds one. -/

namespace Sys2Proof.Machine

open Sys2Proof

/-! ### VALID <- 0 -/

@[simp] theorem State.clearValid_caps (s : State) : s.clearValid.caps = s.caps := rfl
@[simp] theorem State.clearValid_status (s : State) : s.clearValid.status = { s.status with valid := false } := rfl
@[simp] theorem State.clearValid_ier (s : State) : s.clearValid.ier = s.ier := rfl
@[simp] theorem State.clearValid_config (s : State) : s.clearValid.config = s.config := rfl
@[simp] theorem State.clearValid_qlevel (s : State) : s.clearValid.qlevel = s.qlevel := rfl
@[simp] theorem State.clearValid_width (s : State) : s.clearValid.width = s.width := rfl
@[simp] theorem State.clearValid_height (s : State) : s.clearValid.height = s.height := rfl
@[simp] theorem State.clearValid_nblocks (s : State) : s.clearValid.nblocks = s.nblocks := rfl
@[simp] theorem State.clearValid_pk (s : State) : s.clearValid.pk = s.pk := rfl
@[simp] theorem State.clearValid_op0 (s : State) : s.clearValid.op0 = s.op0 := rfl
@[simp] theorem State.clearValid_op1 (s : State) : s.clearValid.op1 = s.op1 := rfl
@[simp] theorem State.clearValid_op2 (s : State) : s.clearValid.op2 = s.op2 := rfl
@[simp] theorem State.clearValid_res0 (s : State) : s.clearValid.res0 = s.res0 := rfl
@[simp] theorem State.clearValid_res1 (s : State) : s.clearValid.res1 = s.res1 := rfl
@[simp] theorem State.clearValid_res2 (s : State) : s.clearValid.res2 = s.res2 := rfl
@[simp] theorem State.clearValid_ft (s : State) : s.clearValid.ft = s.ft := rfl
@[simp] theorem State.clearValid_coder (s : State) : s.clearValid.coder = s.coder := rfl
@[simp] theorem State.clearValid_hist (s : State) : s.clearValid.hist = s.hist := rfl
@[simp] theorem State.clearValid_pending (s : State) : s.clearValid.pending = s.pending := rfl
@[simp] theorem State.clearValid_img (s : State) : s.clearValid.img = s.img := rfl
@[simp] theorem State.clearValid_lenMem (s : State) : s.clearValid.lenMem = s.lenMem := rfl
@[simp] theorem State.clearValid_bits (s : State) : s.clearValid.bits = s.bits := rfl
@[simp] theorem State.clearValid_inbox (s : State) : s.clearValid.inbox = s.inbox := rfl
@[simp] theorem State.clearValid_replies (s : State) : s.clearValid.replies = s.replies := rfl
@[simp] theorem State.clearValid_delay (s : State) : s.clearValid.delay = s.delay := rfl
@[simp] theorem State.clearValid_draws (s : State) : s.clearValid.draws = s.draws := rfl

/-! ### VALID <- 1 -/

@[simp] theorem State.setValid_caps (s : State) : s.setValid.caps = s.caps := rfl
@[simp] theorem State.setValid_status (s : State) : s.setValid.status = { s.status with valid := true } := rfl
@[simp] theorem State.setValid_ier (s : State) : s.setValid.ier = s.ier := rfl
@[simp] theorem State.setValid_config (s : State) : s.setValid.config = s.config := rfl
@[simp] theorem State.setValid_qlevel (s : State) : s.setValid.qlevel = s.qlevel := rfl
@[simp] theorem State.setValid_width (s : State) : s.setValid.width = s.width := rfl
@[simp] theorem State.setValid_height (s : State) : s.setValid.height = s.height := rfl
@[simp] theorem State.setValid_nblocks (s : State) : s.setValid.nblocks = s.nblocks := rfl
@[simp] theorem State.setValid_pk (s : State) : s.setValid.pk = s.pk := rfl
@[simp] theorem State.setValid_op0 (s : State) : s.setValid.op0 = s.op0 := rfl
@[simp] theorem State.setValid_op1 (s : State) : s.setValid.op1 = s.op1 := rfl
@[simp] theorem State.setValid_op2 (s : State) : s.setValid.op2 = s.op2 := rfl
@[simp] theorem State.setValid_res0 (s : State) : s.setValid.res0 = s.res0 := rfl
@[simp] theorem State.setValid_res1 (s : State) : s.setValid.res1 = s.res1 := rfl
@[simp] theorem State.setValid_res2 (s : State) : s.setValid.res2 = s.res2 := rfl
@[simp] theorem State.setValid_ft (s : State) : s.setValid.ft = s.ft := rfl
@[simp] theorem State.setValid_coder (s : State) : s.setValid.coder = s.coder := rfl
@[simp] theorem State.setValid_hist (s : State) : s.setValid.hist = s.hist := rfl
@[simp] theorem State.setValid_pending (s : State) : s.setValid.pending = s.pending := rfl
@[simp] theorem State.setValid_img (s : State) : s.setValid.img = s.img := rfl
@[simp] theorem State.setValid_lenMem (s : State) : s.setValid.lenMem = s.lenMem := rfl
@[simp] theorem State.setValid_bits (s : State) : s.setValid.bits = s.bits := rfl
@[simp] theorem State.setValid_inbox (s : State) : s.setValid.inbox = s.inbox := rfl
@[simp] theorem State.setValid_replies (s : State) : s.setValid.replies = s.replies := rfl
@[simp] theorem State.setValid_delay (s : State) : s.setValid.delay = s.delay := rfl
@[simp] theorem State.setValid_draws (s : State) : s.setValid.draws = s.draws := rfl

/-! ### the record step (R111) -/

@[simp] theorem State.recordError_caps (e : ErrCode) (s : State) : (s.recordError e).caps = s.caps := rfl
@[simp] theorem State.recordError_status (e : ErrCode) (s : State) : (s.recordError e).status = s.status.record e := rfl
@[simp] theorem State.recordError_ier (e : ErrCode) (s : State) : (s.recordError e).ier = s.ier := rfl
@[simp] theorem State.recordError_config (e : ErrCode) (s : State) : (s.recordError e).config = s.config := rfl
@[simp] theorem State.recordError_qlevel (e : ErrCode) (s : State) : (s.recordError e).qlevel = s.qlevel := rfl
@[simp] theorem State.recordError_width (e : ErrCode) (s : State) : (s.recordError e).width = s.width := rfl
@[simp] theorem State.recordError_height (e : ErrCode) (s : State) : (s.recordError e).height = s.height := rfl
@[simp] theorem State.recordError_nblocks (e : ErrCode) (s : State) : (s.recordError e).nblocks = s.nblocks := rfl
@[simp] theorem State.recordError_pk (e : ErrCode) (s : State) : (s.recordError e).pk = s.pk := rfl
@[simp] theorem State.recordError_op0 (e : ErrCode) (s : State) : (s.recordError e).op0 = s.op0 := rfl
@[simp] theorem State.recordError_op1 (e : ErrCode) (s : State) : (s.recordError e).op1 = s.op1 := rfl
@[simp] theorem State.recordError_op2 (e : ErrCode) (s : State) : (s.recordError e).op2 = s.op2 := rfl
@[simp] theorem State.recordError_res0 (e : ErrCode) (s : State) : (s.recordError e).res0 = s.res0 := rfl
@[simp] theorem State.recordError_res1 (e : ErrCode) (s : State) : (s.recordError e).res1 = s.res1 := rfl
@[simp] theorem State.recordError_res2 (e : ErrCode) (s : State) : (s.recordError e).res2 = s.res2 := rfl
@[simp] theorem State.recordError_ft (e : ErrCode) (s : State) : (s.recordError e).ft = s.ft := rfl
@[simp] theorem State.recordError_coder (e : ErrCode) (s : State) : (s.recordError e).coder = s.coder := rfl
@[simp] theorem State.recordError_hist (e : ErrCode) (s : State) : (s.recordError e).hist = s.hist := rfl
@[simp] theorem State.recordError_pending (e : ErrCode) (s : State) : (s.recordError e).pending = s.pending := rfl
@[simp] theorem State.recordError_img (e : ErrCode) (s : State) : (s.recordError e).img = s.img := rfl
@[simp] theorem State.recordError_lenMem (e : ErrCode) (s : State) : (s.recordError e).lenMem = s.lenMem := rfl
@[simp] theorem State.recordError_bits (e : ErrCode) (s : State) : (s.recordError e).bits = s.bits := rfl
@[simp] theorem State.recordError_inbox (e : ErrCode) (s : State) : (s.recordError e).inbox = s.inbox := rfl
@[simp] theorem State.recordError_replies (e : ErrCode) (s : State) : (s.recordError e).replies = s.replies := rfl
@[simp] theorem State.recordError_delay (e : ErrCode) (s : State) : (s.recordError e).delay = s.delay := rfl
@[simp] theorem State.recordError_draws (e : ErrCode) (s : State) : (s.recordError e).draws = s.draws := rfl

/-! ### completion (R109) -/

@[simp] theorem complete_ok_caps (s : State) : (complete (.ok s)).caps = s.caps := rfl
@[simp] theorem complete_ok_status (s : State) : (complete (.ok s)).status = s.status.finish := rfl
@[simp] theorem complete_ok_ier (s : State) : (complete (.ok s)).ier = s.ier := rfl
@[simp] theorem complete_ok_config (s : State) : (complete (.ok s)).config = s.config := rfl
@[simp] theorem complete_ok_qlevel (s : State) : (complete (.ok s)).qlevel = s.qlevel := rfl
@[simp] theorem complete_ok_width (s : State) : (complete (.ok s)).width = s.width := rfl
@[simp] theorem complete_ok_height (s : State) : (complete (.ok s)).height = s.height := rfl
@[simp] theorem complete_ok_nblocks (s : State) : (complete (.ok s)).nblocks = s.nblocks := rfl
@[simp] theorem complete_ok_pk (s : State) : (complete (.ok s)).pk = s.pk := rfl
@[simp] theorem complete_ok_op0 (s : State) : (complete (.ok s)).op0 = s.op0 := rfl
@[simp] theorem complete_ok_op1 (s : State) : (complete (.ok s)).op1 = s.op1 := rfl
@[simp] theorem complete_ok_op2 (s : State) : (complete (.ok s)).op2 = s.op2 := rfl
@[simp] theorem complete_ok_res0 (s : State) : (complete (.ok s)).res0 = s.res0 := rfl
@[simp] theorem complete_ok_res1 (s : State) : (complete (.ok s)).res1 = s.res1 := rfl
@[simp] theorem complete_ok_res2 (s : State) : (complete (.ok s)).res2 = s.res2 := rfl
@[simp] theorem complete_ok_ft (s : State) : (complete (.ok s)).ft = s.ft := rfl
@[simp] theorem complete_ok_coder (s : State) : (complete (.ok s)).coder = s.coder := rfl
@[simp] theorem complete_ok_hist (s : State) : (complete (.ok s)).hist = s.hist := rfl
@[simp] theorem complete_ok_pending (s : State) : (complete (.ok s)).pending = s.pending := rfl
@[simp] theorem complete_ok_img (s : State) : (complete (.ok s)).img = s.img := rfl
@[simp] theorem complete_ok_lenMem (s : State) : (complete (.ok s)).lenMem = s.lenMem := rfl
@[simp] theorem complete_ok_bits (s : State) : (complete (.ok s)).bits = s.bits := rfl
@[simp] theorem complete_ok_inbox (s : State) : (complete (.ok s)).inbox = s.inbox := rfl
@[simp] theorem complete_ok_replies (s : State) : (complete (.ok s)).replies = s.replies := rfl
@[simp] theorem complete_ok_delay (s : State) : (complete (.ok s)).delay = s.delay := rfl
@[simp] theorem complete_ok_draws (s : State) : (complete (.ok s)).draws = s.draws := rfl

/-! ### abort (R111) -/

@[simp] theorem complete_raised_caps (e : ErrCode) (s : State) : (complete (.raised e s)).caps = s.caps := rfl
@[simp] theorem complete_raised_status (e : ErrCode) (s : State) : (complete (.raised e s)).status = (s.status.record e).finish := rfl
@[simp] theorem complete_raised_ier (e : ErrCode) (s : State) : (complete (.raised e s)).ier = s.ier := rfl
@[simp] theorem complete_raised_config (e : ErrCode) (s : State) : (complete (.raised e s)).config = s.config := rfl
@[simp] theorem complete_raised_qlevel (e : ErrCode) (s : State) : (complete (.raised e s)).qlevel = s.qlevel := rfl
@[simp] theorem complete_raised_width (e : ErrCode) (s : State) : (complete (.raised e s)).width = s.width := rfl
@[simp] theorem complete_raised_height (e : ErrCode) (s : State) : (complete (.raised e s)).height = s.height := rfl
@[simp] theorem complete_raised_nblocks (e : ErrCode) (s : State) : (complete (.raised e s)).nblocks = s.nblocks := rfl
@[simp] theorem complete_raised_pk (e : ErrCode) (s : State) : (complete (.raised e s)).pk = s.pk := rfl
@[simp] theorem complete_raised_op0 (e : ErrCode) (s : State) : (complete (.raised e s)).op0 = s.op0 := rfl
@[simp] theorem complete_raised_op1 (e : ErrCode) (s : State) : (complete (.raised e s)).op1 = s.op1 := rfl
@[simp] theorem complete_raised_op2 (e : ErrCode) (s : State) : (complete (.raised e s)).op2 = s.op2 := rfl
@[simp] theorem complete_raised_res0 (e : ErrCode) (s : State) : (complete (.raised e s)).res0 = s.res0 := rfl
@[simp] theorem complete_raised_res1 (e : ErrCode) (s : State) : (complete (.raised e s)).res1 = s.res1 := rfl
@[simp] theorem complete_raised_res2 (e : ErrCode) (s : State) : (complete (.raised e s)).res2 = s.res2 := rfl
@[simp] theorem complete_raised_ft (e : ErrCode) (s : State) : (complete (.raised e s)).ft = s.ft := rfl
@[simp] theorem complete_raised_coder (e : ErrCode) (s : State) : (complete (.raised e s)).coder = s.coder := rfl
@[simp] theorem complete_raised_hist (e : ErrCode) (s : State) : (complete (.raised e s)).hist = s.hist := rfl
@[simp] theorem complete_raised_pending (e : ErrCode) (s : State) : (complete (.raised e s)).pending = s.pending := rfl
@[simp] theorem complete_raised_img (e : ErrCode) (s : State) : (complete (.raised e s)).img = s.img := rfl
@[simp] theorem complete_raised_lenMem (e : ErrCode) (s : State) : (complete (.raised e s)).lenMem = s.lenMem := rfl
@[simp] theorem complete_raised_bits (e : ErrCode) (s : State) : (complete (.raised e s)).bits = s.bits := rfl
@[simp] theorem complete_raised_inbox (e : ErrCode) (s : State) : (complete (.raised e s)).inbox = s.inbox := rfl
@[simp] theorem complete_raised_replies (e : ErrCode) (s : State) : (complete (.raised e s)).replies = s.replies := rfl
@[simp] theorem complete_raised_delay (e : ErrCode) (s : State) : (complete (.raised e s)).delay = s.delay := rfl
@[simp] theorem complete_raised_draws (e : ErrCode) (s : State) : (complete (.raised e s)).draws = s.draws := rfl

/-! ### the start of a block (R94) -/

@[simp] theorem beginBlock_caps (s : State) : (beginBlock s).caps = s.caps := rfl
@[simp] theorem beginBlock_status (s : State) : (beginBlock s).status = s.status := rfl
@[simp] theorem beginBlock_ier (s : State) : (beginBlock s).ier = s.ier := rfl
@[simp] theorem beginBlock_config (s : State) : (beginBlock s).config = s.config := rfl
@[simp] theorem beginBlock_qlevel (s : State) : (beginBlock s).qlevel = s.qlevel := rfl
@[simp] theorem beginBlock_width (s : State) : (beginBlock s).width = s.width := rfl
@[simp] theorem beginBlock_height (s : State) : (beginBlock s).height = s.height := rfl
@[simp] theorem beginBlock_nblocks (s : State) : (beginBlock s).nblocks = s.nblocks := rfl
@[simp] theorem beginBlock_pk (s : State) : (beginBlock s).pk = { s.pk with blkbits := 0#32 } := rfl
@[simp] theorem beginBlock_op0 (s : State) : (beginBlock s).op0 = s.op0 := rfl
@[simp] theorem beginBlock_op1 (s : State) : (beginBlock s).op1 = s.op1 := rfl
@[simp] theorem beginBlock_op2 (s : State) : (beginBlock s).op2 = s.op2 := rfl
@[simp] theorem beginBlock_res0 (s : State) : (beginBlock s).res0 = s.res0 := rfl
@[simp] theorem beginBlock_res1 (s : State) : (beginBlock s).res1 = s.res1 := rfl
@[simp] theorem beginBlock_res2 (s : State) : (beginBlock s).res2 = s.res2 := rfl
@[simp] theorem beginBlock_ft (s : State) : (beginBlock s).ft = s.ft := rfl
@[simp] theorem beginBlock_coder (s : State) : (beginBlock s).coder = Coder.full := rfl
@[simp] theorem beginBlock_hist (s : State) : (beginBlock s).hist = History.empty := rfl
@[simp] theorem beginBlock_pending (s : State) : (beginBlock s).pending = s.pending := rfl
@[simp] theorem beginBlock_img (s : State) : (beginBlock s).img = s.img := rfl
@[simp] theorem beginBlock_lenMem (s : State) : (beginBlock s).lenMem = s.lenMem := rfl
@[simp] theorem beginBlock_bits (s : State) : (beginBlock s).bits = s.bits := rfl
@[simp] theorem beginBlock_inbox (s : State) : (beginBlock s).inbox = s.inbox := rfl
@[simp] theorem beginBlock_replies (s : State) : (beginBlock s).replies = s.replies := rfl
@[simp] theorem beginBlock_delay (s : State) : (beginBlock s).delay = s.delay := rfl
@[simp] theorem beginBlock_draws (s : State) : (beginBlock s).draws = s.draws := rfl

/-! ### the end of a block (R96) -/

@[simp] theorem closeBlock_caps (s : State) : (closeBlock s).caps = s.caps := rfl
@[simp] theorem closeBlock_status (s : State) : (closeBlock s).status = s.status := rfl
@[simp] theorem closeBlock_ier (s : State) : (closeBlock s).ier = s.ier := rfl
@[simp] theorem closeBlock_config (s : State) : (closeBlock s).config = s.config := rfl
@[simp] theorem closeBlock_qlevel (s : State) : (closeBlock s).qlevel = s.qlevel := rfl
@[simp] theorem closeBlock_width (s : State) : (closeBlock s).width = s.width := rfl
@[simp] theorem closeBlock_height (s : State) : (closeBlock s).height = s.height := rfl
@[simp] theorem closeBlock_nblocks (s : State) : (closeBlock s).nblocks = s.nblocks := rfl
@[simp] theorem closeBlock_pk (s : State) : (closeBlock s).pk = { s.pk with blkidx := s.pk.blkidx + 1#32, bitpos := padToByte s.pk.bitpos, blkbits := 0#32 } := rfl
@[simp] theorem closeBlock_op0 (s : State) : (closeBlock s).op0 = s.op0 := rfl
@[simp] theorem closeBlock_op1 (s : State) : (closeBlock s).op1 = s.op1 := rfl
@[simp] theorem closeBlock_op2 (s : State) : (closeBlock s).op2 = s.op2 := rfl
@[simp] theorem closeBlock_res0 (s : State) : (closeBlock s).res0 = s.res0 := rfl
@[simp] theorem closeBlock_res1 (s : State) : (closeBlock s).res1 = s.res1 := rfl
@[simp] theorem closeBlock_res2 (s : State) : (closeBlock s).res2 = s.res2 := rfl
@[simp] theorem closeBlock_ft (s : State) : (closeBlock s).ft = s.ft := rfl
@[simp] theorem closeBlock_coder (s : State) : (closeBlock s).coder = s.coder := rfl
@[simp] theorem closeBlock_hist (s : State) : (closeBlock s).hist = s.hist := rfl
@[simp] theorem closeBlock_pending (s : State) : (closeBlock s).pending = s.pending := rfl
@[simp] theorem closeBlock_img (s : State) : (closeBlock s).img = s.img := rfl
@[simp] theorem closeBlock_lenMem (s : State) : (closeBlock s).lenMem = s.lenMem.writeWord (4 * s.pk.blkidx.toNat) s.pk.blkbits := rfl
@[simp] theorem closeBlock_bits (s : State) : (closeBlock s).bits = s.bits := rfl
@[simp] theorem closeBlock_inbox (s : State) : (closeBlock s).inbox = s.inbox := rfl
@[simp] theorem closeBlock_replies (s : State) : (closeBlock s).replies = s.replies := rfl
@[simp] theorem closeBlock_delay (s : State) : (closeBlock s).delay = s.delay := rfl
@[simp] theorem closeBlock_draws (s : State) : (closeBlock s).draws = s.draws := rfl

/-! ### the set-up of COMPRESS (R101) -/

@[simp] theorem compressSetup_caps (s : State) : (compressSetup s).caps = s.caps := rfl
@[simp] theorem compressSetup_status (s : State) : (compressSetup s).status = s.status := rfl
@[simp] theorem compressSetup_ier (s : State) : (compressSetup s).ier = s.ier := rfl
@[simp] theorem compressSetup_config (s : State) : (compressSetup s).config = s.config := rfl
@[simp] theorem compressSetup_qlevel (s : State) : (compressSetup s).qlevel = s.qlevel := rfl
@[simp] theorem compressSetup_width (s : State) : (compressSetup s).width = s.width := rfl
@[simp] theorem compressSetup_height (s : State) : (compressSetup s).height = s.height := rfl
@[simp] theorem compressSetup_nblocks (s : State) : (compressSetup s).nblocks = BitVec.ofNat 32 s.blockCount := rfl
@[simp] theorem compressSetup_pk (s : State) : (compressSetup s).pk = Packer.zero := rfl
@[simp] theorem compressSetup_op0 (s : State) : (compressSetup s).op0 = s.op0 := rfl
@[simp] theorem compressSetup_op1 (s : State) : (compressSetup s).op1 = s.op1 := rfl
@[simp] theorem compressSetup_op2 (s : State) : (compressSetup s).op2 = s.op2 := rfl
@[simp] theorem compressSetup_res0 (s : State) : (compressSetup s).res0 = s.res0 := rfl
@[simp] theorem compressSetup_res1 (s : State) : (compressSetup s).res1 = s.res1 := rfl
@[simp] theorem compressSetup_res2 (s : State) : (compressSetup s).res2 = s.res2 := rfl
@[simp] theorem compressSetup_ft (s : State) : (compressSetup s).ft = s.ft := rfl
@[simp] theorem compressSetup_coder (s : State) : (compressSetup s).coder = s.coder := rfl
@[simp] theorem compressSetup_hist (s : State) : (compressSetup s).hist = s.hist := rfl
@[simp] theorem compressSetup_pending (s : State) : (compressSetup s).pending = s.pending := rfl
@[simp] theorem compressSetup_img (s : State) : (compressSetup s).img = s.img := rfl
@[simp] theorem compressSetup_lenMem (s : State) : (compressSetup s).lenMem = s.lenMem := rfl
@[simp] theorem compressSetup_bits (s : State) : (compressSetup s).bits = s.bits := rfl
@[simp] theorem compressSetup_inbox (s : State) : (compressSetup s).inbox = s.inbox := rfl
@[simp] theorem compressSetup_replies (s : State) : (compressSetup s).replies = s.replies := rfl
@[simp] theorem compressSetup_delay (s : State) : (compressSetup s).delay = s.delay := rfl
@[simp] theorem compressSetup_draws (s : State) : (compressSetup s).draws = s.draws := rfl

/-! ### one transaction leaves the inbox -/

@[simp] theorem takeTurn_caps (rest : List Transaction) (s : State) : (takeTurn rest s).caps = s.caps := rfl
@[simp] theorem takeTurn_status (rest : List Transaction) (s : State) : (takeTurn rest s).status = s.status := rfl
@[simp] theorem takeTurn_ier (rest : List Transaction) (s : State) : (takeTurn rest s).ier = s.ier := rfl
@[simp] theorem takeTurn_config (rest : List Transaction) (s : State) : (takeTurn rest s).config = s.config := rfl
@[simp] theorem takeTurn_qlevel (rest : List Transaction) (s : State) : (takeTurn rest s).qlevel = s.qlevel := rfl
@[simp] theorem takeTurn_width (rest : List Transaction) (s : State) : (takeTurn rest s).width = s.width := rfl
@[simp] theorem takeTurn_height (rest : List Transaction) (s : State) : (takeTurn rest s).height = s.height := rfl
@[simp] theorem takeTurn_nblocks (rest : List Transaction) (s : State) : (takeTurn rest s).nblocks = s.nblocks := rfl
@[simp] theorem takeTurn_pk (rest : List Transaction) (s : State) : (takeTurn rest s).pk = s.pk := rfl
@[simp] theorem takeTurn_op0 (rest : List Transaction) (s : State) : (takeTurn rest s).op0 = s.op0 := rfl
@[simp] theorem takeTurn_op1 (rest : List Transaction) (s : State) : (takeTurn rest s).op1 = s.op1 := rfl
@[simp] theorem takeTurn_op2 (rest : List Transaction) (s : State) : (takeTurn rest s).op2 = s.op2 := rfl
@[simp] theorem takeTurn_res0 (rest : List Transaction) (s : State) : (takeTurn rest s).res0 = s.res0 := rfl
@[simp] theorem takeTurn_res1 (rest : List Transaction) (s : State) : (takeTurn rest s).res1 = s.res1 := rfl
@[simp] theorem takeTurn_res2 (rest : List Transaction) (s : State) : (takeTurn rest s).res2 = s.res2 := rfl
@[simp] theorem takeTurn_ft (rest : List Transaction) (s : State) : (takeTurn rest s).ft = s.ft := rfl
@[simp] theorem takeTurn_coder (rest : List Transaction) (s : State) : (takeTurn rest s).coder = s.coder := rfl
@[simp] theorem takeTurn_hist (rest : List Transaction) (s : State) : (takeTurn rest s).hist = s.hist := rfl
@[simp] theorem takeTurn_pending (rest : List Transaction) (s : State) : (takeTurn rest s).pending = s.pending := rfl
@[simp] theorem takeTurn_img (rest : List Transaction) (s : State) : (takeTurn rest s).img = s.img := rfl
@[simp] theorem takeTurn_lenMem (rest : List Transaction) (s : State) : (takeTurn rest s).lenMem = s.lenMem := rfl
@[simp] theorem takeTurn_bits (rest : List Transaction) (s : State) : (takeTurn rest s).bits = s.bits := rfl
@[simp] theorem takeTurn_inbox (rest : List Transaction) (s : State) : (takeTurn rest s).inbox = rest := rfl
@[simp] theorem takeTurn_replies (rest : List Transaction) (s : State) : (takeTurn rest s).replies = s.replies := rfl
@[simp] theorem takeTurn_delay (rest : List Transaction) (s : State) : (takeTurn rest s).delay = s.delay - 1 := rfl
@[simp] theorem takeTurn_draws (rest : List Transaction) (s : State) : (takeTurn rest s).draws = s.draws := rfl

/-! ### an accepted command word -/

@[simp] theorem State.withFetchWord_caps (n w : Nat) (s : State) : (s.withFetchWord n w).caps = s.caps := rfl
@[simp] theorem State.withFetchWord_status (n w : Nat) (s : State) : (s.withFetchWord n w).status = { s.status with busy := true } := rfl
@[simp] theorem State.withFetchWord_ier (n w : Nat) (s : State) : (s.withFetchWord n w).ier = s.ier := rfl
@[simp] theorem State.withFetchWord_config (n w : Nat) (s : State) : (s.withFetchWord n w).config = s.config := rfl
@[simp] theorem State.withFetchWord_qlevel (n w : Nat) (s : State) : (s.withFetchWord n w).qlevel = s.qlevel := rfl
@[simp] theorem State.withFetchWord_width (n w : Nat) (s : State) : (s.withFetchWord n w).width = s.width := rfl
@[simp] theorem State.withFetchWord_height (n w : Nat) (s : State) : (s.withFetchWord n w).height = s.height := rfl
@[simp] theorem State.withFetchWord_nblocks (n w : Nat) (s : State) : (s.withFetchWord n w).nblocks = s.nblocks := rfl
@[simp] theorem State.withFetchWord_pk (n w : Nat) (s : State) : (s.withFetchWord n w).pk = s.pk := rfl
@[simp] theorem State.withFetchWord_op0 (n w : Nat) (s : State) : (s.withFetchWord n w).op0 = s.op0 := rfl
@[simp] theorem State.withFetchWord_op1 (n w : Nat) (s : State) : (s.withFetchWord n w).op1 = s.op1 := rfl
@[simp] theorem State.withFetchWord_op2 (n w : Nat) (s : State) : (s.withFetchWord n w).op2 = s.op2 := rfl
@[simp] theorem State.withFetchWord_res0 (n w : Nat) (s : State) : (s.withFetchWord n w).res0 = s.res0 := rfl
@[simp] theorem State.withFetchWord_res1 (n w : Nat) (s : State) : (s.withFetchWord n w).res1 = s.res1 := rfl
@[simp] theorem State.withFetchWord_res2 (n w : Nat) (s : State) : (s.withFetchWord n w).res2 = s.res2 := rfl
@[simp] theorem State.withFetchWord_ft (n w : Nat) (s : State) : (s.withFetchWord n w).ft = s.ft := rfl
@[simp] theorem State.withFetchWord_coder (n w : Nat) (s : State) : (s.withFetchWord n w).coder = s.coder := rfl
@[simp] theorem State.withFetchWord_hist (n w : Nat) (s : State) : (s.withFetchWord n w).hist = s.hist := rfl
@[simp] theorem State.withFetchWord_pending (n w : Nat) (s : State) : (s.withFetchWord n w).pending = some (BitVec.ofNat 32 (w % 2 ^ n)) := rfl
@[simp] theorem State.withFetchWord_img (n w : Nat) (s : State) : (s.withFetchWord n w).img = s.img := rfl
@[simp] theorem State.withFetchWord_lenMem (n w : Nat) (s : State) : (s.withFetchWord n w).lenMem = s.lenMem := rfl
@[simp] theorem State.withFetchWord_bits (n w : Nat) (s : State) : (s.withFetchWord n w).bits = s.bits := rfl
@[simp] theorem State.withFetchWord_inbox (n w : Nat) (s : State) : (s.withFetchWord n w).inbox = s.inbox := rfl
@[simp] theorem State.withFetchWord_replies (n w : Nat) (s : State) : (s.withFetchWord n w).replies = s.replies := rfl
@[simp] theorem State.withFetchWord_delay (n w : Nat) (s : State) : (s.withFetchWord n w).delay = 0 := rfl
@[simp] theorem State.withFetchWord_draws (n w : Nat) (s : State) : (s.withFetchWord n w).draws = s.draws := rfl

/-! ### STATUS -/

@[simp] theorem Status.finish_busy (st : Status) : st.finish.busy = false := rfl
@[simp] theorem Status.finish_done (st : Status) : st.finish.done = true := rfl
@[simp] theorem Status.finish_err (st : Status) : st.finish.err = st.err := rfl
@[simp] theorem Status.finish_valid (st : Status) : st.finish.valid = st.valid := rfl
@[simp] theorem Status.finish_code (st : Status) : st.finish.code = st.code := rfl
@[simp] theorem Status.record_busy (e : ErrCode) (st : Status) : (st.record e).busy = st.busy := rfl
@[simp] theorem Status.record_done (e : ErrCode) (st : Status) : (st.record e).done = st.done := rfl
@[simp] theorem Status.record_err (e : ErrCode) (st : Status) : (st.record e).err = true := rfl
@[simp] theorem Status.record_valid (e : ErrCode) (st : Status) : (st.record e).valid = st.valid := rfl
@[simp] theorem Status.record_code (e : ErrCode) (st : Status) :
    (st.record e).code = if st.err then st.code else e := rfl
@[simp] theorem Status.writeOneToClear_busy (v : Word) (st : Status) : (st.writeOneToClear v).busy = st.busy := rfl
@[simp] theorem Status.writeOneToClear_valid (v : Word) (st : Status) : (st.writeOneToClear v).valid = st.valid := rfl
@[simp] theorem Status.writeOneToClear_done (v : Word) (st : Status) :
    (st.writeOneToClear v).done = (st.done && !v.getLsbD 1) := rfl
@[simp] theorem Status.writeOneToClear_err (v : Word) (st : Status) :
    (st.writeOneToClear v).err = (st.err && !v.getLsbD 2) := rfl
@[simp] theorem Status.writeOneToClear_code (v : Word) (st : Status) :
    (st.writeOneToClear v).code = if v.getLsbD 2 then .none else st.code := rfl

/-! ### Runs -/

@[simp] theorem Run.andThen_ok (s : State) (f : State → Run) : (Run.ok s).andThen f = f s := rfl
@[simp] theorem Run.andThen_raised (e : ErrCode) (s : State) (f : State → Run) :
    (Run.raised e s).andThen f = .raised e s := rfl
@[simp] theorem forEach_nil {α : Type} (f : α → State → Run) (s : State) : forEach f [] s = .ok s := rfl
@[simp] theorem forEach_cons {α : Type} (f : α → State → Run) (a : α) (l : List α) (s : State) :
    forEach f (a :: l) s = (f a s).andThen (forEach f l) := rfl

/-- The claims' run is the host's run of the same machine (`Sys2Proof.core` is this record). -/
theorem Laws.run_eq_core_run (n : Nat) (s : State) :
    runSteps n s = Host.Core.run ⟨State, Fault, Refusal, step, State.reset⟩ n s := by
  induction n generalizing s with
  | zero => rfl
  | succ n ih =>
    rw [runSteps, Host.Core.run]
    dsimp only
    cases step s with
    | next t => exact ih t
    | fault r => rfl
    | refused r => rfl

end Sys2Proof.Machine
end

