-- ==== Sys2Proof/Laws/Maps.lean ====
section
/-! SUPPORT. The laws of the finite maps, the memories and the frequency table: read after write, and that every operation keeps
the canonical form. -/

namespace Sys2Proof.Machine

open Sys2Proof

section Assoc

variable {α β : Type} (rank : α → Nat)

theorem assocFind_put_same (k : α) (v : β) (l : List (α × β)) :
    assocFind rank (rank k) (assocPut rank k v l) = some v := by
  induction l with
  | nil => simp [assocPut, assocFind]
  | cons e l ih =>
    unfold assocPut
    split
    · simp [assocFind]
    · split
      · simp [assocFind]
      · rename_i h1 h2
        simp only [assocFind]
        rw [if_neg (fun h => h2 h.symm)]
        exact ih

theorem assocFind_put_other (k : α) (v : β) (n : Nat) (l : List (α × β)) (h : n ≠ rank k) :
    assocFind rank n (assocPut rank k v l) = assocFind rank n l := by
  induction l with
  | nil => simp [assocPut, assocFind, Ne.symm h]
  | cons e l ih =>
    unfold assocPut
    split
    · simp [assocFind, Ne.symm h]
    · split
      · rename_i h1 h2
        simp [assocFind, Ne.symm h, ← h2]
      · simp only [assocFind, ih]

/-- Every entry after a put is the new one or an old one of another rank. -/
theorem mem_assocPut {k : α} {v : β} {l : List (α × β)} {e : α × β} (h : e ∈ assocPut rank k v l) :
    e = (k, v) ∨ e ∈ l := by
  induction l with
  | nil => simpa [assocPut] using h
  | cons a l ih =>
    unfold assocPut at h
    split at h
    · simpa using h
    · split at h
      · rcases List.mem_cons.mp h with h | h
        · exact .inl h
        · exact .inr (List.mem_cons_of_mem _ h)
      · rcases List.mem_cons.mp h with h | h
        · exact .inr (by simp [h])
        · exact (ih h).imp id (List.mem_cons_of_mem _)

theorem assocRising_put {k : α} {v : β} {l : List (α × β)} (h : assocRising rank l) :
    assocRising rank (assocPut rank k v l) := by
  induction l with
  | nil => simp [assocPut, assocRising]
  | cons a l ih =>
    simp only [assocRising, List.map_cons, List.pairwise_cons, List.mem_map, forall_exists_index, and_imp,
      forall_apply_eq_imp_iff₂] at h ih ⊢
    unfold assocPut
    split
    · rename_i hk
      simp only [List.map_cons, List.pairwise_cons, List.mem_cons, List.mem_map]
      refine ⟨?_, ?_, h.2⟩
      · rintro n (rfl | ⟨e, he, rfl⟩)
        · exact hk
        · exact hk.trans (h.1 e he)
      · rintro n ⟨e, he, rfl⟩
        exact h.1 e he
    · split
      · rename_i _ hk
        simp only [List.map_cons, List.pairwise_cons, List.mem_map]
        refine ⟨?_, h.2⟩
        rintro n ⟨e, he, rfl⟩
        rw [hk]
        exact h.1 e he
      · rename_i h1 h2
        simp only [List.map_cons, List.pairwise_cons, List.mem_map]
        refine ⟨?_, ih h.2⟩
        rintro n ⟨e, he, rfl⟩
        rcases mem_assocPut rank he with rfl | he
        · simp only; omega
        · exact h.1 e he

theorem assocFind_mem {n : Nat} {v : β} {l : List (α × β)} (h : assocFind rank n l = some v) :
    ∃ k, (k, v) ∈ l ∧ rank k = n := by
  induction l with
  | nil => simp [assocFind] at h
  | cons e l ih =>
    simp only [assocFind] at h
    split at h
    · rename_i he
      exact ⟨e.1, by simp [← Option.some.inj h], he⟩
    · obtain ⟨k, hk, hr⟩ := ih h
      exact ⟨k, List.mem_cons_of_mem _ hk, hr⟩

/-- A key with no entry: a put adds one. -/
theorem length_assocPut_absent {k : α} {v : β} {l : List (α × β)} (h : assocFind rank (rank k) l = none) :
    (assocPut rank k v l).length = l.length + 1 := by
  induction l with
  | nil => simp [assocPut]
  | cons e l ih =>
    simp only [assocFind] at h
    split at h
    · simp at h
    · rename_i he
      unfold assocPut
      split
      · simp
      · rw [if_neg (fun hh => he hh.symm)]
        simp [ih h]

theorem assocFind_none_of_lt {n : Nat} {l : List (α × β)} (h : ∀ e ∈ l, n < rank e.1) : assocFind rank n l = none := by
  induction l with
  | nil => rfl
  | cons e l ih =>
    have h1 := h e (by simp)
    simp only [assocFind]
    rw [if_neg (by omega)]
    exact ih fun e he => h e (List.mem_cons_of_mem _ he)

theorem length_assocPut_present {k : α} {v w : β} {l : List (α × β)} (hr : assocRising rank l)
    (h : assocFind rank (rank k) l = some w) : (assocPut rank k v l).length = l.length := by
  induction l with
  | nil => simp [assocFind] at h
  | cons e l ih =>
    simp only [assocRising, List.map_cons, List.pairwise_cons, List.mem_map, forall_exists_index, and_imp,
      forall_apply_eq_imp_iff₂] at hr ih
    simp only [assocFind] at h
    unfold assocPut
    split at h
    · rename_i he
      rw [if_neg (by omega), if_pos he.symm]
      simp
    · rename_i he
      split
      · rename_i hlt
        rw [assocFind_none_of_lt rank fun a ha => hlt.trans (hr.1 a ha)] at h
        simp at h
      · rw [if_neg (fun hh => he hh.symm)]
        simp [ih hr.2 h]

/-- What a put does to a sum over the entries: the new entry's part comes in, the old one's goes. -/
theorem sum_assocPut {k : α} {v : β} {l : List (α × β)} (f : β → Nat) (hr : assocRising rank l) :
    ((assocPut rank k v l).map fun e => f e.2).sum + ((assocFind rank (rank k) l).map f).getD 0 =
      (l.map fun e => f e.2).sum + f v := by
  induction l with
  | nil => simp [assocPut, assocFind]
  | cons e l ih =>
    simp only [assocRising, List.map_cons, List.pairwise_cons, List.mem_map, forall_exists_index, and_imp,
      forall_apply_eq_imp_iff₂] at hr ih
    unfold assocPut
    split
    · rename_i hlt
      have : assocFind rank (rank k) (e :: l) = none := by
        refine assocFind_none_of_lt rank ?_
        rintro a ha
        rcases List.mem_cons.mp ha with rfl | ha
        · exact hlt
        · exact hlt.trans (hr.1 a ha)
      rw [this]
      simp only [List.map_cons, List.sum_cons, Option.map_none, Option.getD_none]
      omega
    · split
      · rename_i _ he
        simp only [assocFind, he, if_pos, List.map_cons, List.sum_cons, Option.map_some, Option.getD_some]
        omega
      · rename_i _ he
        have hih := ih hr.2
        simp only [assocFind, if_neg (fun hh => he (Eq.symm hh)), List.map_cons, List.sum_cons]
        omega

end Assoc

/-! ### Memories -/

theorem Memory.read_write_same (sp : Config.Space) (m : Memory) (a : Nat) (b : Byte) : (m.write a b).read sp a = b := by
  simp only [Memory.read, Memory.write]
  rw [show assocFind id a (assocPut id a b m.cells) = some b from assocFind_put_same id a b m.cells]

theorem Memory.read_write_other (sp : Config.Space) (m : Memory) (a c : Nat) (b : Byte) (h : c ≠ a) :
    (m.write a b).read sp c = m.read sp c := by
  simp only [Memory.read, Memory.write, assocFind_put_other id a b c m.cells h]

theorem Memory.wf_unwritten (n : Nat) : (Memory.unwritten n).wf := List.Pairwise.nil

theorem Memory.wf_write {m : Memory} (a : Nat) (b : Byte) (h : m.wf) : (m.write a b).wf := assocRising_put id h

theorem Memory.wf_writeWord {m : Memory} (a : Nat) (v : Word) (h : m.wf) : (m.writeWord a v).wf :=
  wf_write _ _ (wf_write _ _ (wf_write _ _ (wf_write _ _ h)))

theorem Memory.within_unwritten (n size : Nat) : (Memory.unwritten n).within size :=
  ⟨wf_unwritten n, by simp [Memory.unwritten]⟩

theorem Memory.within_write {m : Memory} {size : Nat} (a : Nat) (b : Byte) (ha : a < size) (h : m.within size) :
    (m.write a b).within size :=
  ⟨wf_write a b h.1, fun e he => (mem_assocPut id he).elim (fun h' => by rw [h']; exact ha) (h.2 e)⟩

theorem Memory.within_writeWord {m : Memory} {size : Nat} (a : Nat) (v : Word) (ha : a + 3 < size) (h : m.within size) :
    (m.writeWord a v).within size :=
  within_write _ _ (by omega) (within_write _ _ (by omega) (within_write _ _ (by omega) (within_write _ _ (by omega) h)))

/-- A word written is the word read (R46). -/
theorem Memory.readWord_writeWord (sp : Config.Space) (m : Memory) (a : Nat) (v : Word) :
    (m.writeWord a v).readWord sp a = v := by
  simp only [Memory.readWord, Memory.writeWord]
  simp only [Memory.read_write_same, Memory.read_write_other sp _ _ _ _ (show a + 2 ≠ a + 3 by omega),
    Memory.read_write_other sp _ _ _ _ (show a + 1 ≠ a + 3 by omega),
    Memory.read_write_other sp _ _ _ _ (show a ≠ a + 3 by omega),
    Memory.read_write_other sp _ _ _ _ (show a + 1 ≠ a + 2 by omega),
    Memory.read_write_other sp _ _ _ _ (show a ≠ a + 2 by omega),
    Memory.read_write_other sp _ _ _ _ (show a ≠ a + 1 by omega)]
  ext i hi
  simp only [BitVec.getElem_append, BitVec.getElem_extractLsb']
  split
  · simp [BitVec.getLsbD_eq_getElem hi]
  · split
    · simp only [show 8 + (i - 8) = i by omega, BitVec.getLsbD_eq_getElem hi]
    · split
      · simp only [show 16 + (i - 8 - 8) = i by omega, BitVec.getLsbD_eq_getElem hi]
      · simp only [show 24 + (i - 8 - 8 - 8) = i by omega, BitVec.getLsbD_eq_getElem hi]

/-- A word written leaves every byte outside its four alone. -/
theorem Memory.read_writeWord_other (sp : Config.Space) (m : Memory) (a c : Nat) (v : Word) (h : c < a ∨ a + 3 < c) :
    (m.writeWord a v).read sp c = m.read sp c := by
  simp only [Memory.writeWord]
  rw [Memory.read_write_other _ _ _ _ _ (by omega), Memory.read_write_other _ _ _ _ _ (by omega),
    Memory.read_write_other _ _ _ _ _ (by omega), Memory.read_write_other _ _ _ _ _ (by omega)]

/-- A word is its four bytes, the lowest address the least significant (R46). -/
theorem Memory.toNat_readWord (sp : Config.Space) (m : Memory) (a : Nat) :
    (m.readWord sp a).toNat = (m.read sp a).toNat + 256 * (m.read sp (a + 1)).toNat + 65536 * (m.read sp (a + 2)).toNat +
      16777216 * (m.read sp (a + 3)).toNat := by
  have h0 := (m.read sp a).isLt
  have h1 := (m.read sp (a + 1)).isLt
  have h2 := (m.read sp (a + 2)).isLt
  simp only [Memory.readWord, BitVec.toNat_append]
  rw [← Nat.shiftLeft_add_eq_or_of_lt (by omega), ← Nat.shiftLeft_add_eq_or_of_lt (by omega),
    ← Nat.shiftLeft_add_eq_or_of_lt (by omega)]
  simp only [Nat.shiftLeft_eq]
  omega

/-- Writing one LEN entry leaves the others alone (R48, R96). -/
theorem Memory.readWord_writeWord_other (sp : Config.Space) (m : Memory) (i j : Nat) (v : Word) (h : j ≠ i) :
    (m.writeWord (4 * i) v).readWord sp (4 * j) = m.readWord sp (4 * j) := by
  simp only [Memory.readWord]
  rw [Memory.read_writeWord_other _ _ _ _ _ (by omega), Memory.read_writeWord_other _ _ _ _ _ (by omega),
    Memory.read_writeWord_other _ _ _ _ _ (by omega), Memory.read_writeWord_other _ _ _ _ _ (by omega)]

end Sys2Proof.Machine
end

