-- ==== Sys2Proof/Laws/Table.lean ====
section
/-! SUPPORT. The laws of the frequency table (R38, R79): distinct keys have distinct ranks, what an increment does, that it keeps
the table's form, and that a count never exceeds the total. -/

namespace Sys2Proof.Machine

open Sys2Proof

theorem rank_fold_pos (l : List Sym) (n : Nat) (h : 0 < n) :
    0 < l.foldl (fun n c => 16777216 * n + c.toNat) n := by
  induction l generalizing n with
  | nil => exact h
  | cons c l ih => exact ih _ (Nat.add_pos_left (Nat.mul_pos (by decide) h) _)

theorem rank_fold_inj (l₁ l₂ : List Sym)
    (h : l₁.foldl (fun n c => 16777216 * n + c.toNat) 1 = l₂.foldl (fun n c => 16777216 * n + c.toNat) 1) :
    l₁ = l₂ := by
  induction l₁ using List.reverseRecOn generalizing l₂ with
  | nil =>
    rcases List.eq_nil_or_concat l₂ with rfl | ⟨l, c, rfl⟩
    · rfl
    · simp only [List.foldl_nil, List.concat_eq_append, List.foldl_append, List.foldl_cons] at h
      have := rank_fold_pos l 1 (by omega)
      omega
  | append_singleton l c ih =>
    rcases List.eq_nil_or_concat l₂ with rfl | ⟨m, d, rfl⟩
    · simp only [List.foldl_nil, List.foldl_append, List.foldl_cons] at h
      have := rank_fold_pos l 1 (by omega)
      omega
    · simp only [List.concat_eq_append, List.foldl_append, List.foldl_cons, List.foldl_nil] at h ⊢
      have hc := c.isLt
      have hd := d.isLt
      rw [ih m (by omega), BitVec.eq_of_toNat_eq (x := c) (y := d) (by omega)]

/-- Distinct keys have distinct ranks: the order loses nothing (R38). -/
theorem Key.rank_inj {k₁ k₂ : Key} (h : k₁.rank = k₂.rank) : k₁ = k₂ := by
  simp only [Key.rank] at h
  have h1 := k₁.value.isLt
  have h2 := k₂.value.isLt
  have hc := rank_fold_inj k₁.ctx k₂.ctx (by omega)
  have hv : k₁.value = k₂.value := BitVec.eq_of_toNat_eq (by omega)
  cases k₁; cases k₂; simp_all

theorem FreqTable.count_le_sum (ft : FreqTable) (k : Key) : (ft.count k).toNat ≤ ft.sum := by
  unfold FreqTable.count
  split
  · rename_i n h
    obtain ⟨k', hm, -⟩ := assocFind_mem Key.rank h
    exact List.le_sum_of_mem (List.mem_map.mpr ⟨(k', n), hm, rfl⟩)
  · simp

/-- Every count is part of the total (R78). -/
theorem FreqTable.count_le_total {ft : FreqTable} (h : ft.wf) (k : Key) : (ft.count k).toNat ≤ ft.total.toNat :=
  h.2.2.1 ▸ ft.count_le_sum k

theorem FreqTable.wf_empty : FreqTable.empty.wf := by
  refine ⟨List.Pairwise.nil, ?_, rfl, rfl⟩
  simp [FreqTable.empty]

/-- What `FT.inc(k)` can do (R79). -/
theorem ftIncrement_cases (k : Key) (s : State) :
    (s.ft.total = 0xFFFFFFFF#32 ∧ ftIncrement k s = .raised .countOverflow s) ∨
    (s.ft.total ≠ 0xFFFFFFFF#32 ∧ s.ft.present k = true ∧ ftIncrement k s = .ok { s with
      ft := { entries := s.ft.setCount k (s.ft.count k + 1#32), total := s.ft.total + 1#32, used := s.ft.used } }) ∨
    (s.ft.total ≠ 0xFFFFFFFF#32 ∧ s.ft.present k = false ∧ s.ft.used.toNat = s.caps.ftEntries ∧
      ftIncrement k s = .raised .ftFull s) ∨
    (s.ft.total ≠ 0xFFFFFFFF#32 ∧ s.ft.present k = false ∧ s.ft.used.toNat ≠ s.caps.ftEntries ∧
      ftIncrement k s = .ok { s with
        ft := { entries := s.ft.setCount k 1#32, total := s.ft.total + 1#32, used := s.ft.used + 1#32 } }) := by
  unfold ftIncrement
  split
  · exact .inl ⟨‹_›, rfl⟩
  · split
    · exact .inr (.inl ⟨‹_›, ‹_›, rfl⟩)
    · rename_i hp
      split
      · exact .inr (.inr (.inl ⟨‹_›, by simpa using hp, ‹_›, rfl⟩))
      · exact .inr (.inr (.inr ⟨‹_›, by simpa using hp, ‹_›, rfl⟩))

/-- The count that a table with one count set gives each key. -/
theorem FreqTable.count_setCount (ft : FreqTable) (k k' : Key) (n t u : Word) :
    FreqTable.count { entries := ft.setCount k n, total := t, used := u } k' = if k' = k then n else ft.count k' := by
  unfold FreqTable.count FreqTable.setCount
  by_cases hk : k' = k
  · subst hk
    simp only [assocFind_put_same, if_pos]
  · simp only [assocFind_put_other _ _ _ _ _ fun h => hk (Key.rank_inj h), if_neg hk]

theorem Word.toNat_add_one {w : Word} (h : w ≠ 0xFFFFFFFF#32) : (w + 1#32).toNat = w.toNat + 1 := by
  have : w.toNat ≠ 0xFFFFFFFF := fun h' => h (BitVec.eq_of_toNat_eq h')
  have := w.isLt
  rw [BitVec.toNat_add]
  simp only [BitVec.toNat_ofNat, Nat.reducePow, Nat.reduceMod]
  omega

/-- An increment keeps the table's form, and FT_USED within the capacity (R38). -/
theorem ftIncrement_wf {k : Key} {s t : State} (hk : k.ctx.length ≤ 4) (h : s.ft.wf) (hc : s.ft.used.toNat ≤ s.caps.ftEntries)
    (hl : s.caps.ftEntries ≤ 4294967295) (ht : ftIncrement k s = .ok t) :
    t.ft.wf ∧ t.ft.used.toNat ≤ s.caps.ftEntries := by
  have hle := FreqTable.count_le_total h k
  obtain ⟨hr, he, hs, hu⟩ := h
  have hsum := fun v => sum_assocPut Key.rank (k := k) (v := v) (fun w : Word => w.toNat) hr
  rcases ftIncrement_cases k s with ⟨-, h1⟩ | ⟨h0, hp, h1⟩ | ⟨-, -, -, h1⟩ | ⟨h0, hp, hne, h1⟩
  · simp [h1] at ht
  · rw [h1] at ht
    obtain rfl := (Run.ok.inj ht).symm
    have hone := Word.toNat_add_one h0
    have hmax := s.ft.total.isLt
    obtain ⟨w, hw⟩ := Option.isSome_iff_exists.mp hp
    have hcount : s.ft.count k = w := by simp [FreqTable.count, hw]
    have hcne : s.ft.count k ≠ 0xFFFFFFFF#32 := fun hh => by
      have ht : s.ft.total.toNat ≠ 0xFFFFFFFF := fun h' => h0 (BitVec.eq_of_toNat_eq h')
      rw [hh] at hle
      simp only [BitVec.toNat_ofNat, Nat.reducePow, Nat.reduceMod] at hle
      omega
    have hc1 := Word.toNat_add_one hcne
    refine ⟨⟨assocRising_put _ hr, ?_, ?_, ?_⟩, hc⟩
    · rintro e hm
      rcases mem_assocPut _ hm with rfl | hm
      · refine ⟨hk, fun hz => ?_⟩
        have := congrArg BitVec.toNat hz
        simp only at this
        rw [hc1] at this
        simp at this
      · exact he e hm
    · have := hsum (s.ft.count k + 1#32)
      rw [hw, hc1, hcount] at this
      simp only [Option.map_some, Option.getD_some] at this
      simp only [FreqTable.sum, FreqTable.setCount] at hs ⊢
      rw [hone, hs, hcount]
      omega
    · simp only [FreqTable.setCount]
      rw [length_assocPut_present _ hr hw]
      exact hu
  · simp [h1] at ht
  · rw [h1] at ht
    obtain rfl := (Run.ok.inj ht).symm
    have hone := Word.toNat_add_one h0
    have hnone : assocFind Key.rank k.rank s.ft.entries = none := by
      simpa [FreqTable.present, Option.isSome_iff_ne_none] using hp
    have hune : s.ft.used ≠ 0xFFFFFFFF#32 := fun hh => by rw [hh] at hc hne; simp at hc hne; omega
    have hu1 := Word.toNat_add_one hune
    refine ⟨⟨assocRising_put _ hr, ?_, ?_, ?_⟩, by simp only; omega⟩
    · rintro e hm
      rcases mem_assocPut _ hm with rfl | hm
      · exact ⟨hk, by simp⟩
      · exact he e hm
    · have := hsum 1#32
      rw [hnone] at this
      simp only [Option.map_none, Option.getD_none] at this
      simp only [FreqTable.sum, FreqTable.setCount] at hs ⊢
      rw [hone, hs]
      simpa using this.symm
    · simp only [FreqTable.setCount]
      rw [length_assocPut_absent _ hnone, hu1, hu]

end Sys2Proof.Machine
end

