-- ==== Sys2Proof/Laws/Runs.lean ====
section
/-! SUPPORT. What the shared operations of the coder can do, each said once: runs, `Emit`, narrowing, renormalization and coding
a symbol; and what each leaves alone. -/

namespace Sys2Proof.Machine

open Sys2Proof

/-! ### Runs -/

/-- The state in which a run stands, gone on or raised. -/
def Run.state : Run → State
  | .ok s => s
  | .raised _ s => s

@[simp] theorem Run.state_ok (s : State) : (Run.ok s).state = s := rfl
@[simp] theorem Run.state_raised (e : ErrCode) (s : State) : (Run.raised e s).state = s := rfl

/-- A property that holds where a run stands and that what follows keeps holds at the end: a loop or a sequence keeps an
invariant. -/
theorem andThen_keeps {P : State → Prop} {r : Run} {f : State → Run} (hr : P r.state)
    (hf : ∀ s, r = .ok s → P (f s).state) : P (r.andThen f).state := by
  cases r with
  | ok s => exact hf s rfl
  | raised e s => exact hr

theorem forEach_keeps {α : Type} {P : State → Prop} {f : α → State → Run} (l : List α)
    (hf : ∀ a ∈ l, ∀ s, P s → P (f a s).state) (s : State) (hs : P s) : P (forEach f l s).state := by
  induction l generalizing s with
  | nil => exact hs
  | cons a l ih =>
    refine andThen_keeps (hf a (by simp) s hs) fun t ht => ih (fun b hb => hf b (List.mem_cons_of_mem _ hb)) t ?_
    have := hf a (by simp) s hs
    rwa [ht] at this

/-- A sequence goes on only where both parts do. -/
theorem andThen_ok_iff {r : Run} {f : State → Run} {t : State} :
    r.andThen f = .ok t ↔ ∃ s, r = .ok s ∧ f s = .ok t := by
  cases r <;> simp

/-- What an error code a sequence raises comes from. -/
theorem andThen_raised_iff {r : Run} {f : State → Run} {e : ErrCode} {t : State} :
    r.andThen f = .raised e t ↔ r = .raised e t ∨ ∃ s, r = .ok s ∧ f s = .raised e t := by
  cases r <;> simp

/-- The state after a command, by how its rule came out (R109, R111). -/
theorem complete_eq (r : Run) : complete r = { r.state with status := (complete r).status } := by
  cases r <;> rfl

/-! ### What coding leaves alone -/

/-- `t` differs from `s` at most in the coder, the history, BITPOS, BLKBITS, TOTALBITS, BITS and the table: what coding a symbol
may write (30_encoding.md R58, AC_ENCODE). -/
def codesFrom (s t : State) : Prop :=
  t = { s with
    coder := t.coder, hist := t.hist, pk := { t.pk with blkidx := s.pk.blkidx }, bits := t.bits, ft := t.ft }

theorem codesFrom.refl (s : State) : codesFrom s s := rfl

theorem codesFrom.trans {s t u : State} (h₁ : codesFrom s t) (h₂ : codesFrom t u) : codesFrom s u := by
  unfold codesFrom at *
  rw [h₂, h₁]

theorem codesFrom.blkidx {s t : State} (h : codesFrom s t) : t.pk.blkidx = s.pk.blkidx := by rw [h]
theorem codesFrom.caps {s t : State} (h : codesFrom s t) : t.caps = s.caps := by rw [h]
theorem codesFrom.status {s t : State} (h : codesFrom s t) : t.status = s.status := by rw [h]
theorem codesFrom.config {s t : State} (h : codesFrom s t) : t.config = s.config := by rw [h]
theorem codesFrom.qlevel {s t : State} (h : codesFrom s t) : t.qlevel = s.qlevel := by rw [h]
theorem codesFrom.width {s t : State} (h : codesFrom s t) : t.width = s.width := by rw [h]
theorem codesFrom.height {s t : State} (h : codesFrom s t) : t.height = s.height := by rw [h]
theorem codesFrom.img {s t : State} (h : codesFrom s t) : t.img = s.img := by rw [h]
theorem codesFrom.lenMem {s t : State} (h : codesFrom s t) : t.lenMem = s.lenMem := by rw [h]

/-- What `Emit(b)` can do (R89). -/
theorem emit_cases (b : Bool) (s : State) :
    (8 * s.caps.bitsBytes ≤ s.pk.bitpos.toNat ∧ emit b s = .raised .outOverflow s) ∨
    (s.pk.bitpos.toNat < 8 * s.caps.bitsBytes ∧ emit b s = .ok { s with
      bits := s.bits.write (s.pk.bitpos.toNat / 8)
        (emitByte b s.pk.bitpos.toNat (s.bits.read .bits (s.pk.bitpos.toNat / 8)))
      pk := s.pk.advance }) := by
  unfold emit
  split
  · exact .inl ⟨‹_›, rfl⟩
  · exact .inr ⟨by omega, rfl⟩

theorem emit_codesFrom (b : Bool) (s : State) : codesFrom s (emit b s).state := by
  rcases emit_cases b s with ⟨-, h⟩ | ⟨-, h⟩ <;> rw [h] <;> rfl

theorem narrow_codesFrom (c t : Word) (s : State) : codesFrom s (narrow c t s).state := by
  unfold narrow
  split <;> rfl

theorem renormLoop_codesFrom (n : Nat) (s : State) : codesFrom s (renormLoop n s).state := by
  induction n generalizing s with
  | zero => exact codesFrom.refl s
  | succ n ih =>
    unfold renormLoop
    split
    · refine andThen_keeps (P := codesFrom s) (emit_codesFrom false s) fun t ht => ?_
      have h := emit_codesFrom false s
      rw [ht] at h
      exact h.trans ((show codesFrom t { t with coder := t.coder.doubleLower } from rfl).trans (ih _))
    · split
      · refine andThen_keeps (P := codesFrom s) (emit_codesFrom true s) fun t ht => ?_
        have h := emit_codesFrom true s
        rw [ht] at h
        exact h.trans ((show codesFrom t { t with coder := t.coder.doubleUpper } from rfl).trans (ih _))
      · exact codesFrom.refl s

theorem ftIncrement_codesFrom (k : Key) (s : State) : codesFrom s (ftIncrement k s).state := by
  rcases ftIncrement_cases k s with ⟨-, h⟩ | ⟨-, -, h⟩ | ⟨-, -, -, h⟩ | ⟨-, -, -, h⟩ <;> rw [h] <;> rfl

theorem adaptTable_codesFrom (k : Key) (s : State) : codesFrom s (adaptTable k s).state := by
  unfold adaptTable
  split
  · exact ftIncrement_codesFrom k s
  · exact codesFrom.refl s

/-- Coding a symbol writes the coder, the history, the packer, BITS and the table, and nothing else (R58, R91). -/
theorem encodeSymbol_codesFrom (v : Sym) (s : State) : codesFrom s (encodeSymbol v s).state := by
  unfold encodeSymbol
  refine andThen_keeps (P := codesFrom s) (narrow_codesFrom _ _ s) fun s1 h1 => ?_
  have c1 := narrow_codesFrom (s.prob v).1 (s.prob v).2 s
  rw [h1] at c1
  refine andThen_keeps (P := codesFrom s) (c1.trans (renormLoop_codesFrom _ s1)) fun s2 h2 => ?_
  have c2 := renormLoop_codesFrom (s1.room + 1) s1
  rw [show renormLoop (s1.room + 1) s1 = .ok s2 from h2] at c2
  refine andThen_keeps (P := codesFrom s) ((c1.trans c2).trans (adaptTable_codesFrom _ s2)) fun s3 h3 => ?_
  have c3 := adaptTable_codesFrom (s.keyOf v) s2
  rw [h3] at c3
  exact ((c1.trans c2).trans c3).trans rfl

/-! ### Narrowing and doubling -/

/-- A narrowing with c at most t keeps the interval in range and inside the old one (R86). -/
theorem narrowCoder_inRange {c t : Word} {k k' : Coder} (hc : c.toNat ≤ t.toNat) (hk : k.inRange)
    (h : narrowCoder c t k = some k') :
    k'.inRange ∧ k'.low.toNat = narrowedLow k c.toNat t.toNat ∧ k'.high.toNat = narrowedHigh k c.toNat t.toNat := by
  obtain ⟨hl, hh⟩ := hk
  simp only [coderOne] at hh
  unfold narrowCoder at h
  simp only at h
  split at h
  · simp at h
  rename_i hne
  obtain rfl := Option.some.inj h
  have hup : (k.high.toNat - k.low.toNat) * (c.toNat + 1) / (t.toNat + 1) ≤ k.high.toNat - k.low.toNat := by
    apply Nat.div_le_of_le_mul
    rw [Nat.mul_comm]
    exact Nat.mul_le_mul_right _ (by omega)
  have hlo : (k.high.toNat - k.low.toNat) * c.toNat / (t.toNat + 1) ≤
      (k.high.toNat - k.low.toNat) * (c.toNat + 1) / (t.toNat + 1) :=
    Nat.div_le_div_right (Nat.mul_le_mul_left _ (by omega))
  have hlow : (BitVec.ofNat 32 (k.low.toNat + (k.high.toNat - k.low.toNat) * c.toNat / (t.toNat + 1))).toNat =
      narrowedLow k c.toNat t.toNat := by
    rw [BitVec.toNat_ofNat, narrowedLow, Nat.mod_eq_of_lt]; omega
  have hhigh : (BitVec.ofNat 32 (k.low.toNat + (k.high.toNat - k.low.toNat) * (c.toNat + 1) / (t.toNat + 1))).toNat =
      narrowedHigh k c.toNat t.toNat := by
    rw [BitVec.toNat_ofNat, narrowedHigh, Nat.mod_eq_of_lt]; omega
  refine ⟨⟨?_, ?_⟩, hlow, hhigh⟩
  · rw [hlow, hhigh, narrowedLow, narrowedHigh]; omega
  · rw [hhigh, narrowedHigh, coderOne]; omega

/-- Doubling in the lower half keeps the interval in range (R88). -/
theorem doubleLower_inRange {k : Coder} (hk : k.inRange) (h : k.high.toNat < coderHalf) :
    k.doubleLower.inRange ∧ k.doubleLower.low.toNat = 2 * k.low.toNat ∧ k.doubleLower.high.toNat = 2 * k.high.toNat := by
  obtain ⟨hl, hh⟩ := hk
  simp only [coderOne, coderHalf] at hh h
  have h1 : k.doubleLower.low.toNat = 2 * k.low.toNat := by
    simp only [Coder.doubleLower, BitVec.toNat_ofNat]; omega
  have h2 : k.doubleLower.high.toNat = 2 * k.high.toNat := by
    simp only [Coder.doubleLower, BitVec.toNat_ofNat]; omega
  refine ⟨⟨?_, ?_⟩, h1, h2⟩
  · omega
  · rw [h2, coderOne]; omega

/-- Doubling in the upper half keeps the interval in range (R88). -/
theorem doubleUpper_inRange {k : Coder} (hk : k.inRange) (h : coderHalf ≤ k.low.toNat) :
    k.doubleUpper.inRange ∧ k.doubleUpper.low.toNat = 2 * k.low.toNat - coderOne ∧
      k.doubleUpper.high.toNat = 2 * k.high.toNat - coderOne := by
  obtain ⟨hl, hh⟩ := hk
  simp only [coderOne, coderHalf] at hh h
  have h1 : k.doubleUpper.low.toNat = 2 * k.low.toNat - coderOne := by
    simp only [Coder.doubleUpper, coderOne, BitVec.toNat_sub, BitVec.toNat_ofNat]; omega
  have h2 : k.doubleUpper.high.toNat = 2 * k.high.toNat - coderOne := by
    simp only [Coder.doubleUpper, coderOne, BitVec.toNat_sub, BitVec.toNat_ofNat]; omega
  refine ⟨⟨?_, ?_⟩, h1, h2⟩
  · rw [h1, h2]; simp only [coderOne]; omega
  · rw [h2]; simp only [coderOne]; omega

theorem narrow_cases (c t : Word) (s : State) :
    (narrowCoder c t s.coder = none ∧ narrow c t s = .raised .codingDegeneracy s) ∨
    (∃ k, narrowCoder c t s.coder = some k ∧ narrow c t s = .ok { s with coder := k }) := by
  unfold narrow
  split
  · exact .inl ⟨‹_›, rfl⟩
  · exact .inr ⟨_, ‹_›, rfl⟩

/-! ### Emitted bits -/

/-- Every bit of the byte that `Emit` writes: the new bit at its place, bits before it kept, bits after it as they were or
cleared (R89). -/
theorem emitByte_bit (b : Bool) (n : Nat) (old : Byte) (j : Nat) (hj : j < 8) :
    (emitByte b n old).getLsbD (7 - j) =
      if j = n % 8 then (if n % 8 = 0 then b else old.getLsbD (7 - j) || b) else (n % 8 != 0 && old.getLsbD (7 - j)) := by
  have hn : n % 8 < 8 := Nat.mod_lt _ (by decide)
  unfold emitByte
  generalize n % 8 = m at *
  interval_cases m <;> interval_cases j <;> cases b <;> simp

/-! ### Errors of a loop, and narrowing with its result named -/

/-- What a loop raises, one of its turns raises. -/
theorem forEach_raised {α : Type} {f : α → State → Run} {Q : ErrCode → Prop} (l : List α)
    (hf : ∀ a ∈ l, ∀ s e t, f a s = .raised e t → Q e) (s : State) (e : ErrCode) (t : State)
    (h : forEach f l s = .raised e t) : Q e := by
  induction l generalizing s with
  | nil => cases h
  | cons a l ih =>
    rw [forEach_cons, andThen_raised_iff] at h
    rcases h with h | ⟨u, -, h⟩
    · exact hf a (by simp) s e t h
    · exact ih (fun b hb => hf b (List.mem_cons_of_mem _ hb)) u h

/-- `Narrow(c, t)` where the narrowed interval is not empty (R86). -/
theorem narrow_ok {s : State} {c t : Word} (hc : c.toNat ≤ t.toNat) (hk : s.coder.inRange)
    (hne : narrowedLow s.coder c.toNat t.toNat ≠ narrowedHigh s.coder c.toNat t.toNat) :
    ∃ k, narrow c t s = .ok { s with coder := k } ∧ k.inRange ∧ k.low.toNat = narrowedLow s.coder c.toNat t.toNat ∧
      k.high.toNat = narrowedHigh s.coder c.toNat t.toNat := by
  rcases narrow_cases c t s with ⟨h, -⟩ | ⟨k, hk', h⟩
  · unfold narrowCoder at h
    simp only at h
    split at h
    · rename_i he
      exact absurd he.symm hne
    · cases h
  · exact ⟨k, h, narrowCoder_inRange hc hk hk'⟩

/-- `Narrow(c, t)` where the narrowed interval is empty (R86). -/
theorem narrow_degenerate {s : State} {c t : Word}
    (he : narrowedLow s.coder c.toNat t.toNat = narrowedHigh s.coder c.toNat t.toNat) :
    narrow c t s = .raised .codingDegeneracy s := by
  rcases narrow_cases c t s with ⟨-, h⟩ | ⟨k, hk, -⟩
  · exact h
  · unfold narrowCoder at hk
    simp only at hk
    split at hk
    · cases hk
    · rename_i hne
      exact absurd he.symm hne

/-- What the post-symbol increment can do (R80): nothing in reference mode, `FT.inc` in adaptive mode. -/
theorem adaptTable_cases (k : Key) (s : State) :
    (s.config.adapt = false ∧ adaptTable k s = .ok s) ∨ (s.config.adapt = true ∧ adaptTable k s = ftIncrement k s) := by
  unfold adaptTable
  cases s.config.adapt <;> simp

/-- Coding one block that goes through (R103): its symbols are coded from a fresh start, then the block is closed. -/
theorem codeSequence_ok {seq : List Sym} {s t : State} (h : codeSequence seq s = .ok t) :
    ∃ u, forEach encodeSymbol seq (beginBlock s) = .ok u ∧ t = closeBlock u ∧ codesFrom (beginBlock s) u := by
  unfold codeSequence at h
  rw [andThen_ok_iff] at h
  obtain ⟨u, hu, hut⟩ := h
  cases hut
  refine ⟨u, hu, rfl, ?_⟩
  have := forEach_keeps (P := codesFrom (beginBlock s)) seq
    (fun v _ w hw => hw.trans (encodeSymbol_codesFrom v w)) (beginBlock s) rfl
  rwa [hu] at this

end Sys2Proof.Machine
end

