-- ==== Sys2Proof/Laws/Renorm.lean ====
section
/-! SUPPORT. Renormalization in closed form: what `Emit` does to the stream, how many turns the loop takes, and the state it
leaves, gone through (R87, R88, R89) or cut off by OUT_OVERFLOW. -/

namespace Sys2Proof.Machine

open Sys2Proof

/-! ### The stream -/

/-- What `Emit(b)` does to the stream: the bit at BITPOS is b, the rest of its byte is 0, every other bit is as before
(R49, R89). -/
theorem emit_stream {b : Bool} {s t : State} (hp : s.paddingClear) (h : emit b s = .ok t) (n : Nat) :
    t.streamBit n =
      if n = s.pk.bitpos.toNat then b
      else if s.pk.bitpos.toNat < n ∧ n / 8 = s.pk.bitpos.toNat / 8 then false
      else s.streamBit n := by
  rcases emit_cases b s with ⟨-, h1⟩ | ⟨-, h1⟩
  · simp [h1] at h
  rw [h1] at h
  obtain rfl := (Run.ok.inj h).symm
  simp only [State.streamBit]
  generalize hpos : s.pk.bitpos.toNat = p at *
  by_cases hb : n / 8 = p / 8
  · rw [hb, Memory.read_write_same, emitByte_bit _ _ _ _ (Nat.mod_lt _ (by decide))]
    have hold : p ≤ n → p % 8 ≠ 0 → (s.bits.read .bits (p / 8)).getLsbD (7 - n % 8) = false := by
      intro h1 h2
      have := hp n (by omega) (by rw [hpos]; simp only [ceilDiv]; omega)
      simpa [State.streamBit, hb] using this
    by_cases he : n = p
    · subst he
      simp only [if_true]
      split
      · rfl
      · rename_i h8
        rw [hold (le_refl _) h8, Bool.false_or]
    · rw [if_neg (by omega), if_neg he]
      by_cases hlt : p < n
      · rw [if_pos ⟨hlt, rfl⟩]
        by_cases h8 : p % 8 = 0
        · simp [h8]
        · rw [hold hlt.le h8, Bool.and_false]
      · rw [if_neg (fun hh => hlt hh.1)]
        have h8 : p % 8 ≠ 0 := by omega
        simp [h8]
  · rw [Memory.read_write_other _ _ _ _ _ hb, if_neg (fun hh => hb (by rw [hh])), if_neg (fun hh => hb hh.2)]

/-- The bytes that `Emit` leaves alone (R89). -/
theorem emit_byte_other {b : Bool} {s t : State} (h : emit b s = .ok t) (a : Nat) (ha : a ≠ s.pk.bitpos.toNat / 8) :
    t.bits.read .bits a = s.bits.read .bits a := by
  rcases emit_cases b s with ⟨-, h1⟩ | ⟨-, h1⟩
  · simp [h1] at h
  rw [h1] at h
  obtain rfl := (Run.ok.inj h).symm
  exact Memory.read_write_other _ _ _ _ _ ha

/-- The rest of an emitted bit: it goes on exactly with room left, and moves the counters by one. -/
theorem emit_ok {b : Bool} {s : State} (hr : s.pk.bitpos.toNat < 8 * s.caps.bitsBytes) :
    ∃ t, emit b s = .ok t ∧ t = { s with bits := t.bits, pk := s.pk.advance } := by
  rcases emit_cases b s with ⟨h, -⟩ | ⟨-, h⟩
  · omega
  · exact ⟨_, h, rfl⟩

theorem Packer.advance_bitpos {p : Packer} {n : Nat} (h : p.bitpos.toNat < n) (hn : n < 4294967296) :
    p.advance.bitpos.toNat = p.bitpos.toNat + 1 := by
  simp only [Packer.advance, BitVec.toNat_add, BitVec.toNat_ofNat]
  omega

theorem Packer.after_zero (p : Packer) : p.after 0 = p := by
  cases p; simp [Packer.after]

theorem Packer.after_advance (p : Packer) (n : Nat) : p.advance.after n = p.after (n + 1) := by
  simp only [Packer.after, Packer.advance, BitVec.add_assoc]
  rw [show 1#32 + BitVec.ofNat 32 n = BitVec.ofNat 32 (n + 1) from by
    apply BitVec.eq_of_toNat_eq; simp only [BitVec.toNat_add, BitVec.toNat_ofNat]; omega]

/-- `Emit` keeps the padding clear (R89; U6). -/
theorem emit_padding {b : Bool} {s t : State} (hp : s.paddingClear) (hc : 8 * s.caps.bitsBytes < 4294967296)
    (h : emit b s = .ok t) : t.paddingClear := by
  intro n h1 h2
  have hr : s.pk.bitpos.toNat < 8 * s.caps.bitsBytes := by
    rcases emit_cases b s with ⟨-, h'⟩ | ⟨h', -⟩
    · simp [h'] at h
    · exact h'
  obtain ⟨t', ht', he⟩ := emit_ok (b := b) hr
  obtain rfl : t' = t := Run.ok.inj (ht'.symm.trans h)
  have hpk : t'.pk.bitpos.toNat = s.pk.bitpos.toNat + 1 := by
    rw [he]; exact Packer.advance_bitpos hr hc
  rw [hpk] at h1 h2
  simp only [ceilDiv] at h2
  rw [emit_stream hp h, if_neg (by omega), if_pos (by omega)]

/-! ### The number of turns -/

theorem lowAfter_zero {l : Nat} (h : l < 2147483648) : lowAfter l 0 = l := by
  simp [lowAfter, Nat.mod_eq_of_lt h]

theorem highAfter_zero {l h : Nat} (hl : l < h) (hh : h ≤ 2147483648) : highAfter l h 0 = h := by
  simp only [highAfter, lowAfter_zero (show l < 2147483648 by omega)]; omega

theorem lowAfter_double (l m : Nat) : lowAfter (2 * l) m = lowAfter l (m + 1) := by
  simp only [lowAfter, pow_succ]; congr 1; ring

theorem lowAfter_double_sub {l : Nat} (m : Nat) (h : 1073741824 ≤ l) :
    lowAfter (2 * l - 2147483648) m = lowAfter l (m + 1) := by
  rw [← lowAfter_double]
  simp only [lowAfter]
  conv_rhs => rw [show 2 * l = (2 * l - 2147483648) + 2147483648 by omega, Nat.add_mul, Nat.add_mul_mod_self_left]

theorem highAfter_double (l h m : Nat) : highAfter (2 * l) (2 * h) m = highAfter l h (m + 1) := by
  simp only [highAfter, lowAfter_double, pow_succ, ← Nat.mul_sub]; ring

theorem highAfter_double_sub {l h : Nat} (m : Nat) (hl : 1073741824 ≤ l) (hlh : l < h) :
    highAfter (2 * l - 2147483648) (2 * h - 2147483648) m = highAfter l h (m + 1) := by
  simp only [highAfter, lowAfter_double_sub m hl]
  rw [show 2 * h - 2147483648 - (2 * l - 2147483648) = 2 * (h - l) by omega, pow_succ]
  ring

/-- While the interval does not straddle 0.5, doubling keeps it inside [0, ONE] (R88). -/
theorem highAfter_le {l h : Nat} (hl : l < h) (hh : h ≤ 2147483648) (n : Nat) (hn : ∀ m < n, ¬ straddles l h m) :
    highAfter l h n ≤ 2147483648 := by
  induction n generalizing l h with
  | zero => rw [highAfter_zero hl hh]; exact hh
  | succ n ih =>
    have h0 := hn 0 (by omega)
    rw [straddles, lowAfter_zero (by omega), highAfter_zero hl hh] at h0
    by_cases hlow : h < 1073741824
    · rw [← highAfter_double]
      refine ih (by omega) (by omega) fun m hm => ?_
      have := hn (m + 1) (by omega)
      rwa [straddles, ← lowAfter_double, ← highAfter_double] at this
    · have hup : 1073741824 ≤ l := by omega
      rw [← highAfter_double_sub n hup hl]
      refine ih (by omega) (by omega) fun m hm => ?_
      have := hn (m + 1) (by omega)
      rwa [straddles, ← lowAfter_double_sub m hup, ← highAfter_double_sub m hup hl] at this

/-- The turns of the interval after one doubling are one fewer. -/
theorem renormTurns_lower {l h n : Nat} (hr : renormTurns l h (n + 1)) : renormTurns (2 * l) (2 * h) n := by
  refine ⟨?_, fun m hm => ?_⟩
  · rw [straddles, lowAfter_double, highAfter_double]; exact hr.1
  · rw [straddles, lowAfter_double, highAfter_double]; exact hr.2 (m + 1) (by omega)

theorem renormTurns_upper {l h n : Nat} (hl : 1073741824 ≤ l) (hlh : l < h) (hr : renormTurns l h (n + 1)) :
    renormTurns (2 * l - 2147483648) (2 * h - 2147483648) n := by
  refine ⟨?_, fun m hm => ?_⟩
  · rw [straddles, lowAfter_double_sub n hl, highAfter_double_sub n hl hlh]; exact hr.1
  · rw [straddles, lowAfter_double_sub m hl, highAfter_double_sub m hl hlh]; exact hr.2 (m + 1) (by omega)

/-! ### The loop -/

/-- The bounds after one turn of the loop, in the half where it doubles (R87). -/
theorem renorm_half {k : Coder} {n : Nat} (hk : k.inRange) (hr : renormTurns k.low.toNat k.high.toNat (n + 1)) :
    k.high.toNat < coderHalf ∨ (¬ k.high.toNat < coderHalf ∧ coderHalf ≤ k.low.toNat) := by
  have h0 := hr.2 0 (by omega)
  have hh := hk.2
  simp only [coderOne] at hh
  rw [straddles, lowAfter_zero (by have := hk.1; omega), highAfter_zero hk.1 hh] at h0
  simp only [coderHalf]
  omega

/-- `t` is `s` after `n` turns of the loop of `Renorm()`: the doubled bounds, the counters, the stream and the bytes (R87,
R89). -/
structure renormsTo (s t : State) (n : Nat) : Prop where
  state   : t = { s with coder := t.coder, pk := s.pk.after n, bits := t.bits }
  low     : t.coder.low.toNat = lowAfter s.coder.low.toNat n
  high    : t.coder.high.toNat = highAfter s.coder.low.toNat s.coder.high.toNat n
  inRange : t.coder.inRange
  padding : t.paddingClear
  emitted : ∀ k < n, t.streamBit (s.pk.bitpos.toNat + k) = decide (1073741824 ≤ lowAfter s.coder.low.toNat k)
  before  : ∀ j < s.pk.bitpos.toNat, t.streamBit j = s.streamBit j
  bytes   : ∀ a, (∀ k < n, a ≠ (s.pk.bitpos.toNat + k) / 8) → t.bits.read .bits a = s.bits.read .bits a

/-- The first `m` of `n` turns, while there is room for their bits (R87, R89). -/
theorem renormLoop_turns (m n fuel : Nat) (s : State) (hk : s.coder.inRange) (hp : s.paddingClear)
    (hc : 8 * s.caps.bitsBytes < 4294967296) (hr : renormTurns s.coder.low.toNat s.coder.high.toNat n) (hmn : m ≤ n)
    (hf : m ≤ fuel) (hroom : s.pk.bitpos.toNat + m ≤ 8 * s.caps.bitsBytes) :
    ∃ t, renormLoop fuel s = renormLoop (fuel - m) t ∧ renormsTo s t m ∧
      renormTurns t.coder.low.toNat t.coder.high.toNat (n - m) := by
  have hone := hk.2
  simp only [coderOne] at hone
  induction m generalizing n fuel s with
  | zero =>
    refine ⟨s, rfl, ⟨?_, ?_, ?_, hk, hp, by simp, by simp, by simp⟩, hr⟩
    · rw [Packer.after_zero]
    · rw [lowAfter_zero (by have := hk.1; omega)]
    · rw [highAfter_zero hk.1 hone]
  | succ m ih =>
    obtain ⟨fuel, rfl⟩ : ∃ f, fuel = f + 1 := ⟨fuel - 1, by omega⟩
    obtain ⟨n, rfl⟩ : ∃ n', n = n' + 1 := ⟨n - 1, by omega⟩
    have hlt : s.pk.bitpos.toNat < 8 * s.caps.bitsBytes := by omega
    have hadv := Packer.advance_bitpos hlt hc
    have hl0 : lowAfter s.coder.low.toNat 0 = s.coder.low.toNat := lowAfter_zero (by have := hk.1; omega)
    -- one turn, for either half
    have turn : ∀ (b : Bool) (k' : Coder), b = decide (1073741824 ≤ s.coder.low.toNat) → k'.inRange →
        (∀ m, lowAfter k'.low.toNat m = lowAfter s.coder.low.toNat (m + 1)) →
        (∀ m, highAfter k'.low.toNat k'.high.toNat m = highAfter s.coder.low.toNat s.coder.high.toNat (m + 1)) →
        renormTurns k'.low.toNat k'.high.toNat n →
        ∃ t, ((emit b s).andThen fun t => renormLoop fuel { t with coder := k' }) = renormLoop (fuel - m) t ∧
          renormsTo s t (m + 1) ∧ renormTurns t.coder.low.toNat t.coder.high.toNat (n - m) := by
      intro b k' hb hk' hlow hhigh hturns
      obtain ⟨u, hu, heq⟩ := emit_ok (b := b) hlt
      have hstream := emit_stream hp hu
      have hbyte := emit_byte_other hu
      have hpad := emit_padding hp hc hu
      have hupk : u.pk = s.pk.advance := by rw [heq]
      have hucaps : u.caps = s.caps := by rw [heq]
      have hpos : u.pk.bitpos.toNat = s.pk.bitpos.toNat + 1 := by rw [hupk, hadv]
      obtain ⟨t, ht, ⟨hteq, htl, hth, htr, htp, htb, htj, hta⟩, htt⟩ :=
        ih n fuel { u with coder := k' } hk' hpad (by simp only [hucaps]; exact hc) hturns (by omega) (by omega)
          (by simp only [hucaps, hpos]; omega) (by simpa [coderOne] using hk'.2)
      refine ⟨t, by rw [hu]; exact ht,
        ⟨?_, by rw [htl]; exact hlow m, by rw [hth]; exact hhigh m, htr, htp, ?_, ?_, ?_⟩, htt⟩
      · rw [hteq, heq]
        simp only [Packer.after_advance]
      · intro k hkn
        simp only [hpos] at htb htj
        rcases Nat.eq_zero_or_pos k with rfl | hpos'
        · rw [htj _ (by omega), hl0]
          change u.streamBit _ = _
          rw [hstream, if_pos (by omega), hb]
        · obtain ⟨k, rfl⟩ : ∃ j, k = j + 1 := ⟨k - 1, by omega⟩
          rw [show s.pk.bitpos.toNat + (k + 1) = s.pk.bitpos.toNat + 1 + k by omega, htb k (by omega), hlow k]
      · intro j hj
        simp only [hpos] at htj
        rw [htj j (by omega)]
        change u.streamBit _ = _
        rw [hstream, if_neg (by omega), if_neg (by omega)]
      · intro a ha
        rw [hta a fun k hkn => ?_]
        · exact hbyte a (ha 0 (by omega))
        · simp only [hpos]
          rw [show s.pk.bitpos.toNat + 1 + k = s.pk.bitpos.toNat + (k + 1) by omega]
          exact ha (k + 1) (by omega)
    have hfm : fuel + 1 - (m + 1) = fuel - m := by omega
    have hnm : n + 1 - (m + 1) = n - m := by omega
    rw [hfm, hnm]
    conv in renormLoop (fuel + 1) s => unfold renormLoop
    rcases renorm_half hk hr with hlo | ⟨hnl, hup⟩
    · obtain ⟨hir, hdl, hdh⟩ := doubleLower_inRange hk hlo
      have hno : ¬ 1073741824 ≤ s.coder.low.toNat := by have := hk.1; simp only [coderHalf] at hlo; omega
      obtain ⟨t, ht, rest⟩ := turn false s.coder.doubleLower (by simp [hno]) hir
        (fun m => by rw [hdl, lowAfter_double]) (fun m => by rw [hdl, hdh, highAfter_double])
        (by rw [hdl, hdh]; exact renormTurns_lower hr)
      refine ⟨t, ?_, rest⟩
      rw [if_pos hlo, ← ht]
      rcases emit_cases false s with ⟨-, he⟩ | ⟨-, he⟩ <;> simp only [he, Run.andThen_ok, Run.andThen_raised]
    · obtain ⟨hir, hdl, hdh⟩ := doubleUpper_inRange hk hup
      have hhalf := hup
      simp only [coderHalf, coderOne] at hup hdl hdh
      obtain ⟨t, ht, rest⟩ := turn true s.coder.doubleUpper (by simp [hup]) hir
        (fun m => by rw [hdl, lowAfter_double_sub m hup])
        (fun m => by rw [hdl, hdh, highAfter_double_sub m hup hk.1])
        (by rw [hdl, hdh]; exact renormTurns_upper hup hk.1 hr)
      refine ⟨t, ?_, rest⟩
      rw [if_neg hnl, if_pos hhalf, ← ht]
      rcases emit_cases true s with ⟨-, he⟩ | ⟨-, he⟩ <;> simp only [he, Run.andThen_ok, Run.andThen_raised]

theorem renormsTo.bitpos {s t : State} {n : Nat} (h : renormsTo s t n) (hc : s.pk.bitpos.toNat + n < 4294967296) :
    t.pk.bitpos.toNat = s.pk.bitpos.toNat + n := by
  rw [h.state]
  simp only [Packer.after, BitVec.toNat_add, BitVec.toNat_ofNat]
  omega

/-- `Renorm()` with room for all its bits (R87). -/
theorem renorm_ok {n : Nat} {s : State} (hk : s.coder.inRange) (hp : s.paddingClear)
    (hc : 8 * s.caps.bitsBytes < 4294967296) (hr : renormTurns s.coder.low.toNat s.coder.high.toNat n)
    (hroom : s.pk.bitpos.toNat + n ≤ 8 * s.caps.bitsBytes) : ∃ t, renorm s = .ok t ∧ renormsTo s t n := by
  obtain ⟨t, ht, hs, hz⟩ := renormLoop_turns n n (s.room + 1) s hk hp hc hr le_rfl (by simp only [State.room]; omega) hroom
  refine ⟨t, ?_, hs⟩
  rw [renorm, ht]
  obtain ⟨f, hf⟩ : ∃ f, s.room + 1 - n = f + 1 := ⟨s.room - n, by simp only [State.room]; omega⟩
  have h0 := hz.1
  have hone := hs.inRange.2
  simp only [coderOne] at hone
  rw [Nat.sub_self, straddles, lowAfter_zero (by have := hs.inRange.1; omega), highAfter_zero hs.inRange.1 hone] at h0
  rw [hf, renormLoop, if_neg (by simp only [coderHalf]; omega), if_neg (by simp only [coderHalf]; omega)]

/-- `Renorm()` with room for only `m` of its `n` bits (R87, R89): it raises after `m` turns, before the next doubling. -/
theorem renorm_overflow {n m : Nat} {s : State} (hk : s.coder.inRange) (hp : s.paddingClear)
    (hc : 8 * s.caps.bitsBytes < 4294967296) (hr : renormTurns s.coder.low.toNat s.coder.high.toNat n) (hmn : m < n)
    (hroom : s.pk.bitpos.toNat + m = 8 * s.caps.bitsBytes) :
    ∃ t, renorm s = .raised .outOverflow t ∧ renormsTo s t m := by
  obtain ⟨t, ht, hs, hz⟩ :=
    renormLoop_turns m n (s.room + 1) s hk hp hc hr (by omega) (by simp only [State.room]; omega) (by omega)
  refine ⟨t, ?_, hs⟩
  obtain ⟨f, hf⟩ : ∃ f, s.room + 1 - m = f + 1 := ⟨s.room - m, by simp only [State.room]; omega⟩
  obtain ⟨k, hk'⟩ : ∃ k, n - m = k + 1 := ⟨n - m - 1, by omega⟩
  rw [hk'] at hz
  have hpos := hs.bitpos (by omega)
  have hcaps : t.caps = s.caps := by rw [hs.state]
  have he : ∀ b, emit b t = .raised .outOverflow t := fun b => by
    rcases emit_cases b t with ⟨-, h⟩ | ⟨h, -⟩
    · exact h
    · rw [hcaps] at h; omega
  rw [renorm, ht, hf, renormLoop, he, he, Run.andThen_raised, Run.andThen_raised]
  rcases renorm_half hs.inRange hz with h | ⟨h1, h2⟩
  · rw [if_pos h]
  · rw [if_neg h1, if_pos h2]

end Sys2Proof.Machine
end

