-- ==== Sys2Proof/Laws/Keeps.lean ====
section
/-! SUPPORT. The shared operations of the coder keep the part of the invariant that coding touches, whether they go on or raise
(R111: what was done before a raise is kept). -/

namespace Sys2Proof.Machine

open Sys2Proof

/-- The part of the invariant that coding a symbol can touch, and the bounds on the capacities that it needs. -/
structure codingSound (s : State) : Prop where
  bitsCap : 8 * s.caps.bitsBytes < 4294967296
  ftCap   : s.caps.ftEntries ≤ 4294967295
  coder   : s.coder.inRange
  hist    : s.hist.clearAbove
  pk      : s.pk.inRange s.caps
  ft      : s.ft.wf
  ftRoom  : s.ft.used.toNat ≤ s.caps.ftEntries
  bits    : s.bits.within s.caps.bitsBytes
  padding : s.paddingClear

theorem State.Inv.codingSound {s : State} (h : s.Inv) : codingSound s := by
  have hc := h.caps
  simp only [Config.Caps.legal, Bool.and_eq_true, decide_eq_true_eq] at hc
  exact ⟨by omega, by omega, h.coder, h.hist, h.pk, h.ft, h.ftRoom, h.bits, h.padding⟩

/-- A coder in range put in the place of another keeps the rest. -/
theorem codingSound.withCoder {s : State} (h : codingSound s) {k : Coder} (hk : k.inRange) :
    codingSound { s with coder := k } :=
  ⟨h.bitsCap, h.ftCap, hk, h.hist, h.pk, h.ft, h.ftRoom, h.bits, h.padding⟩

theorem Packer.advance_inRange {p : Packer} {c : Config.Caps} (hc : 8 * c.bitsBytes < 4294967296) (h : p.inRange c)
    (hr : p.bitpos.toNat < 8 * c.bitsBytes) : p.advance.inRange c := by
  obtain ⟨h1, h2, h3, h4⟩ := h
  have hb := Packer.advance_bitpos hr hc
  have ht : p.advance.totalbits.toNat = p.totalbits.toNat + 1 := by
    simp only [Packer.advance, BitVec.toNat_add, BitVec.toNat_ofNat]; omega
  have hk : p.advance.blkbits.toNat = p.blkbits.toNat + 1 := by
    simp only [Packer.advance, BitVec.toNat_add, BitVec.toNat_ofNat]; omega
  exact ⟨by omega, by omega, by omega, h4⟩

theorem emit_sound {b : Bool} {s : State} (h : codingSound s) : codingSound (emit b s).state := by
  rcases emit_cases b s with ⟨-, he⟩ | ⟨hr, he⟩
  · rw [he]; exact h
  · have hpad := emit_padding h.padding h.bitsCap he
    rw [he]
    exact ⟨h.bitsCap, h.ftCap, h.coder, h.hist, Packer.advance_inRange h.bitsCap h.pk hr, h.ft, h.ftRoom,
      Memory.within_write _ _ (show s.pk.bitpos.toNat / 8 < s.caps.bitsBytes by omega) h.bits, hpad⟩

theorem emit_coder {b : Bool} {s t : State} (h : emit b s = .ok t) : t.coder = s.coder := by
  rcases emit_cases b s with ⟨-, he⟩ | ⟨-, he⟩ <;> rw [he] at h
  · simp at h
  · rw [← Run.ok.inj h]

theorem renormLoop_sound (n : Nat) (s : State) (h : codingSound s) : codingSound (renormLoop n s).state := by
  induction n generalizing s with
  | zero => exact h
  | succ n ih =>
    unfold renormLoop
    split
    · rename_i hlo
      refine andThen_keeps (emit_sound h) fun t ht => ih _ ?_
      have hs := emit_sound (b := false) h
      rw [ht] at hs
      have hc := emit_coder ht
      exact codingSound.withCoder hs (doubleLower_inRange (hc ▸ h.coder) (hc ▸ hlo)).1
    · split
      · rename_i hup
        refine andThen_keeps (emit_sound h) fun t ht => ih _ ?_
        have hs := emit_sound (b := true) h
        rw [ht] at hs
        have hc := emit_coder ht
        exact codingSound.withCoder hs (doubleUpper_inRange (hc ▸ h.coder) (hc ▸ hup)).1
      · exact h

theorem narrow_sound {c t : Word} {s : State} (hct : c.toNat ≤ t.toNat) (h : codingSound s) :
    codingSound (narrow c t s).state := by
  rcases narrow_cases c t s with ⟨-, he⟩ | ⟨k, hk, he⟩
  · rw [he]; exact h
  · rw [he]; exact h.withCoder (narrowCoder_inRange hct h.coder hk).1

theorem History.context_length (h : History) : h.context.length ≤ 4 := by
  simp only [History.context, List.length_take, List.length_cons, List.length_nil]
  omega

theorem adaptTable_sound {k : Key} {s : State} (hk : k.ctx.length ≤ 4) (h : codingSound s) :
    codingSound (adaptTable k s).state := by
  unfold adaptTable
  split
  · rcases ftIncrement_cases k s with ⟨-, he⟩ | ⟨-, -, he⟩ | ⟨-, -, -, he⟩ | ⟨-, -, -, he⟩
    · rw [he]; exact h
    · have := ftIncrement_wf hk h.ft h.ftRoom h.ftCap he
      rw [he]
      exact ⟨h.bitsCap, h.ftCap, h.coder, h.hist, h.pk, this.1, this.2, h.bits, h.padding⟩
    · rw [he]; exact h
    · have := ftIncrement_wf hk h.ft h.ftRoom h.ftCap he
      rw [he]
      exact ⟨h.bitsCap, h.ftCap, h.coder, h.hist, h.pk, this.1, this.2, h.bits, h.padding⟩
  · exact h

theorem History.push_clearAbove {h : History} (v : Sym) (hc : h.clearAbove) : (h.push v).clearAbove := by
  obtain ⟨h0, h1, h2, h3⟩ := hc
  rcases h with ⟨⟨n, hn⟩, a, b, c, d⟩
  interval_cases n <;> simp_all [History.push, History.clearAbove]

/-- Coding a symbol keeps the invariant's part, whether it goes on or raises (R91). -/
theorem encodeSymbol_sound (v : Sym) (s : State) (h : codingSound s) : codingSound (encodeSymbol v s).state := by
  have hct : (s.prob v).1.toNat ≤ (s.prob v).2.toNat := FreqTable.count_le_total h.ft _
  unfold encodeSymbol
  refine andThen_keeps (narrow_sound hct h) fun s1 h1 => ?_
  have k1 := narrow_sound hct h
  rw [h1] at k1
  refine andThen_keeps (renormLoop_sound _ s1 k1) fun s2 h2 => ?_
  have k2 := renormLoop_sound (s1.room + 1) s1 k1
  rw [show renormLoop (s1.room + 1) s1 = .ok s2 from h2] at k2
  have hlen : (s.keyOf v).ctx.length ≤ 4 := History.context_length _
  refine andThen_keeps (adaptTable_sound hlen k2) fun s3 h3 => ?_
  have k3 := adaptTable_sound hlen k2
  rw [show adaptTable (s.keyOf v) (Run.ok s2).state = .ok s3 from h3] at k3
  exact ⟨k3.bitsCap, k3.ftCap, k3.coder, History.push_clearAbove v k3.hist, k3.pk, k3.ft, k3.ftRoom, k3.bits, k3.padding⟩

/-- AC_BEGIN keeps the invariant's part (R94). -/
theorem beginBlock_sound {t : State} (h : codingSound t) : codingSound (beginBlock t) := by
  obtain ⟨a, b, c, d⟩ := h.pk
  refine ⟨h.bitsCap, h.ftCap, (by decide : Coder.full.inRange), (by decide : History.empty.clearAbove), ?_, h.ft, h.ftRoom,
    h.bits, h.padding⟩
  exact ⟨by simp [beginBlock], by simpa [beginBlock] using b, by simpa [beginBlock] using c, by simpa [beginBlock] using d⟩

/-- AC_END, with a LEN entry left, keeps the invariant's part (R96). -/
theorem closeBlock_sound {t : State} (h : codingSound t) (hl : t.pk.blkidx.toNat < t.caps.lenWords) :
    codingSound (closeBlock t) := by
  obtain ⟨a, b, c, d⟩ := h.pk
  have hb := h.bitsCap
  have hpos : (padToByte t.pk.bitpos).toNat = 8 * ceilDiv t.pk.bitpos.toNat 8 := by
    simp only [padToByte, BitVec.toNat_ofNat, ceilDiv]; omega
  have hidx : (t.pk.blkidx + 1#32).toNat ≤ t.caps.lenWords := by
    rw [BitVec.toNat_add]; simp only [BitVec.toNat_ofNat]; omega
  refine ⟨h.bitsCap, h.ftCap, h.coder, h.hist, ⟨by simp [closeBlock], ?_, ?_, hidx⟩, h.ft, h.ftRoom, h.bits, ?_⟩
  · simp only [closeBlock_pk, hpos, ceilDiv]; omega
  · simp only [closeBlock_pk, hpos, ceilDiv, closeBlock_caps]; omega
  · intro n h1 h2
    simp only [closeBlock_pk, hpos, ceilDiv] at h1 h2
    omega

end Sys2Proof.Machine
end

