-- ==== Sys2Proof/Laws/PerInstr.lean ====
section
/-! SUPPORT. Statements made per command: its encoding. -/

namespace Sys2Proof.Laws

open Sys2Proof

/-- The word of a command is a legal command word with RSV = 0, and its OPC is the table's (30_encoding.md R56, R58). -/
def Encoding.Statement (i : Instr) : Prop :=
  i.wellFormed = true ∧ WellFormed.commandWord (encode i) = true ∧ reservedOf (encode i) = 0#24 ∧
    commandOfOpcode (opcodeOf (encode i)) = some i

theorem Encoding.nop : Encoding.Statement .nop := by
  unfold Encoding.Statement; decide
theorem Encoding.compress : Encoding.Statement .compress := by
  unfold Encoding.Statement; decide
theorem Encoding.ftClear : Encoding.Statement .ftClear := by
  unfold Encoding.Statement; decide
theorem Encoding.pkReset : Encoding.Statement .pkReset := by
  unfold Encoding.Statement; decide
theorem Encoding.xform : Encoding.Statement .xform := by
  unfold Encoding.Statement; decide
theorem Encoding.quant : Encoding.Statement .quant := by
  unfold Encoding.Statement; decide
theorem Encoding.prob : Encoding.Statement .prob := by
  unfold Encoding.Statement; decide
theorem Encoding.ftInc : Encoding.Statement .ftInc := by
  unfold Encoding.Statement; decide
theorem Encoding.acBegin : Encoding.Statement .acBegin := by
  unfold Encoding.Statement; decide
theorem Encoding.acEncode : Encoding.Statement .acEncode := by
  unfold Encoding.Statement; decide
theorem Encoding.acEnd : Encoding.Statement .acEnd := by
  unfold Encoding.Statement; decide

end Sys2Proof.Laws
end

