-- ==== Sys2Proof/Laws/Port.lean ====
section
/-! SUPPORT. The host port: where an offset leads (R45), what a host write can do, and that it keeps the invariant's parts. -/

namespace Sys2Proof.Machine

open Sys2Proof

/-! ### The address map -/

theorem alignedOffset_lt (off : Offset) : alignedOffset off < 4194304 := by
  have := off.isLt
  simp only [alignedOffset]; omega

theorem alignedOffset_mod (off : Offset) : alignedOffset off % 4 = 0 := by
  simp only [alignedOffset]; omega

/-- An offset of the CSR block (R16). -/
theorem regionAt_csr (c : Config.Caps) (off : Offset) (h : alignedOffset off < 4096) :
    regionAt c off = match assocFind id (alignedOffset off) csrMap with
      | some r => .csr r
      | none => .reserved := by
  simp only [regionAt]
  rewrite [if_pos (by omega), if_pos (by omega), Nat.mod_eq_of_lt (by omega)]
  cases assocFind id (alignedOffset off) csrMap <;> rfl

theorem regionAt_low (c : Config.Caps) (off : Offset) (h1 : 4096 ≤ alignedOffset off) (h2 : alignedOffset off < 1048576) :
    regionAt c off = .unmapped := by
  simp only [regionAt]
  rw [if_pos (by omega), if_neg (by omega)]

/-- An offset of the IMG window (R45). -/
theorem regionAt_img (c : Config.Caps) (off : Offset) (h1 : 1048576 ≤ alignedOffset off)
    (h2 : alignedOffset off < 2097152) :
    regionAt c off =
      if alignedOffset off - 1048576 < c.imgBytes then .img (alignedOffset off - 1048576) else .unmapped := by
  simp only [regionAt]
  rw [if_neg (by omega), if_pos (by omega), show alignedOffset off % 1048576 = alignedOffset off - 1048576 by omega]

/-- An offset of the LEN window (R45). -/
theorem regionAt_len (c : Config.Caps) (off : Offset) (h1 : 2097152 ≤ alignedOffset off)
    (h2 : alignedOffset off < 3145728) :
    regionAt c off =
      if alignedOffset off - 2097152 < 4 * c.lenWords then .len (alignedOffset off - 2097152) else .unmapped := by
  simp only [regionAt]
  rw [if_neg (by omega), if_neg (by omega), if_pos (by omega),
    show alignedOffset off % 1048576 = alignedOffset off - 2097152 by omega]

/-- An offset of the BITS window (R45). -/
theorem regionAt_bits (c : Config.Caps) (off : Offset) (h1 : 3145728 ≤ alignedOffset off) :
    regionAt c off =
      if alignedOffset off - 3145728 < c.bitsBytes then .bits (alignedOffset off - 3145728) else .unmapped := by
  have := alignedOffset_lt off
  simp only [regionAt]
  rw [if_neg (by omega), if_neg (by omega), if_neg (by omega),
    show alignedOffset off % 1048576 = alignedOffset off - 3145728 by omega]

/-- An IMG region lies within the capacity and is a whole word. -/
theorem regionAt_img_within {c : Config.Caps} {off : Offset} {a : Nat} (hc : c.imgBytes % 4 = 0)
    (h : regionAt c off = .img a) : a + 3 < c.imgBytes := by
  have hm := alignedOffset_mod off
  simp only [regionAt] at h
  split at h
  · split at h
    · split at h <;> simp at h
    · simp at h
  · split at h
    · split at h
      · have := Region.img.inj h; omega
      · simp at h
    · split at h
      · split at h <;> simp at h
      · split at h <;> simp at h

/-- The offset of a byte of IMG that lies in the device window (R45, R61). -/
theorem imgOffset_toNat {n : Nat} (h : 0x100000 + n < 0x400000) : (imgOffset n).toNat = 0x100000 + n := by
  rw [imgOffset, if_pos h, BitVec.toNat_ofNat, Nat.mod_eq_of_lt h]

/-- Beyond the window the offset is the free one (log 17). -/
theorem imgOffset_beyond {n : Nat} (h : 0x400000 ≤ 0x100000 + n) : imgOffset n = Config.offsetBeyondWindow n := by
  rw [imgOffset, if_neg (by omega)]

/-! ### Writes -/

theorem frozenWhileBusy_idle {s t : State} (h : s.status.busy = false) : frozenWhileBusy s t = t := by
  simp [frozenWhileBusy, h]

theorem frozenWhileBusy_busy {s t : State} (h : s.status.busy = true) :
    frozenWhileBusy s t = s.recordError .accessBusy := by
  simp [frozenWhileBusy, h]

/-- What a write to CMD can do (R108). -/
theorem writeCmd_cases (w : Word) (s : State) :
    (s.status.busy = true ∧ writeCmd w s = s.recordError .cmdBusy) ∨
    (s.status.busy = false ∧ (∃ e, decode w = .error e) ∧
      writeCmd w s = { s with status := { s.status.record .illegalCmd with done := true } }) ∨
    (s.status.busy = false ∧ (∃ i, decode w = .ok i) ∧
      writeCmd w s = { s with
        pending := some w
        status := { s.status with busy := true, done := false }
        delay := Config.engineDelay s.draws
        draws := s.draws + 1 }) := by
  unfold writeCmd
  split
  · exact .inl ⟨‹_›, rfl⟩
  · rename_i hb
    split
    · exact .inr (.inl ⟨by simpa using hb, ⟨_, ‹_›⟩, rfl⟩)
    · exact .inr (.inr ⟨by simpa using hb, ⟨_, ‹_›⟩, rfl⟩)

end Sys2Proof.Machine
end

