-- ==== Sys2Proof/Tests/Slice0.lean ====
section
/-! SUPPORT. The model's own tests. Expected values are the spec's (95_test_vectors.md, or the encoding rules of
30_encoding.md), never the model's answer pasted back. The last part holds one witness for each statement that has
hypotheses: concrete states and operands that meet all of them, at boundary values where a hypothesis is a range. -/

namespace Sys2Proof.Tests

open Sys2Proof Sys2Proof.Machine

-- One theorem after another: many `decide` proofs at once would each hold a thread, and its stack, while they wait.
set_option Elab.async false
set_option synthInstance.maxSize 2000
set_option synthInstance.maxHeartbeats 400000

/-! ### Well-formedness -/

/-- COMPRESS with RSV = 1 (V-HS-1). -/
theorem test_wellFormed_refuses_reserved :
    WellFormed.reservedZero 0x00000101#32 = false ∧ WellFormed.commandWord 0x00000101#32 = false := by decide

/-- The lowest unlisted opcode (V-HS-1). -/
theorem test_wellFormed_refuses_unlisted_opcode :
    WellFormed.opcodeListed 0x00000004#32 = false ∧ WellFormed.commandWord 0x00000004#32 = false := by decide

/-- Capacities that R7 excludes, one bound at a time, beside the largest it admits. -/
theorem test_wellFormed_refuses_capacities :
    Config.Caps.legal { imgBytes := 1048576, lenWords := 262144, bitsBytes := 1048576, ftEntries := 4294967295 } = true ∧
    Config.Caps.legal { imgBytes := 6, lenWords := 1, bitsBytes := 4, ftEntries := 1 } = false ∧
    Config.Caps.legal { imgBytes := 0, lenWords := 1, bitsBytes := 4, ftEntries := 1 } = false ∧
    Config.Caps.legal { imgBytes := 1048580, lenWords := 1, bitsBytes := 4, ftEntries := 1 } = false ∧
    Config.Caps.legal { imgBytes := 4, lenWords := 0, bitsBytes := 4, ftEntries := 1 } = false ∧
    Config.Caps.legal { imgBytes := 4, lenWords := 262145, bitsBytes := 4, ftEntries := 1 } = false ∧
    Config.Caps.legal { imgBytes := 4, lenWords := 1, bitsBytes := 1, ftEntries := 1 } = false ∧
    Config.Caps.legal { imgBytes := 4, lenWords := 1, bitsBytes := 4, ftEntries := 0 } = false ∧
    Config.Caps.legal { imgBytes := 4, lenWords := 1, bitsBytes := 4, ftEntries := 4294967296 } = false := by decide

/-! ### Decoding: every command's word, written out from R58 -/

theorem test_decode_nop : decode 0b00000000000000000000000000000000#32 = .ok .nop := by decide
theorem test_decode_compress : decode 0b00000000000000000000000000000001#32 = .ok .compress := by decide
theorem test_decode_ftClear : decode 0b00000000000000000000000000000010#32 = .ok .ftClear := by decide
theorem test_decode_pkReset : decode 0b00000000000000000000000000000011#32 = .ok .pkReset := by decide
theorem test_decode_xform : decode 0b00000000000000000000000000010000#32 = .ok .xform := by decide
theorem test_decode_quant : decode 0b00000000000000000000000000010001#32 = .ok .quant := by decide
theorem test_decode_prob : decode 0b00000000000000000000000000010010#32 = .ok .prob := by decide
theorem test_decode_ftInc : decode 0b00000000000000000000000000010011#32 = .ok .ftInc := by decide
theorem test_decode_acBegin : decode 0b00000000000000000000000000100000#32 = .ok .acBegin := by decide
theorem test_decode_acEncode : decode 0b00000000000000000000000000100001#32 = .ok .acEncode := by decide
theorem test_decode_acEnd : decode 0b00000000000000000000000000100010#32 = .ok .acEnd := by decide

/-- The edges of the illegal opcode ranges (R59), and a RSV bit on a legal opcode. -/
theorem test_decode_refuses :
    [0x04#32, 0x0F#32, 0x14#32, 0x1F#32, 0x23#32, 0xFF#32].map decode =
      List.replicate 6 (.error .unknownOpcode) ∧
    [0x00000100#32, 0x80000000#32, 0x00000101#32].map decode = List.replicate 3 (.error .reservedNonzero) := by decide

/-- A number that does not fit one command word is no instruction. -/
theorem test_decodeTableWord_one_word : decodeTableWord 64 0x100000001 = none ∧ decodeTableWord 32 0x22 = some .acEnd := by
  decide

/-! ### The helpers of the tests -/

/-- A small device: 4 pixels, 2 LEN entries, 32 bits of output, 2 keys. -/
def smallCaps : Config.Caps := { imgBytes := 16, lenWords := 2, bitsBytes := 4, ftEntries := 2 }

/-- The small device after reset. -/
def small : State := { State.reset with caps := smallCaps }

/-- The state after one command. -/
def after (i : Instr) (s : State) : State :=
  match exec i s with
  | .next t => t
  | .fault _ => s
  | .refused _ => s

/-- Every command answers a next state. -/
theorem after_eq (i : Instr) (s : State) : exec i s = .next (after i s) := by cases i <;> rfl

/-- The table of V-CM-1 after its step 6: two keys in the empty context, with counts 2 and 1. -/
def twoKeys : FreqTable :=
  { entries := [({ ctx := [], value := 0x400000#24 }, 2#32), ({ ctx := [], value := 0x500000#24 }, 1#32)]
    total := 3#32, used := 2#32 }

/-- The table of V-CM-4. -/
def fullCount : FreqTable :=
  { entries := [({ ctx := [], value := 0x400000#24 }, 0xFFFFFFFF#32)], total := 0xFFFFFFFF#32, used := 1#32 }

/-- A state while the command word `w` is running. -/
def busyWith (w : Word) (s : State) : State :=
  { s with pending := some w, status := { s.status with busy := true } }

/-- CONFIG in adaptive mode (V-AC-5's 0x308). -/
def adaptive : ConfigReg := { bsize := 8#8, cspace := true, adapt := true }

/-- P3's device: a 2 by 2 RGB image, adaptive, with room for its 28 bits and 10 keys and no more. -/
def p3 : State :=
  { State.reset with
    caps := { imgBytes := 16, lenWords := 1, bitsBytes := 4, ftEntries := 10 }
    width := 2#16, height := 2#16, qlevel := 256#16
    config := { bsize := 2#8, cspace := false, adapt := true }
    img :=
      { cells := [(0, 16#8), (1, 32#8), (2, 48#8), (3, 0#8), (4, 16#8), (5, 32#8), (6, 48#8), (7, 0#8), (8, 16#8),
          (9, 32#8), (10, 48#8), (11, 0#8), (12, 64#8), (13, 32#8), (14, 16#8), (15, 0#8)]
        epoch := 0 } }

/-- The invariant from its parts, all but the padding, which a test states apart. -/
theorem inv_of (s : State)
    (h : s.caps.legal = true ∧ s.status.consistent ∧ s.pendingLegal ∧ s.coder.inRange ∧ s.hist.clearAbove ∧
      s.pk.inRange s.caps ∧ s.ft.wf ∧ s.ft.used.toNat ≤ s.caps.ftEntries ∧ s.img.within s.caps.imgBytes ∧
      s.lenMem.within (4 * s.caps.lenWords) ∧ s.bits.within s.caps.bitsBytes)
    (hp : s.paddingClear) : s.Inv :=
  ⟨h.1, h.2.1, h.2.2.1, h.2.2.2.1, h.2.2.2.2.1, h.2.2.2.2.2.1, h.2.2.2.2.2.2.1, h.2.2.2.2.2.2.2.1, h.2.2.2.2.2.2.2.2.1,
    h.2.2.2.2.2.2.2.2.2.1, h.2.2.2.2.2.2.2.2.2.2, hp⟩

/-- Reset's memories and table are in their canonical forms. -/
theorem test_reset_memories_wf :
    State.reset.img.wf ∧ State.reset.lenMem.wf ∧ State.reset.bits.wf ∧ State.reset.ft.wf := by decide

/-! ### One step of each command -/

/-- V-NOP. -/
theorem test_nop : (after .nop (busyWith 0x00#32 small)).status.word = 0x00000002#32 := by decide

/-- V-XF, (200, 100, 50). -/
theorem test_xform_pixel :
    (let t := after .xform { small with op0 := 0xC80000#24, op1 := 0x640000#24, op2 := 0x320000#24 }
     (t.res0, t.res1, t.res2)) = (0x7C331E#32, 0x562078#32, 0xB610D2#32) := by decide +kernel

/-- V-XF, truncation: Cb falls one unit below 128.0. -/
theorem test_xform_truncates :
    (let t := after .xform { small with op0 := 0x000001#24 }
     (t.res0, t.res1, t.res2)) = (0x000000#32, 0x7FFFFF#32, 0x800000#32) := by decide +kernel

/-- V-Q, rows 1, 2, 5, 7 and 12. -/
theorem test_quant_rows :
    [(0xC80000#24, 8#16), (0x640000#24, 3#16), (0xFF0000#24, 255#16), (0xFFFFFF#24, 65535#16), (0x0A0000#24, 1000#16)].map
        (fun p => (after .quant { small with op0 := p.1, qlevel := p.2 }).res0) =
      [0xC00000#32, 0x555556#32, 0xFEFEFF#32, 0xFFFF00#32, 0x09FBE8#32] := by decide +kernel

/-- V-Q-ERR. -/
theorem test_quant_level_zero :
    (let t := after .quant { small with qlevel := 0#16, res0 := 0x12345678#32 }
     (t.status.word, t.res0)) = (0x00000406#32, 0x12345678#32) := by decide +kernel

/-- V-CM-1, step 7. -/
theorem test_prob_counts :
    (let t := after .prob { small with ft := twoKeys, op0 := 0x400000#24, res2 := 7#32 }
     (t.res0, t.res1, t.res2)) = (2#32, 3#32, 0#32) := by decide +kernel

/-- V-CM-2: the context's length is part of the key. -/
theorem test_prob_context :
    (let t := after .prob { small with ft := twoKeys, op0 := 0x400000#24, hist := History.empty.push 0x100000#24 }
     (t.res0, t.res1)) = (0#32, 3#32) := by decide +kernel

/-- V-CM-1, step 6: a new key. -/
theorem test_ftInc_new_key :
    (after .ftInc { small with
      ft := { entries := [({ ctx := [], value := 0x400000#24 }, 2#32)], total := 2#32, used := 1#32 }
      op0 := 0x500000#24 }).ft = twoKeys := by decide +kernel

/-- V-CM-4: COUNT_OVERFLOW comes before FT_FULL. -/
theorem test_ftInc_overflow :
    (let t := after .ftInc { small with caps := { smallCaps with ftEntries := 1 }, ft := fullCount, op0 := 0x500000#24 }
     (t.status.word, t.ft)) = (0x00000806#32, fullCount) := by decide +kernel

/-- V-CM-1, step 8. -/
theorem test_ftClear : (after .ftClear { small with ft := twoKeys }).ft = FreqTable.empty := by decide

/-- V-AC-11: AC_BEGIN leaves BITPOS inside its byte (R94). -/
theorem test_acBegin :
    (let t := after .acBegin { small with
       coder := { low := 0x3FFF8000#32, high := 0x40000000#32 }, hist := History.empty.push 0x400000#24
       pk := { bitpos := 1#32, blkidx := 1#32, blkbits := 1#32, totalbits := 1#32 } }
     (t.coder, t.hist, t.pk)) =
      (Coder.full, History.empty, { bitpos := 1#32, blkidx := 1#32, blkbits := 0#32, totalbits := 1#32 }) := by decide

/-- V-AC-7: the 31 bits of the narrowest interval. -/
theorem test_acEncode_most_bits :
    (let t := after .acEncode { small with ft := fullCount, op0 := 0x400000#24 }
     (t.coder, t.pk.bitpos, t.bits.cells)) =
      (Coder.full, 31#32, [(0, 0xFF#8), (1, 0xFF#8), (2, 0xFF#8), (3, 0xFE#8)]) := by decide +kernel

/-- V-AC-9, the two AC_ENCODE: `high = HALF` ends the loop (90_conflicts.md C3), and the next narrowing is degenerate. -/
theorem test_acEncode_half_and_degenerate :
    (let s : State := { small with
       ft := { entries := [({ ctx := [], value := 0x400000#24 }, 32767#32), ({ ctx := [], value := 0x800000#24 }, 32768#32)]
               total := 65535#32, used := 2#32 } }
     let t := after .acEncode { s with op0 := 0x400000#24 }
     let u := after .acEncode { t with op0 := 0x100000#24 }
     (t.coder, t.pk.bitpos, t.hist.len, u.coder, u.hist.len, u.status.word)) =
      ({ low := 0x3FFF8000#32, high := 0x40000000#32 }, 0#32, 1, { low := 0x3FFF8000#32, high := 0x40000000#32 }, 1,
        0x00000606#32) := by decide +kernel

/-- V-AC-10(a). -/
theorem test_acEnd :
    (let t := after .acEnd { small with pk := { bitpos := 3#32, blkidx := 0#32, blkbits := 3#32, totalbits := 3#32 } }
     (t.lenEntry 0, t.pk)) = (3#32, { bitpos := 8#32, blkidx := 1#32, blkbits := 0#32, totalbits := 3#32 }) := by
  decide +kernel

/-- V-AC-10(c): no LEN entry left. -/
theorem test_acEnd_overflow :
    (let t := after .acEnd { small with caps := { smallCaps with lenWords := 1 }, pk := { Packer.zero with blkidx := 1#32 } }
     (t.status.word, t.pk.blkidx, t.lenMem)) = (0x00000906#32, 1#32, Memory.unwritten 0) := by decide +kernel

/-- V-PK-1. -/
theorem test_pkReset :
    (let t := after .pkReset { small with
       pk := { bitpos := 24#32, blkidx := 2#32, blkbits := 0#32, totalbits := 20#32 }
       status := { Status.idle with valid := true } }
     (t.pk, t.status.word)) = (Packer.zero, 0x00000002#32) := by decide

/-- P3, the first COMPRESS: the length, the four bytes of the stream, the counters and the coder. -/
theorem test_compress_p3 :
    (let t := after .compress p3
     (t.status.word, t.nblocks, t.lenEntry 0, t.bits.readWord .bits 0, t.pk, t.ft.total, t.ft.used, t.coder)) =
      (0x0000000A#32, 1#32, 28#32, 0x50CE0100#32,
        { bitpos := 32#32, blkidx := 1#32, blkbits := 0#32, totalbits := 28#32 }, 12#32, 10#32,
        { low := 0x2E450000#32, high := 0x760063A0#32 }) := by decide +kernel

/-- V-CMP-1, rows 1 to 5 and 7: WIDTH, HEIGHT, BSIZE, QLEVEL, and the STATUS after. -/
theorem test_compress_checks :
    [(16#16, 16#16, 8#8, 0#16), (4#16, 4#16, 0#8, 8#16), (0#16, 0#16, 0#8, 0#16), (0#16, 16#16, 8#8, 8#16),
      (1024#16, 257#16, 8#8, 8#16), (65#16, 65#16, 1#8, 8#16)].map
        (fun p => (after .compress { State.reset with
          width := p.1, height := p.2.1, qlevel := p.2.2.2
          config := { bsize := p.2.2.1, cspace := true, adapt := false } }).status.word) =
      [0x00000406#32, 0x00000406#32, 0x00000406#32, 0x00000506#32, 0x00000506#32, 0x00000506#32] := by decide +kernel

/-! ### The host port and the host listings -/

/-- V-HS-1 and V-HS-4: an illegal word, the interrupt, and CLRST. -/
theorem test_illegal_word :
    (let s := hostWrite cmdOffset 0x00000004#32 { small with ier := { doneIe := false, errIe := true } }
     (s.status.word, s.irq, (hostWrite statusOffset 0x00000006#32 s).irq)) = (0x00000106#32, true, false) := by
  decide +kernel

/-- V-HS-3(a): while busy the write is dropped with ACCESS_BUSY. -/
theorem test_busy_write :
    (let t := hostWrite 0x00001C#22 4#32 (busyWith 0x01#32 small)
     (t.qlevel, t.status.word)) = (8#16, 0x00000305#32) := by decide +kernel

/-- P3's first and fourth PIX lines (R61). -/
theorem test_listing_pix :
    lineTransactions 2 (.pix 0 0 16#8 32#8 48#8) = [.write 0x100000#22 0x00302010#32] ∧
    lineTransactions 2 (.pix 1 1 64#8 32#8 16#8) = [.write 0x10000C#22 0x00102040#32] := by decide +kernel

/-- CMD and REPEAT lines (P2). -/
theorem test_listing_repeat :
    listingTransactions 0 (repeatLines 2 [.cmd .acEncode, .poll]) =
      [.write 0x00000C#22 0x00000021#32, .poll, .write 0x00000C#22 0x00000021#32, .poll] := by decide +kernel

/-- The word that the host's check stores is the word that the next step runs. -/
theorem test_step_runs_fetched_word :
    step (State.reset.withFetchWord 32 0x11) = exec .quant (State.reset.withFetchWord 32 0x11) := rfl

/-! ### Witnesses: the statements' hypotheses are met -/

/-- A state while AC_END is running, with two host transactions still to come. -/
def busy : State :=
  { busyWith 0x22#32 small with delay := 2, inbox := [.read 0x000010#22, .write 0x00001C#22 4#32] }

/-- Coding states: the table of two keys, `b` bits emitted already, and the first byte of BITS written. -/
def coding (b : Word) : State :=
  { small with
    ft := twoKeys, op0 := 0x400000#24
    pk := { bitpos := b, blkidx := 0#32, blkbits := b, totalbits := b }
    bits := { cells := [(0, 0#8)], epoch := 0 } }

/-- V-AC-7's state, with `b` bits emitted already. -/
def coding31 (b : Word) : State := { coding b with ft := fullCount }

theorem small_inv : small.Inv := inv_of small (by decide +kernel) (by decide +kernel)

theorem coding_inv : (coding 1#32).Inv ∧ (coding31 1#32).Inv ∧ (coding31 2#32).Inv ∧ (coding31 32#32).Inv :=
  ⟨inv_of _ (by decide +kernel) (by decide +kernel), inv_of _ (by decide +kernel) (by decide +kernel),
    inv_of _ (by decide +kernel) (by decide +kernel), inv_of _ (by decide +kernel) (by decide +kernel)⟩

theorem test_witness_EncodeThenDecode : Instr.acEnd.wellFormed = true := by decide

theorem test_witness_LegalWordsExactly :
    0x00000022#32 ∈ [0x00000000#32, 0x00000001#32, 0x00000002#32, 0x00000003#32, 0x00000010#32, 0x00000011#32,
      0x00000012#32, 0x00000013#32, 0x00000020#32, 0x00000021#32, 0x00000022#32] ∧
    0x00000023#32 ∉ [0x00000000#32, 0x00000001#32, 0x00000002#32, 0x00000003#32, 0x00000010#32, 0x00000011#32,
      0x00000012#32, 0x00000013#32, 0x00000020#32, 0x00000021#32, 0x00000022#32] := by decide

theorem test_witness_IllegalWordsRefused :
    small.status.busy = false ∧ decode 0x00000101#32 = .error .reservedNonzero ∧
    (∀ n ∈ [0x04, 0x0F, 0x14, 0x1F, 0x23, 0xFF], decode (BitVec.ofNat 32 n) = .error .unknownOpcode) := by decide +kernel

theorem test_witness_StepRunsPendingCommand :
    (busyWith 0x22#32 small).status.busy = true ∧ (busyWith 0x22#32 small).pending = some 0x22#32 ∧
    decode 0x22#32 = .ok .acEnd ∧ (busyWith 0x22#32 small).inbox = [] ∧
    ({ busy with delay := 0 } : State).status.busy = true ∧ ({ busy with delay := 0 } : State).delay = 0 := by decide +kernel

theorem test_witness_ReadChangesNothing :
    ({ small with inbox := [.read 0x10#22] } : State).inbox = .read 0x10#22 :: [] ∧ small.status.busy = false ∧
    busy.inbox = .read 0x10#22 :: [.write 0x00001C#22 4#32] ∧ 0 < busy.delay ∧
    ({ busy with inbox := [.write 0x00001C#22 4#32] } : State).inbox = .write 0x00001C#22 4#32 :: [] ∧
    ({ small with inbox := [.write 0x00000C#22 0x22#32] } : State).inbox = .write 0x00000C#22 0x22#32 :: [] ∧
    small.inbox = [] := by decide +kernel

theorem test_witness_CommandsWriteOnlyTheirColumn :
    exec .nop small = .next (after .nop small) ∧ exec .compress small = .next (after .compress small) ∧
    exec .ftClear small = .next (after .ftClear small) ∧ exec .pkReset small = .next (after .pkReset small) ∧
    exec .xform small = .next (after .xform small) ∧ exec .quant small = .next (after .quant small) ∧
    exec .prob small = .next (after .prob small) ∧ exec .ftInc small = .next (after .ftInc small) ∧
    exec .acBegin small = .next (after .acBegin small) ∧ exec .acEncode small = .next (after .acEncode small) ∧
    exec .acEnd small = .next (after .acEnd small) :=
  ⟨after_eq _ _, after_eq _ _, after_eq _ _, after_eq _ _, after_eq _ _, after_eq _ _, after_eq _ _, after_eq _ _,
    after_eq _ _, after_eq _ _, after_eq _ _⟩

theorem test_witness_ReferenceModeKeepsTable :
    small.config.adapt = false ∧ Instr.acEncode ≠ .ftInc ∧ Instr.acEncode ≠ .ftClear ∧
    exec .acEncode small = .next (after .acEncode small) := ⟨rfl, by decide, by decide, after_eq _ _⟩

theorem test_witness_ValidOnlyByCompress :
    exec .acBegin small = .next (after .acBegin small) ∧ exec .nop small = .next (after .nop small) :=
  ⟨after_eq _ _, after_eq _ _⟩

theorem test_witness_CommandErrorCodes :
    small.status.err = false ∧ small.status.code = .none ∧ exec .acEnd small = .next (after .acEnd small) :=
  ⟨rfl, rfl, after_eq _ _⟩

/-- A state that already has an error. -/
def failed : State := { small with status := { small.status with err := true, code := .illegalCmd } }

theorem test_witness_FirstErrorWins :
    (failed.status.err = true ∧ exec .quant failed = .next (after .quant failed)) ∧
    (¬ (4 * ((0x00000C#22).toNat / 4) = 0x010 ∧ (0xFF#32).getLsbD 2 = true) ∧
      ¬ (4 * ((0x00000C#22).toNat / 4) = 0x008 ∧ (0xFF#32).getLsbD 0 = true)) ∧
    (6#32).getLsbD 2 = true ∧ failed.status.busy = false ∧ decode 0x00#32 = .ok .nop :=
  ⟨⟨rfl, after_eq _ _⟩, by decide, by decide, rfl, by decide⟩

theorem test_witness_XformRange : (2 : Nat) ^ 24 - 1 < 2 ^ 24 ∧ (0 : Nat) < 2 ^ 24 := by decide

theorem test_witness_QuantResult :
    ({ small with qlevel := 65535#16 } : State).qlevel ≠ 0#16 ∧ ({ small with qlevel := 1#16 } : State).qlevel ≠ 0#16 ∧
    ({ small with qlevel := 0#16 } : State).qlevel = 0#16 := by decide +kernel

theorem test_witness_QuantLaws :
    (1 ≤ 1 ∧ 1 ≤ 65535 ∧ 1 = 2 ^ 0) ∧ (1 ≤ 65535 ∧ 65535 ≤ 65535) ∧ (1 ≤ 32768 ∧ 32768 ≤ 65535 ∧ 32768 = 2 ^ 15) := by
  decide

theorem test_witness_IntervalLaw : twoKeys.wf ∧ fullCount.wf ∧ FreqTable.empty.wf := by decide +kernel

theorem test_witness_FtIncResult :
    ({ small with ft := fullCount } : State).ft.total = 0xFFFFFFFF#32 ∧
    (twoKeys.total ≠ 0xFFFFFFFF#32 ∧ twoKeys.present { ctx := [], value := 0x400000#24 } = true) ∧
    (twoKeys.present { ctx := [], value := 0x600000#24 } = false ∧
      ({ small with ft := twoKeys } : State).ft.used.toNat = ({ small with ft := twoKeys } : State).caps.ftEntries) ∧
    (small.ft.total ≠ 0xFFFFFFFF#32 ∧ small.ft.present { ctx := [], value := 0x600000#24 } = false ∧
      small.ft.used.toNat ≠ small.caps.ftEntries) := by decide +kernel

/-- One bit (the top half), and 31 bits that just fit. -/
theorem test_witness_AcEncodeCodes :
    ((coding 1#32).Inv ∧
      narrowedLow (coding 1#32).coder 2 3 = 0x40000000 ∧ narrowedHigh (coding 1#32).coder 2 3 = 0x60000000 ∧
      renormTurns 0x40000000 0x60000000 1 ∧ (coding 1#32).pk.bitpos.toNat + 1 ≤ 8 * (coding 1#32).caps.bitsBytes) ∧
    ((coding31 1#32).Inv ∧ narrowedLow (coding31 1#32).coder 0xFFFFFFFF 0xFFFFFFFF = 0x7FFFFFFF ∧
      narrowedHigh (coding31 1#32).coder 0xFFFFFFFF 0xFFFFFFFF = 0x80000000 ∧ renormTurns 0x7FFFFFFF 0x80000000 31 ∧
      (coding31 1#32).pk.bitpos.toNat + 31 = 8 * (coding31 1#32).caps.bitsBytes) ∧
    (coding 1#32).config.adapt = false ∧
    ((coding 1#32).ft.count { ctx := [], value := (coding 1#32).op0 } = 2#32 ∧ (coding 1#32).ft.total = 3#32) ∧
    ((coding31 1#32).ft.count { ctx := [], value := (coding31 1#32).op0 } = 0xFFFFFFFF#32 ∧
      (coding31 1#32).ft.total = 0xFFFFFFFF#32) :=
  ⟨⟨coding_inv.1, by decide +kernel⟩, ⟨coding_inv.2.1, by decide +kernel⟩, by decide +kernel⟩

/-- In adaptive mode, with the key present and with the key absent and room left. -/
theorem test_witness_AcEncodeCodes_adaptive :
    (({ coding 1#32 with config := adaptive } : State).config.adapt = true ∧ (coding 1#32).ft.total ≠ 0xFFFFFFFF#32 ∧
      (coding 1#32).ft.present { ctx := [], value := 0x400000#24 } = true) ∧
    ({ coding 1#32 with config := adaptive } : State).Inv ∧
    (small.ft.present { ctx := [], value := 0#24 } = false ∧ small.ft.used.toNat ≠ small.caps.ftEntries ∧
      renormTurns 0 0x80000000 0 ∧ narrowedLow small.coder 0 0 = 0 ∧ narrowedHigh small.coder 0 0 = 0x80000000) :=
  ⟨by decide +kernel, inv_of _ (by decide +kernel) (by decide +kernel), by decide +kernel⟩

/-- V-AC-8. -/
theorem test_witness_AcEncodeDegenerate :
    (coding31 1#32).Inv ∧ (coding31 1#32).ft.count { ctx := [], value := 0x100000#24 } = 0#32 ∧
    narrowedLow (coding31 1#32).coder 0 0xFFFFFFFF = narrowedHigh (coding31 1#32).coder 0 0xFFFFFFFF :=
  ⟨coding_inv.2.1, by decide +kernel⟩

/-- 30 of 31 bits fit, and none of them. -/
theorem test_witness_AcEncodeOutOverflow :
    ((coding31 2#32).Inv ∧ renormTurns 0x7FFFFFFF 0x80000000 31 ∧ 30 < 31 ∧
      (coding31 2#32).pk.bitpos.toNat + 30 = 8 * (coding31 2#32).caps.bitsBytes) ∧
    ((coding31 32#32).Inv ∧ 0 < 31 ∧ (coding31 32#32).pk.bitpos.toNat + 0 = 8 * (coding31 32#32).caps.bitsBytes) :=
  ⟨⟨coding_inv.2.2.1, by decide +kernel⟩, coding_inv.2.2.2, by decide +kernel⟩

/-- COUNT_OVERFLOW at 31 bits (V-AC-7), and FT_FULL with the third key in a table of two: c = 0, t = 3 narrows to
[0, 0x20000000), two bits. -/
theorem test_witness_AcEncodeTableErrors :
    (({ coding31 1#32 with config := adaptive } : State).Inv ∧
      ({ coding31 1#32 with config := adaptive } : State).config.adapt = true ∧ fullCount.total = 0xFFFFFFFF#32) ∧
    (({ coding 1#32 with config := adaptive, op0 := 0x600000#24 } : State).Inv ∧
      narrowedLow Coder.full 0 3 = 0 ∧ narrowedHigh Coder.full 0 3 = 0x20000000 ∧ renormTurns 0 0x20000000 1 ∧
      twoKeys.present { ctx := [], value := 0x600000#24 } = false ∧ twoKeys.used.toNat = smallCaps.ftEntries) :=
  ⟨⟨inv_of _ (by decide +kernel) (by decide +kernel), by decide +kernel⟩,
    inv_of _ (by decide +kernel) (by decide +kernel), by decide +kernel⟩

theorem test_witness_RenormBound :
    (0x7FFFFFFF < 2 ^ 31 ∧ 2 ^ 31 ≤ 2 ^ 31) ∧ (0 < 1 ∧ 1 ≤ 2 ^ 31) ∧
    ((coding31 1#32).Inv ∧ (coding31 1#32).pk.bitpos.toNat + 31 = 8 * (coding31 1#32).caps.bitsBytes) :=
  ⟨by decide, by decide, coding_inv.2.1, by decide +kernel⟩

theorem test_witness_PushShiftsHistory :
    (History.empty.push 1#24).len.val < 4 ∧
    ¬ ((((History.empty.push 1#24).push 2#24).push 3#24).push 4#24).len.val < 4 := by decide

theorem test_witness_ReferenceModeEmitsNothing :
    small.config.adapt = false ∧ small.ft = { entries := [], total := 0#32, used := 0#32 } ∧
    small.coder = { low := 0x00000000#32, high := 0x80000000#32 } := by decide +kernel

theorem test_witness_AcEndResult :
    ({ small with pk := { Packer.zero with blkidx := 1#32 } } : State).pk.blkidx.toNat < small.caps.lenWords ∧
    small.caps.lenWords ≤ ({ small with pk := { Packer.zero with blkidx := 2#32 } } : State).pk.blkidx.toNat := by
  decide +kernel

/-- A 10 by 10 image in blocks of 8: the last pixel, and the first padding position of V-L1-P2. -/
theorem test_witness_TilerCovers :
    (let s : State := { State.reset with width := 10#16, height := 10#16 }
     s.config.bsize ≠ 0#8 ∧ s.width ≠ 0#16 ∧ s.height ≠ 0#16 ∧
      (9 < s.width.toNat ∧ 9 < s.height.toNat ∧ 9 = 1 * s.config.bsize.toNat + 1) ∧
      (10 = 1 * s.config.bsize.toNat + 2 ∧ ¬ (10 < s.width.toNat ∧ 0 < s.height.toNat))) := by decide +kernel

theorem test_witness_BlockSequence : 7 < small.config.bsize.toNat ∧ 0 < small.config.bsize.toNat := by decide +kernel

/-- Each check failing alone: BSIZE, QLEVEL, WIDTH, HEIGHT, the image one pixel too large, one block too many. -/
theorem test_witness_CompressChecks :
    ({ small with config := { small.config with bsize := 0#8 } } : State).config.bsize = 0#8 ∧
    ({ small with qlevel := 0#16 } : State).qlevel = 0#16 ∧
    (small.config.bsize ≠ 0#8 ∧ small.qlevel ≠ 0#16 ∧ small.width = 0#16) ∧
    ({ small with width := 1#16 } : State).height = 0#16 ∧
    small.caps.imgBytes < ({ small with width := 5#16, height := 1#16 } : State).width.toNat *
      ({ small with width := 5#16, height := 1#16 } : State).height.toNat * 4 ∧
    small.caps.lenWords < (3 + 1 - 1) / 1 * ((1 + 1 - 1) / 1) := by decide +kernel

theorem test_witness_CompressReference :
    (let s : State := { small with width := 4#16, height := 1#16, config := { bsize := 2#8, cspace := true, adapt := false } }
     s.config.bsize ≠ 0#8 ∧ s.qlevel ≠ 0#16 ∧ s.width ≠ 0#16 ∧ s.height ≠ 0#16 ∧
      s.width.toNat * s.height.toNat * 4 = s.caps.imgBytes ∧ s.blockCount = s.caps.lenWords ∧ s.config.adapt = false ∧
      s.ft = { entries := [], total := 0#32, used := 0#32 }) := by decide +kernel

/-- P3, which completes, and P3 on a device whose table holds one key only, which aborts with FT_FULL. -/
theorem test_witness_CompressIsUnitCommands :
    p3.config.bsize ≠ 0#8 ∧ p3.qlevel ≠ 0#16 ∧ p3.width ≠ 0#16 ∧ p3.height ≠ 0#16 ∧
    p3.width.toNat * p3.height.toNat * 4 = p3.caps.imgBytes ∧ p3.blockCount = p3.caps.lenWords ∧
    p3.status.err = false ∧ (after .compress p3).status.err = false ∧
    (let s : State := { p3 with caps := { p3.caps with ftEntries := 1 } }
     s.config.bsize ≠ 0#8 ∧ s.qlevel ≠ 0#16 ∧ s.width ≠ 0#16 ∧ s.height ≠ 0#16 ∧
      s.width.toNat * s.height.toNat * 4 = s.caps.imgBytes ∧ s.blockCount = s.caps.lenWords ∧ s.status.err = false ∧
      (after .compress s).status.code = .ftFull) := by decide +kernel

/-- P3: a run that emits 28 bits. -/
theorem test_witness_CompressOutput :
    p3.Inv ∧ exec .compress p3 = .next (after .compress p3) ∧ (after .compress p3).status.valid = true :=
  ⟨inv_of p3 (by decide +kernel) (by decide +kernel), after_eq _ _, by decide +kernel⟩

theorem test_witness_CompressValidity :
    p3.status.err = false ∧ exec .compress p3 = .next (after .compress p3) := ⟨rfl, after_eq _ _⟩

/-- One symbol, two places in the stream and in LEN: the first just fits its 31 bits. -/
theorem test_witness_BlockIndependence :
    (let u : State := { coding 1#32 with
       caps := { smallCaps with bitsBytes := 8 }, op0 := 0#24
       pk := { bitpos := 8#32, blkidx := 1#32, blkbits := 0#32, totalbits := 8#32 } }
     (coding 1#32).Inv ∧ u.Inv ∧ (coding 1#32).status.err = false ∧ u.status.err = false ∧
      (coding 1#32).config = u.config ∧ (coding 1#32).ft = u.ft ∧ (coding 1#32).caps.ftEntries = u.caps.ftEntries ∧
      (coding 1#32).pk.blkidx.toNat < (coding 1#32).caps.lenWords ∧ u.pk.blkidx.toNat < u.caps.lenWords ∧
      (coding 1#32).pk.bitpos.toNat + 31 * [0x400000#24].length = 8 * (coding 1#32).caps.bitsBytes ∧
      u.pk.bitpos.toNat + 31 * [0x400000#24].length ≤ 8 * u.caps.bitsBytes) :=
  ⟨coding_inv.1, inv_of _ (by decide +kernel) (by decide +kernel), by decide +kernel⟩

theorem test_witness_CmdWrite :
    busy.status.busy = true ∧ (small.status.busy = false ∧ decode 0x04#32 = .error .unknownOpcode) ∧
    decode 0x22#32 = .ok .acEnd := by decide +kernel

/-- The frozen registers, and the first and the last word of IMG. -/
theorem test_witness_BusyWritesDropped :
    busy.status.busy = true ∧
    4 * ((0x00001B#22).toNat / 4) ∈ [0x018, 0x01C, 0x020, 0x024, 0x040, 0x044, 0x048] ∧
    4 * ((0x000048#22).toNat / 4) ∈ [0x018, 0x01C, 0x020, 0x024, 0x040, 0x044, 0x048] ∧
    (∀ n ∈ [0x100000, 0x10000F], 0x100000 ≤ 4 * ((BitVec.ofNat 22 n).toNat / 4) ∧
      4 * ((BitVec.ofNat 22 n).toNat / 4) < 0x100000 + busy.caps.imgBytes ∧
      4 * ((BitVec.ofNat 22 n).toNat / 4) < 0x200000) := by decide +kernel

/-- A register, and the first and last words of LEN, of BITS and of IMG. -/
theorem test_witness_BusyReads :
    busy.status.busy = true ∧ busy.caps.legal = true ∧
    4 * ((0x00009C#22).toNat / 4) ∈ [0x028, 0x02C, 0x030, 0x034, 0x038, 0x050, 0x054, 0x058, 0x060, 0x064, 0x080, 0x084,
      0x088, 0x090, 0x094, 0x098, 0x09C] ∧
    (∀ n ∈ [0x200000, 0x200007], 0x200000 ≤ 4 * ((BitVec.ofNat 22 n).toNat / 4) ∧
      4 * ((BitVec.ofNat 22 n).toNat / 4) < 0x200000 + 4 * busy.caps.lenWords) ∧
    (∀ n ∈ [0x300000, 0x300003], 0x300000 ≤ 4 * ((BitVec.ofNat 22 n).toNat / 4) ∧
      4 * ((BitVec.ofNat 22 n).toNat / 4) < 0x300000 + busy.caps.bitsBytes) ∧
    4 * ((0x000000#22).toNat / 4) ∈ [0x000, 0x004, 0x008, 0x00C, 0x014, 0x018, 0x01C, 0x020, 0x024, 0x040, 0x044, 0x048,
      0x068, 0x06C, 0x070, 0x074] ∧
    (∀ n ∈ [0x100000, 0x10000F], 0x100000 ≤ 4 * ((BitVec.ofNat 22 n).toNat / 4) ∧
      4 * ((BitVec.ofNat 22 n).toNat / 4) < 0x100000 + busy.caps.imgBytes) ∧
    4 * ((0x000013#22).toNat / 4) = 0x010 := by decide +kernel

theorem test_witness_RegisterReads : small.status.busy = false := rfl

theorem test_witness_RegisterWrites : small.status.busy = false := rfl

theorem test_witness_ReadOnlyIgnored :
    4 * ((0x000000#22).toNat / 4) ∈ [0x000, 0x004, 0x028, 0x02C, 0x030, 0x034, 0x038, 0x050, 0x054, 0x058, 0x060, 0x064,
      0x068, 0x06C, 0x070, 0x074, 0x080, 0x084, 0x088, 0x090, 0x094, 0x098, 0x09C] ∧
    0x200000 ≤ 4 * ((0x200000#22).toNat / 4) ∧ 0x200000 ≤ 4 * ((0x3FFFFF#22).toNat / 4) := by decide

/-- The first and last words of each hole of the map, for the small device. -/
theorem test_witness_UnmappedAccess :
    small.caps.legal = true ∧
    (∀ a ∈ [0x03C, 0x04C, 0x05C, 0x078, 0x07C, 0x08C, 0x0A0, 0xFFC], a < 0x1000 ∧
      a ∉ [0x000, 0x004, 0x008, 0x00C, 0x010, 0x014, 0x018, 0x01C, 0x020, 0x024, 0x028, 0x02C, 0x030, 0x034, 0x038, 0x040,
        0x044, 0x048, 0x050, 0x054, 0x058, 0x060, 0x064, 0x068, 0x06C, 0x070, 0x074, 0x080, 0x084, 0x088, 0x090, 0x094,
        0x098, 0x09C] ∧ a = 4 * ((BitVec.ofNat 22 a).toNat / 4)) ∧
    (∀ a ∈ [0x1000, 0x0FFFFC], 0x1000 ≤ a ∧ a < 0x100000 ∧ a = 4 * ((BitVec.ofNat 22 a).toNat / 4)) ∧
    (∀ a ∈ [0x100010, 0x1FFFFC], 0x100000 + small.caps.imgBytes ≤ a ∧ a < 0x200000 ∧
      a = 4 * ((BitVec.ofNat 22 a).toNat / 4)) ∧
    (∀ a ∈ [0x200008, 0x2FFFFC], 0x200000 + 4 * small.caps.lenWords ≤ a ∧ a < 0x300000 ∧
      a = 4 * ((BitVec.ofNat 22 a).toNat / 4)) ∧
    (∀ a ∈ [0x300004, 0x3FFFFC], 0x300000 + small.caps.bitsBytes ≤ a ∧ a = 4 * ((BitVec.ofNat 22 a).toNat / 4)) := by
  decide +kernel

/-- The first and last words of IMG. -/
theorem test_witness_ImgWordReadBack :
    small.status.busy = false ∧ small.caps.legal = true ∧
    (4 * ((0x100000#22).toNat / 4) = 0x100000 + 0 ∧ 0 < small.caps.imgBytes) ∧
    (4 * ((0x10000F#22).toNat / 4) = 0x100000 + 12 ∧ 12 < small.caps.imgBytes) := by decide +kernel

/-- The first and the last pixel of a 2 by 2 image in the small device. -/
theorem test_witness_PixWritesPixel :
    (let s : State := { small with width := 2#16, height := 2#16 }
     s.status.busy = false ∧ s.caps.legal = true ∧ 4 * (0 * s.width.toNat + 0) < s.caps.imgBytes ∧
      4 * (1 * s.width.toNat + 1) < s.caps.imgBytes) := by decide +kernel

theorem test_witness_PollReadsStatus :
    ({ busy with inbox := [.poll] } : State).inbox = .poll :: [] ∧ 0 < busy.delay ∧
    ({ small with inbox := [.poll] } : State).inbox = .poll :: [] ∧ small.status.busy = false := by decide +kernel

/-- The first and last words of LEN and of BITS. -/
theorem test_witness_OutputReads :
    small.status.busy = false ∧ small.caps.legal = true ∧
    (4 * ((0x200000#22).toNat / 4) = 0x200000 + 0 ∧ 0 < 4 * small.caps.lenWords) ∧
    (4 * ((0x200004#22).toNat / 4) = 0x200000 + 4 ∧ 4 < 4 * small.caps.lenWords) ∧
    (4 * ((0x300000#22).toNat / 4) = 0x300000 + 0 ∧ 0 < small.caps.bitsBytes) := by decide +kernel

theorem test_witness_InterruptOutput : small.status.busy = false ∧ decode 0x00#32 = .ok .nop := by decide +kernel

theorem test_witness_SoftReset :
    (0xFFFFFFFE#32).getLsbD 0 = false ∧ (0x00000001#32).getLsbD 0 = true ∧ small.status.busy = false ∧
    busy.status.busy = true := by decide +kernel

theorem test_witness_PowerOnReset :
    ({ busy with inbox := [.powerOn] } : State).inbox = .powerOn :: [] ∧ 0 < busy.delay ∧
    ({ small with inbox := [.powerOn] } : State).inbox = .powerOn :: [] ∧ small.status.busy = false := by decide +kernel

/-- A step of the host's and a step of the engine's, from states with the invariant. -/
theorem test_witness_InvariantKept :
    small.Inv ∧ step small = .next small ∧
    (busyWith 0x22#32 small).Inv ∧ step (busyWith 0x22#32 small) = .next (after .acEnd (busyWith 0x22#32 small)) :=
  ⟨small_inv, rfl, inv_of _ (by decide +kernel) (by decide +kernel),
    (show step (busyWith 0x22#32 small) = exec .acEnd (busyWith 0x22#32 small) from rfl).trans (after_eq _ _)⟩

theorem test_witness_RunsNeverStop : small.Inv := small_inv

theorem test_witness_BusyEnds : busy.status.busy = true ∧ busy.pendingLegal := by decide +kernel

/-- A read while the command waits for its turn. -/
theorem test_witness_FrozenWhileBusy :
    busy.status.busy = true ∧ step busy = .next (hostTurn busy) ∧ (hostTurn busy).status.busy = true := ⟨rfl, rfl, rfl⟩

end Sys2Proof.Tests
end

section
/-! PROOFS. The engine step of a command, said once for all eleven: the rule that it runs, the errors that the rule can
raise, and what the rule does to STATUS. -/

namespace Sys2Proof.Machine

open Sys2Proof

/-! ### Commands as rules -/

/-- The rule of each command (R58): its engine step is the rule and then completion or abort. -/
def commandRule : Instr → State → Run
  | .nop => nopRule
  | .compress => compressRule
  | .ftClear => ftClearRule
  | .pkReset => pkResetRule
  | .xform => xformRule
  | .quant => quantRule
  | .prob => probRule
  | .ftInc => ftIncRule
  | .acBegin => acBeginRule
  | .acEncode => acEncodeRule
  | .acEnd => acEndRule

theorem exec_eq_complete (i : Instr) (s : State) : exec i s = .next (complete (commandRule i s)) := by
  cases i <;> rfl

theorem exec_next_iff {i : Instr} {s t : State} : exec i s = .next t ↔ t = complete (commandRule i s) := by
  rw [exec_eq_complete, Host.Outcome.next.injEq, eq_comm]

@[simp] theorem complete_valid (r : Run) : (complete r).status.valid = r.state.status.valid := by
  cases r <;> rfl

@[simp] theorem complete_busy (r : Run) : (complete r).status.busy = false := by
  cases r <;> rfl

/-- What QUANT does (R73): level 0 raises, else RES0 takes the quantized operand. -/
theorem quantRule_cases (s : State) :
    (s.level = 0 ∧ quantRule s = .raised .configError s) ∨
    (s.level ≠ 0 ∧ quantRule s = .ok { s with res0 := (quantize s.symbolOperand s.level).setWidth 32 }) := by
  unfold quantRule
  split
  · exact .inl ⟨‹_›, rfl⟩
  · exact .inr ⟨‹_›, rfl⟩

/-- What AC_END does (R96): with no LEN entry left it raises, else it closes the block. -/
theorem acEndRule_cases (s : State) :
    (s.caps.lenWords ≤ s.pk.blkidx.toNat ∧ acEndRule s = .raised .outOverflow s.clearValid) ∨
    (s.pk.blkidx.toNat < s.caps.lenWords ∧ acEndRule s = .ok (closeBlock s.clearValid)) := by
  unfold acEndRule
  split
  · exact .inl ⟨‹_›, rfl⟩
  · exact .inr ⟨by omega, rfl⟩

/-- The checks of COMPRESS all pass (R100). -/
theorem compressCheck_eq_none_iff (s : State) :
    compressCheck s = none ↔
      (s.side ≠ 0 ∧ s.level ≠ 0) ∧ (s.imgWidth ≠ 0 ∧ s.imgHeight ≠ 0) ∧
        4 * (s.imgWidth * s.imgHeight) ≤ s.caps.imgBytes ∧ s.blockCount ≤ s.caps.lenWords := by
  simp only [compressCheck, ite_eq_iff, reduceCtorEq, and_false, false_or, and_true, not_or, not_lt]

/-- The two errors of the checks of COMPRESS (R100). -/
theorem compressCheck_eq_some {s : State} {e : ErrCode} (h : compressCheck s = some e) :
    e = .configError ∨ e = .shapeError := by
  simp only [compressCheck, ite_eq_iff, Option.some.injEq, reduceCtorEq, and_false, or_false] at h
  rcases h with ⟨-, h⟩ | ⟨-, ⟨-, h⟩ | ⟨-, ⟨-, h⟩ | ⟨-, -, h⟩⟩⟩ <;> simp [← h]

/-- What COMPRESS does (R104): a check that fails raises, else it codes its blocks. -/
theorem compressRule_cases (s : State) :
    (∃ e, compressCheck s = some e ∧ compressRule s = .raised e s.clearValid) ∨
    (compressCheck s = none ∧ compressRule s =
      (forEach codeBlock (List.range s.blockCount) (compressSetup s.clearValid)).andThen fun t => .ok t.setValid) := by
  unfold compressRule
  split
  · exact .inl ⟨_, ‹_›, rfl⟩
  · exact .inr ⟨‹_›, rfl⟩

/-! ### The errors that a rule can raise -/

theorem ftIncrement_raised {k : Key} {s t : State} {e : ErrCode} (h : ftIncrement k s = .raised e t) :
    e ∈ [.ftFull, .countOverflow] := by
  rcases ftIncrement_cases k s with ⟨-, h'⟩ | ⟨-, -, h'⟩ | ⟨-, -, -, h'⟩ | ⟨-, -, -, h'⟩ <;> simp_all

theorem emit_raised {b : Bool} {s t : State} {e : ErrCode} (h : emit b s = .raised e t) : e = .outOverflow := by
  rcases emit_cases b s with ⟨-, h'⟩ | ⟨-, h'⟩ <;> simp_all

theorem narrow_raised {c d : Word} {s t : State} {e : ErrCode} (h : narrow c d s = .raised e t) :
    e = .codingDegeneracy := by
  rcases narrow_cases c d s with ⟨-, h'⟩ | ⟨k, -, h'⟩ <;> simp_all

theorem renormLoop_raised {n : Nat} {s t : State} {e : ErrCode} (h : renormLoop n s = .raised e t) :
    e = .outOverflow := by
  induction n generalizing s with
  | zero => cases h
  | succ n ih =>
    unfold renormLoop at h
    split at h
    · rcases andThen_raised_iff.mp h with h | ⟨u, -, h⟩
      · exact emit_raised h
      · exact ih h
    · split at h
      · rcases andThen_raised_iff.mp h with h | ⟨u, -, h⟩
        · exact emit_raised h
        · exact ih h
      · cases h

/-- The errors of coding a symbol, those of AC_ENCODE: narrowing, renormalization and the increment of the adaptive mode
(R91). -/
theorem encodeSymbol_raised {v : Sym} {s t : State} {e : ErrCode} (h : encodeSymbol v s = .raised e t) :
    e ∈ (errorCodes .acEncode).tail := by
  unfold encodeSymbol at h
  rcases andThen_raised_iff.mp h with h | ⟨s1, -, h⟩
  · simp [narrow_raised h, errorCodes]
  rcases andThen_raised_iff.mp h with h | ⟨s2, -, h⟩
  · simp [renormLoop_raised h, errorCodes]
  rcases andThen_raised_iff.mp h with h | ⟨s3, -, h⟩
  · rcases adaptTable_cases (s.keyOf v) s2 with ⟨-, h'⟩ | ⟨-, h'⟩ <;> rw [h'] at h
    · cases h
    · have htable : [ErrCode.ftFull, .countOverflow] ⊆ (errorCodes .acEncode).tail := by decide
      exact htable (ftIncrement_raised h)
  · cases h

theorem codeBlock_raised {i : Nat} {s t : State} {e : ErrCode} (h : codeBlock i s = .raised e t) :
    e ∈ (errorCodes .acEncode).tail := by
  rcases andThen_raised_iff.mp h with h | ⟨u, -, h⟩
  · exact forEach_raised (Q := (· ∈ (errorCodes .acEncode).tail)) _ (fun _ _ _ _ _ => encodeSymbol_raised) _ _ _ h
  · cases h

theorem compressRule_raised {s t : State} {e : ErrCode} (h : compressRule s = .raised e t) :
    e ∈ (errorCodes .compress).tail := by
  rcases compressRule_cases s with ⟨c, hc, h'⟩ | ⟨-, h'⟩ <;> rw [h'] at h
  · obtain ⟨rfl, -⟩ := Run.raised.inj h
    rcases compressCheck_eq_some hc with rfl | rfl <;> simp [errorCodes]
  · have hcoding : (errorCodes .acEncode).tail ⊆ (errorCodes .compress).tail := by decide
    rcases andThen_raised_iff.mp h with h | ⟨u, -, h⟩
    · exact hcoding
        (forEach_raised (Q := (· ∈ (errorCodes .acEncode).tail)) _ (fun _ _ _ _ _ => codeBlock_raised) _ _ _ h)
    · cases h

/-- What a command raises is one of its codes of R110, and never the code that stands for no error. -/
theorem commandRule_raised {i : Instr} {s t : State} {e : ErrCode} (h : commandRule i s = .raised e t) :
    e ∈ (errorCodes i).tail := by
  cases i with
  | nop | ftClear | pkReset | xform | prob | acBegin => cases h
  | compress => exact compressRule_raised h
  | quant => rcases quantRule_cases s with ⟨-, h'⟩ | ⟨-, h'⟩ <;> simp_all [commandRule, errorCodes]
  | ftInc => exact ftIncrement_raised h
  | acEncode => exact encodeSymbol_raised h
  | acEnd => rcases acEndRule_cases s with ⟨-, h'⟩ | ⟨-, h'⟩ <;> simp_all [commandRule, errorCodes]

theorem commandRule_raised_ne_none {i : Instr} {s t : State} {e : ErrCode} (h : commandRule i s = .raised e t) :
    e ≠ .none := by
  have htail : ErrCode.none ∉ (errorCodes i).tail := by cases i <;> decide
  exact ne_of_mem_of_not_mem (commandRule_raised h) htail

/-! ### STATUS before completion -/

theorem forEach_encodeSymbol_codesFrom (l : List Sym) (s : State) : codesFrom s (forEach encodeSymbol l s).state :=
  forEach_keeps (P := codesFrom s) l (fun v _ t ht => ht.trans (encodeSymbol_codesFrom v t)) s (codesFrom.refl s)

theorem codeBlock_status (i : Nat) (s : State) : (codeBlock i s).state.status = s.status := by
  have hcoded := (forEach_encodeSymbol_codesFrom (blockSeq s (i / s.blockCols) (i % s.blockCols)) (beginBlock s)).status
  refine andThen_keeps (P := fun t => t.status = s.status) hcoded fun t ht => ?_
  rw [ht] at hcoded
  exact hcoded

/-- COMPRESS writes no field of STATUS but VALID before it completes (R104). -/
theorem compressRule_status (s : State) : ∃ b, (compressRule s).state.status = { s.status with valid := b } := by
  rcases compressRule_cases s with ⟨e, -, h⟩ | ⟨-, h⟩ <;> rw [h]
  · exact ⟨false, rfl⟩
  · have hblocks := forEach_keeps (P := fun t => t.status = s.clearValid.status) (List.range s.blockCount)
      (fun i _ t ht => (codeBlock_status i t).trans ht) (compressSetup s.clearValid) rfl
    refine andThen_keeps (P := fun t => ∃ b, t.status = { s.status with valid := b }) ⟨false, hblocks⟩
      fun t ht => ⟨true, ?_⟩
    rw [ht] at hblocks
    simp_all

/-- The unit commands of the coder and the packer: VALID is their one write to STATUS (R21, R58). -/
theorem commandRule_status_of_clears {i : Instr} (s : State)
    (hi : i = .acBegin ∨ i = .acEncode ∨ i = .acEnd ∨ i = .pkReset) :
    (commandRule i s).state.status = { s.status with valid := false } := by
  rcases hi with rfl | rfl | rfl | rfl
  · rfl
  · exact (encodeSymbol_codesFrom s.symbolOperand s.clearValid).status
  · rcases acEndRule_cases s with ⟨-, h⟩ | ⟨-, h⟩ <;> rw [commandRule, h] <;> rfl
  · rfl

/-- The other unit commands write no field of STATUS before they complete (R58). -/
theorem commandRule_status_of_keeps {i : Instr} (s : State)
    (hi : i = .nop ∨ i = .ftClear ∨ i = .xform ∨ i = .quant ∨ i = .prob ∨ i = .ftInc) :
    (commandRule i s).state.status = s.status := by
  rcases hi with rfl | rfl | rfl | rfl | rfl | rfl
  · rfl
  · rfl
  · rfl
  · rcases quantRule_cases s with ⟨-, h⟩ | ⟨-, h⟩ <;> rw [commandRule, h] <;> rfl
  · rfl
  · exact (ftIncrement_codesFrom _ s).status

/-- No rule writes a field of STATUS other than VALID. -/
theorem commandRule_status (i : Instr) (s : State) :
    ∃ b, (commandRule i s).state.status = { s.status with valid := b } := by
  cases i with
  | compress => exact compressRule_status s
  | acBegin | acEncode | acEnd | pkReset => exact ⟨false, commandRule_status_of_clears s (by simp)⟩
  | nop | ftClear | xform | quant | prob | ftInc => exact ⟨s.status.valid, commandRule_status_of_keeps s (by simp)⟩

end Sys2Proof.Machine
end

section
/-! PROOFS. Every step keeps the invariant: first the part that the commands' rules can touch, then STATUS and `pending` at
completion, then each thing that the host's turn can do. -/

namespace Sys2Proof.Machine

open Sys2Proof

/-! ### The invariant without STATUS and `pending` -/

/-- The fields that the invariant speaks of, beside STATUS and `pending`. -/
def State.data (s : State) : Config.Caps × Coder × History × Packer × FreqTable × Memory × Memory × Memory :=
  (s.caps, s.coder, s.hist, s.pk, s.ft, s.img, s.lenMem, s.bits)

/-- What the invariant says of those fields. -/
structure dataSound (s : State) : Prop where
  caps   : s.caps.legal = true
  coding : codingSound s
  img    : s.img.within s.caps.imgBytes
  lenMem : s.lenMem.within (4 * s.caps.lenWords)

theorem State.Inv.dataSound {s : State} (h : s.Inv) : dataSound s :=
  ⟨h.caps, h.codingSound, h.img, h.lenMem⟩

theorem dataSound.inv {s : State} (h : dataSound s) (hst : s.status.consistent) (hp : s.pendingLegal) : s.Inv :=
  ⟨h.caps, hst, hp, h.coding.coder, h.coding.hist, h.coding.pk, h.coding.ft, h.coding.ftRoom, h.img, h.lenMem,
    h.coding.bits, h.coding.padding⟩

theorem dataSound.congr {s t : State} (h : dataSound s) (hd : t.data = s.data) : dataSound t := by
  cases t
  simp only [State.data, Prod.mk.injEq] at hd
  obtain ⟨rfl, rfl, rfl, rfl, rfl, rfl, rfl, rfl⟩ := hd
  obtain ⟨hcaps, hc, himg, hlen⟩ := h
  exact ⟨hcaps, ⟨hc.bitsCap, hc.ftCap, hc.coder, hc.hist, hc.pk, hc.ft, hc.ftRoom, hc.bits, hc.padding⟩, himg, hlen⟩

/-- Coding touches the capacities, IMG and LEN nowhere. -/
theorem dataSound.of_codesFrom {s t : State} (h : dataSound s) (hst : codesFrom s t) (ht : codingSound t) :
    dataSound t := by
  refine ⟨?_, ht, ?_, ?_⟩
  · rw [hst.caps]; exact h.caps
  · rw [hst.img, hst.caps]; exact h.img
  · rw [hst.lenMem, hst.caps]; exact h.lenMem

/-- At BITPOS = 0 no bit stands between it and a byte boundary. -/
theorem paddingClear_of_bitpos_zero {s : State} (h : s.pk.bitpos = 0#32) : s.paddingClear := by
  intro n _ hn
  simp [h, ceilDiv] at hn

theorem Packer.zero_inRange (c : Config.Caps) : Packer.zero.inRange c := by
  simp [Packer.zero, Packer.inRange]

theorem dataSound.resetPacker {s : State} (h : dataSound s) : dataSound { s with pk := Packer.zero } :=
  have hc := h.coding
  ⟨h.caps, ⟨hc.bitsCap, hc.ftCap, hc.coder, hc.hist, Packer.zero_inRange _, hc.ft, hc.ftRoom, hc.bits,
    paddingClear_of_bitpos_zero rfl⟩, h.img, h.lenMem⟩

theorem dataSound.clearTable {s : State} (h : dataSound s) : dataSound { s with ft := FreqTable.empty } :=
  have hc := h.coding
  ⟨h.caps, ⟨hc.bitsCap, hc.ftCap, hc.coder, hc.hist, hc.pk, FreqTable.wf_empty, Nat.zero_le _, hc.bits, hc.padding⟩,
    h.img, h.lenMem⟩

theorem beginBlock_dataSound {s : State} (h : dataSound s) : dataSound (beginBlock s) :=
  ⟨h.caps, beginBlock_sound h.coding, h.img, h.lenMem⟩

theorem closeBlock_dataSound {s : State} (h : dataSound s) (hidx : s.pk.blkidx.toNat < s.caps.lenWords) :
    dataSound (closeBlock s) :=
  ⟨h.caps, closeBlock_sound h.coding hidx, h.img, Memory.within_writeWord _ _ (by rw [closeBlock_caps]; omega) h.lenMem⟩

/-- An increment writes the table or nothing (R79). -/
theorem ftIncrement_state_cases (k : Key) (s : State) :
    (ftIncrement k s).state = s ∨ ∃ ft, ftIncrement k s = .ok { s with ft := ft } := by
  rcases ftIncrement_cases k s with ⟨-, h⟩ | ⟨-, -, h⟩ | ⟨-, -, -, h⟩ | ⟨-, -, -, h⟩ <;> rw [h]
  · exact .inl rfl
  · exact .inr ⟨_, rfl⟩
  · exact .inl rfl
  · exact .inr ⟨_, rfl⟩

theorem ftIncrement_dataSound {k : Key} {s : State} (hk : k.ctx.length ≤ 4) (h : dataSound s) :
    dataSound (ftIncrement k s).state := by
  have hc := h.coding
  rcases ftIncrement_state_cases k s with hrun | ⟨ft, hrun⟩
  · rw [hrun]; exact h
  · obtain ⟨hwf, hroom⟩ := ftIncrement_wf hk hc.ft hc.ftRoom hc.ftCap hrun
    rw [hrun]
    exact ⟨h.caps, ⟨hc.bitsCap, hc.ftCap, hc.coder, hc.hist, hc.pk, hwf, hroom, hc.bits, hc.padding⟩, h.img,
      h.lenMem⟩

theorem encodeSymbol_dataSound (v : Sym) {s : State} (h : dataSound s) : dataSound (encodeSymbol v s).state :=
  h.of_codesFrom (encodeSymbol_codesFrom v s) (encodeSymbol_sound v s h.coding)

/-! ### The loop of COMPRESS -/

/-- A property indexed by the number of turns still to come, and losing nothing with it, holds with index 0 where the loop
ends, gone through or raised. -/
theorem forEach_countdown {α : Type} {P : Nat → State → Prop} {f : α → State → Run}
    (hdown : ∀ n s, P (n + 1) s → P n s) (hf : ∀ a n s, P (n + 1) s → P n (f a s).state)
    (l : List α) (s : State) (hs : P l.length s) : P 0 (forEach f l s).state := by
  have hzero : ∀ n s, P n s → P 0 s := fun n => by
    induction n with
    | zero => exact fun _ h => h
    | succ n ih => exact fun s h => ih s (hdown n s h)
  induction l generalizing s with
  | nil => exact hs
  | cons a l ih =>
    have hturn := hf a l.length s hs
    refine andThen_keeps (hzero _ _ hturn) fun t ht => ih t ?_
    rwa [ht] at hturn

/-- LEN has room for `n` more blocks. -/
def blocksFit (n : Nat) (s : State) : Prop := dataSound s ∧ s.pk.blkidx.toNat + n ≤ s.caps.lenWords

theorem blocksFit.down {n : Nat} {s : State} (h : blocksFit (n + 1) s) : blocksFit n s :=
  ⟨h.1, Nat.le_of_succ_le h.2⟩

theorem closeBlock_blocksFit {n : Nat} {s : State} (h : blocksFit (n + 1) s) : blocksFit n (closeBlock s) := by
  obtain ⟨hs, hroom⟩ := h
  refine ⟨closeBlock_dataSound hs (by omega), ?_⟩
  rw [closeBlock_pk, closeBlock_caps, BitVec.toNat_add]
  simp only [BitVec.toNat_ofNat]
  omega

theorem codeBlock_blocksFit (i n : Nat) (s : State) (h : blocksFit (n + 1) s) : blocksFit n (codeBlock i s).state := by
  have hcoded : ∀ l, blocksFit (n + 1) (forEach encodeSymbol l (beginBlock s)).state := fun l =>
    have hfrom := forEach_encodeSymbol_codesFrom l (beginBlock s)
    ⟨forEach_keeps _ (fun v _ _ ht => encodeSymbol_dataSound v ht) _ (beginBlock_dataSound h.1),
      by rw [hfrom.blkidx, hfrom.caps]; exact h.2⟩
  refine andThen_keeps (hcoded _).down fun t ht => closeBlock_blocksFit ?_
  have hlast := hcoded (blockSeq s (i / s.blockCols) (i % s.blockCols))
  rwa [ht] at hlast

theorem compressRule_dataSound {s : State} (h : dataSound s) : dataSound (compressRule s).state := by
  rcases compressRule_cases s with ⟨e, -, hrun⟩ | ⟨hcheck, hrun⟩ <;> rw [hrun]
  · exact h.congr rfl
  · obtain ⟨-, -, -, hlen⟩ := (compressCheck_eq_none_iff s).mp hcheck
    have hstart : blocksFit (List.range s.blockCount).length (compressSetup s.clearValid) := by
      refine ⟨h.resetPacker.congr rfl, ?_⟩
      simpa [Packer.zero] using hlen
    have hblocks := forEach_countdown (P := blocksFit) (fun _ _ => blocksFit.down) codeBlock_blocksFit _ _ hstart
    refine andThen_keeps hblocks.1 fun t ht => ?_
    rw [ht] at hblocks
    exact hblocks.1.congr rfl

/-! ### The engine step -/

theorem commandRule_dataSound (i : Instr) {s : State} (h : dataSound s) : dataSound (commandRule i s).state := by
  have hclear : dataSound s.clearValid := h.congr rfl
  cases i with
  | nop => exact h
  | compress => exact compressRule_dataSound h
  | ftClear => exact h.clearTable
  | pkReset => exact hclear.resetPacker
  | xform => exact h.congr rfl
  | quant => rcases quantRule_cases s with ⟨-, hrun⟩ | ⟨-, hrun⟩ <;> rw [commandRule, hrun] <;> exact h.congr rfl
  | prob => exact h.congr rfl
  | ftInc => exact ftIncrement_dataSound (History.context_length s.hist) h
  | acBegin => exact (beginBlock_dataSound h).congr rfl
  | acEncode => exact encodeSymbol_dataSound _ hclear
  | acEnd =>
    rcases acEndRule_cases s with ⟨-, hrun⟩ | ⟨hidx, hrun⟩ <;> rw [commandRule, hrun]
    · exact hclear
    · exact closeBlock_dataSound hclear hidx

theorem Status.record_consistent {st : Status} {e : ErrCode} (h : st.consistent) (he : e ≠ .none) :
    (st.record e).consistent := by
  cases herr : st.err <;> simp_all [Status.consistent]

/-- Completion and abort keep ERR and ERRCODE in step, whatever error was raised (R109, R111). -/
theorem complete_consistent {r : Run} (h : r.state.status.consistent) (he : ∀ e t, r = .raised e t → e ≠ .none) :
    (complete r).status.consistent := by
  cases r with
  | ok s => exact h
  | raised e s => exact Status.record_consistent h (he e s rfl)

theorem complete_data (r : Run) : (complete r).data = r.state.data := by
  cases r <;> rfl

theorem pendingLegal_of_idle {s : State} (h : s.status.busy = false) : s.pendingLegal := by
  simp [h]

/-- The engine step of a command keeps the invariant. -/
theorem complete_commandRule_inv (i : Instr) {s : State} (h : s.Inv) : (complete (commandRule i s)).Inv := by
  have hdata := (commandRule_dataSound i h.dataSound).congr (complete_data _)
  have hstatus : (commandRule i s).state.status.consistent := by
    obtain ⟨b, hb⟩ := commandRule_status i s
    rw [hb]
    exact h.status
  exact hdata.inv (complete_consistent hstatus fun _ _ => commandRule_raised_ne_none)
    (pendingLegal_of_idle (complete_busy _))

/-! ### The host's turn -/

/-- The invariant speaks of STATUS, `pending` and the data fields alone. -/
theorem State.Inv.congr {s t : State} (h : s.Inv) (hd : t.data = s.data) (hst : t.status = s.status)
    (hp : t.pending = s.pending) : t.Inv := by
  refine dataSound.inv (h.dataSound.congr hd) (by rw [hst]; exact h.status) ?_
  have := h.pending
  unfold State.pendingLegal pendingCommand at *
  rwa [hst, hp]

/-- A change to STATUS that leaves BUSY alone. -/
theorem State.Inv.withStatus {s : State} {st : Status} (h : s.Inv) (hst : st.consistent) (hb : st.busy = s.status.busy) :
    State.Inv { s with status := st } := by
  refine dataSound.inv (h.dataSound.congr rfl) hst fun hbusy => h.pending ?_
  rwa [← hb]

theorem recordError_inv {s : State} {e : ErrCode} (h : s.Inv) (he : e ≠ .none) : (s.recordError e).Inv :=
  h.withStatus (Status.record_consistent h.status he) rfl

theorem frozenWhileBusy_inv {s t : State} (hs : s.Inv) (ht : t.Inv) : (frozenWhileBusy s t).Inv := by
  cases hb : s.status.busy with
  | false => rwa [frozenWhileBusy_idle hb]
  | true => rw [frozenWhileBusy_busy hb]; exact recordError_inv hs (by decide)

/-- At the register values of R124 the invariant asks only for legal capacities and memories within them. -/
theorem powerOnValues_inv {t : State} (hcaps : t.caps.legal = true)
    (hregs : (t.status, t.coder, t.hist, t.pk, t.ft) =
      (Status.idle, Coder.full, History.empty, Packer.zero, FreqTable.empty))
    (himg : t.img.within t.caps.imgBytes) (hlen : t.lenMem.within (4 * t.caps.lenWords))
    (hbits : t.bits.within t.caps.bitsBytes) : t.Inv := by
  simp only [Prod.mk.injEq] at hregs
  obtain ⟨hst, hcoder, hhist, hpk, hft⟩ := hregs
  refine ⟨hcaps, ?_, pendingLegal_of_idle (by rw [hst]; rfl), ?_, ?_, ?_, ?_, ?_, himg, hlen, hbits,
    paddingClear_of_bitpos_zero (by rw [hpk]; rfl)⟩
  · rw [hst]; decide
  · rw [hcoder]; decide
  · rw [hhist]; decide
  · rw [hpk]; exact Packer.zero_inRange _
  · rw [hft]; exact FreqTable.wf_empty
  · rw [hft]; exact Nat.zero_le _

theorem softReset_inv {s : State} (h : s.Inv) : (softReset s).Inv := by
  have hmem : ∀ {m : Memory} {size : Nat}, m.within size →
      (if s.status.busy then Memory.unwritten (s.draws + 1) else m).within size := fun hm => by
    split
    · exact Memory.within_unwritten _ _
    · exact hm
  exact powerOnValues_inv h.caps rfl h.img (hmem h.lenMem) (hmem h.bits)

theorem powerOn_inv {s : State} (h : s.Inv) : (powerOn s).Inv :=
  powerOnValues_inv h.caps rfl (Memory.within_unwritten _ _) (Memory.within_unwritten _ _) (Memory.within_unwritten _ _)

/-- Only a legal command word is ever accepted (R108). -/
theorem writeCmd_inv (w : Word) {s : State} (h : s.Inv) : (writeCmd w s).Inv := by
  rcases writeCmd_cases w s with ⟨-, hw⟩ | ⟨hb, -, hw⟩ | ⟨-, ⟨i, hi⟩, hw⟩ <;> rw [hw]
  · exact recordError_inv h (by decide)
  · exact h.withStatus (Status.record_consistent h.status (by decide)) rfl
  · refine dataSound.inv (h.dataSound.congr rfl) h.status fun _ => ?_
    simp [pendingCommand, hi]

theorem Status.writeOneToClear_consistent (v : Word) {st : Status} (h : st.consistent) :
    (st.writeOneToClear v).consistent := by
  cases hv : v.getLsbD 2 <;> simp_all [Status.consistent]

theorem writeCsr_ctrl (v : Word) (s : State) : writeCsr .ctrl v s = if v.getLsbD 0 then softReset s else s := rfl

theorem writeCsr_inv (c : Csr) (v : Word) {s : State} (h : s.Inv) : (writeCsr c v s).Inv := by
  cases c with
  | ctrl =>
    rw [writeCsr_ctrl]
    split
    · exact softReset_inv h
    · exact h
  | cmd => exact writeCmd_inv v h
  | status => exact h.withStatus (Status.writeOneToClear_consistent v h.status) rfl
  | ier => exact h.congr rfl rfl rfl
  | config | qlevel | width | height | op0 | op1 | op2 => exact frozenWhileBusy_inv h (h.congr rfl rfl rfl)
  | _ => exact h

theorem writeImg_inv {s : State} {off : Offset} {a : Nat} (v : Word) (h : s.Inv) (hr : regionAt s.caps off = .img a) :
    State.Inv { s with img := s.img.writeWord a v } := by
  have hcaps := h.caps
  simp only [Config.Caps.legal, Bool.and_eq_true, decide_eq_true_eq, beq_iff_eq] at hcaps
  have hfit := regionAt_img_within (by omega) hr
  exact ⟨h.caps, h.status, h.pending, h.coder, h.hist, h.pk, h.ft, h.ftRoom, Memory.within_writeWord a v hfit h.img,
    h.lenMem, h.bits, h.padding⟩

theorem hostWrite_inv (off : Offset) (v : Word) {s : State} (h : s.Inv) : (hostWrite off v s).Inv := by
  unfold hostWrite
  split
  case h_1 c _ => exact writeCsr_inv c v h
  case h_2 a hr => exact frozenWhileBusy_inv h (writeImg_inv v h hr)
  all_goals exact h

theorem takeTurn_inv (rest : List Transaction) {s : State} (h : s.Inv) : (takeTurn rest s).Inv := h.congr rfl rfl rfl

theorem hostRead_inv (off : Offset) {s : State} (h : s.Inv) : (hostRead off s).Inv := h.congr rfl rfl rfl

theorem hostTurn_inv {s : State} (h : s.Inv) : (hostTurn s).Inv := by
  unfold hostTurn
  split
  · exact h
  · exact hostRead_inv _ (takeTurn_inv _ h)
  · exact hostWrite_inv _ _ (takeTurn_inv _ h)
  · exact hostRead_inv _ (takeTurn_inv _ h)
  · exact powerOn_inv (takeTurn_inv _ h)

/-! ### A step -/

/-- Whose turn a step that goes on was (R109). -/
theorem step_next_cases {s t : State} (h : step s = .next t) :
    (∃ i, engineTurn s = true ∧ pendingCommand s = some i ∧ t = complete (commandRule i s)) ∨
    (engineTurn s = false ∧ t = hostTurn s) := by
  unfold step at h
  split at h
  · split at h
    · exact .inl ⟨_, ‹_›, ‹_›, exec_next_iff.mp h⟩
    · cases h
  · exact .inr ⟨by simpa using ‹¬engineTurn s = true›, (Host.Outcome.next.inj h).symm⟩

end Sys2Proof.Machine
end

section
/-! PROOFS. The register map seen from the host port: what an offset reads, what a write to it stores, and the offsets at which
both do nothing. -/

namespace Sys2Proof.Machine

open Sys2Proof

/-! ### The address map -/

theorem assocFind_eq_none_iff {α β : Type} (rank : α → Nat) (n : Nat) (l : List (α × β)) :
    assocFind rank n l = none ↔ n ∉ l.map fun e => rank e.1 := by
  induction l with
  | nil => simp [assocFind]
  | cons e l ih =>
    rw [assocFind, List.map_cons, List.mem_cons, not_or, ← ih]
    by_cases he : rank e.1 = n
    · simp [he]
    · simp [he, Ne.symm he]

/-- An offset that the register map lists addresses its register, on every device (R16). -/
theorem regionAt_of_listed {off : Offset} {c : Csr} (caps : Config.Caps)
    (h : assocFind id (alignedOffset off) csrMap = some c) : regionAt caps off = .csr c := by
  have hlow : ∀ e ∈ csrMap, e.1 < 4096 := by decide
  obtain ⟨a, ha, rfl⟩ := assocFind_mem id h
  rw [regionAt_csr caps off (hlow _ ha), h]

/-- The offsets that name nothing: holes of the register map, and what lies beyond the registers or a memory (R37, R45). -/
theorem regionAt_of_hole {caps : Config.Caps} {off : Offset}
    (h : (alignedOffset off < 4096 ∧ alignedOffset off ∉ csrMap.map Prod.fst) ∨
      (4096 ≤ alignedOffset off ∧ alignedOffset off < 1048576) ∨
      (1048576 + caps.imgBytes ≤ alignedOffset off ∧ alignedOffset off < 2097152) ∨
      (2097152 + 4 * caps.lenWords ≤ alignedOffset off ∧ alignedOffset off < 3145728) ∨
      3145728 + caps.bitsBytes ≤ alignedOffset off) :
    regionAt caps off = .reserved ∨ regionAt caps off = .unmapped := by
  rcases h with ⟨h1, h2⟩ | ⟨h1, h2⟩ | ⟨h1, h2⟩ | ⟨h1, h2⟩ | h1
  · left
    rw [regionAt_csr caps off h1, (assocFind_eq_none_iff id _ _).mpr h2]
  · exact .inr (regionAt_low caps off h1 h2)
  · right
    rw [regionAt_img caps off (by omega) h2, if_neg (by omega)]
  · right
    rw [regionAt_len caps off (by omega) h2, if_neg (by omega)]
  · right
    rw [regionAt_bits caps off (by omega), if_neg (by omega)]

/-- An offset from 0x200000 up names a word of LEN or of BITS, or nothing (R45). -/
theorem regionAt_of_high (caps : Config.Caps) {off : Offset} (h : 2097152 ≤ alignedOffset off) :
    (∃ a, regionAt caps off = .len a) ∨ (∃ a, regionAt caps off = .bits a) ∨ regionAt caps off = .unmapped := by
  by_cases hlen : alignedOffset off < 3145728
  · rw [regionAt_len caps off h hlen]
    split <;> simp
  · rw [regionAt_bits caps off (by omega)]
    split <;> simp

/-! ### Reads and writes by region -/

/-- While BUSY = 0 a listed offset reads its register (R16, R43). -/
theorem hostReadValue_of_listed {s : State} {off : Offset} {c : Csr} (hb : s.status.busy = false)
    (h : assocFind id (alignedOffset off) csrMap = some c) : hostReadValue s off = csrValue s c := by
  rw [hostReadValue, readIsFree, hb, regionAt_of_listed _ h]
  rfl

/-- A register that holds one field of at most 32 bits reads as that field's number. -/
theorem toNat_hostReadValue_of_field {s : State} {off : Offset} {w : Nat} {x : BitVec w} (hb : s.status.busy = false)
    (c : Csr) (hw : w ≤ 32) (hc : csrValue s c = x.setWidth 32)
    (h : assocFind id (alignedOffset off) csrMap = some c) : (hostReadValue s off).toNat = x.toNat := by
  rw [hostReadValue_of_listed hb h, hc, BitVec.toNat_setWidth_of_le hw]

theorem hostWrite_of_listed {off : Offset} {c : Csr} (v : Word) (s : State)
    (h : assocFind id (alignedOffset off) csrMap = some c) : hostWrite off v s = writeCsr c v s := by
  rw [hostWrite, regionAt_of_listed _ h]

/-- A write while BUSY = 0 to a register that is frozen while busy (R50(b)). -/
theorem hostWrite_of_frozen {off : Offset} {v : Word} {s t : State} (hb : s.status.busy = false) (c : Csr)
    (hc : writeCsr c v s = frozenWhileBusy s t) (h : assocFind id (alignedOffset off) csrMap = some c) :
    hostWrite off v s = t := by
  rw [hostWrite_of_listed v s h, hc, frozenWhileBusy_idle hb]

theorem hostReadValue_of_hole {s : State} {off : Offset}
    (h : regionAt s.caps off = .reserved ∨ regionAt s.caps off = .unmapped) : hostReadValue s off = 0#32 := by
  rcases h with h | h <;> rw [hostReadValue, readIsFree, h, Region.engineWritten, Bool.and_false] <;> rfl

theorem hostWrite_of_hole {s : State} {off : Offset} (v : Word)
    (h : regionAt s.caps off = .reserved ∨ regionAt s.caps off = .unmapped) : hostWrite off v s = s := by
  rcases h with h | h <;> rw [hostWrite, h]

/-- The registers that no host write reaches (R16). -/
def readOnlyCsrs : List Csr :=
  [.id, .version, .nblocks, .totalbits, .bitpos, .blkidx, .blkbits, .res0, .res1, .res2, .ftTotal, .ftUsed, .ftCap,
    .imgCap, .lenCap, .bitsCap, .acLow, .acHigh, .acHlen, .acHist0, .acHist1, .acHist2, .acHist3]

theorem writeCsr_readOnly {c : Csr} (v : Word) (s : State) (h : c ∈ readOnlyCsrs) : writeCsr c v s = s := by
  fin_cases h <;> rfl

/-! ### The register words as numbers -/

theorem toNat_append_eq_add {m n : Nat} (x : BitVec m) (y : BitVec n) :
    (x ++ y).toNat = 2 ^ n * x.toNat + y.toNat := by
  rw [BitVec.toNat_append, ← Nat.shiftLeft_add_eq_or_of_lt y.isLt, Nat.shiftLeft_eq, Nat.mul_comm]

theorem Status.toNat_word (st : Status) :
    st.word.toNat = st.busy.toNat + 2 * st.done.toNat + 4 * st.err.toNat + 8 * st.valid.toNat +
      256 * st.code.value.toNat := by
  simp only [Status.word, toNat_append_eq_add, BitVec.toNat_ofBool, BitVec.toNat_ofNat]
  omega

theorem InterruptEnable.toNat_word (e : InterruptEnable) : e.word.toNat = e.doneIe.toNat + 2 * e.errIe.toNat := by
  simp only [InterruptEnable.word, toNat_append_eq_add, BitVec.toNat_ofBool, BitVec.toNat_ofNat]
  omega

theorem ConfigReg.toNat_word (c : ConfigReg) :
    c.word.toNat = c.bsize.toNat + 256 * c.cspace.toNat + 512 * c.adapt.toNat := by
  simp only [ConfigReg.word, toNat_append_eq_add, BitVec.toNat_ofBool, BitVec.toNat_ofNat]
  omega

theorem toNat_csrValue_acHlen (s : State) : (csrValue s .acHlen).toNat = s.hist.len.val := by
  have := s.hist.len.isLt
  rw [csrValue, BitVec.toNat_ofNat]
  omega

/-! ### STATUS and CTRL -/

theorem Status.writeOneToClear_eq (v : Word) (st : Status) :
    st.writeOneToClear v = { st with
      done := if v.getLsbD 1 then false else st.done
      err := if v.getLsbD 2 then false else st.err
      code := if v.getLsbD 2 then .none else st.code } := by
  unfold Status.writeOneToClear
  cases v.getLsbD 1 <;> cases v.getLsbD 2 <;> simp

theorem Memory.read_unwritten (sp : Config.Space) (epoch a : Nat) :
    (Memory.unwritten epoch).read sp a = Config.unwrittenByte sp epoch a := rfl

/-- The output memories after a soft reset: kept while idle, a fresh draw while busy (R125). -/
theorem softReset_outputs (s : State) :
    (s.status.busy = false → (softReset s).lenMem = s.lenMem ∧ (softReset s).bits = s.bits) ∧
    (s.status.busy = true → (softReset s).lenMem = Memory.unwritten (s.draws + 1) ∧
      (softReset s).bits = Memory.unwritten (s.draws + 1)) := by
  cases hb : s.status.busy <;> simp [softReset, hb]

end Sys2Proof.Machine
end

section
/-! PROOFS. The statements about the state and its invariant: O56, O10, O45, O46, O43, O44, O52 and O54. -/

namespace Sys2Proof.Proofs

open Sys2Proof Sys2Proof.Machine

/-- Settles O56, by whose turn it is. -/
theorem invariantKept : Obligations.InvariantKept := by
  intro s t hs h
  rcases step_next_cases h with ⟨i, -, -, rfl⟩ | ⟨-, rfl⟩
  · exact complete_commandRule_inv i hs
  · exact hostTurn_inv hs

/-- Settles O10: completion keeps the VALID that the rule left. -/
theorem validOnlyByCompress : Obligations.ValidOnlyByCompress := by
  intro i s t h
  obtain rfl := exec_next_iff.mp h
  rw [complete_valid]
  exact ⟨fun hi => by rw [commandRule_status_of_clears s hi], fun hi => by rw [commandRule_status_of_keeps s hi]⟩

/-- Settles O45: the write reaches a read-only register, or LEN, BITS or nothing. -/
theorem readOnlyIgnored : Obligations.ReadOnlyIgnored := by
  rintro s off v (hcsr | hhigh)
  · have hlisted : ∀ a ∈ [0x000, 0x004, 0x028, 0x02C, 0x030, 0x034, 0x038, 0x050, 0x054, 0x058, 0x060, 0x064, 0x068,
        0x06C, 0x070, 0x074, 0x080, 0x084, 0x088, 0x090, 0x094, 0x098, 0x09C],
        ∃ c ∈ readOnlyCsrs, assocFind id a csrMap = some c := by decide
    obtain ⟨c, hc, hoff⟩ := hlisted _ hcsr
    rw [hostWrite_of_listed v s hoff, writeCsr_readOnly v s hc]
  · rcases regionAt_of_high s.caps hhigh with ⟨a, h⟩ | ⟨a, h⟩ | h <;> rw [hostWrite, h]

/-- Settles O46: such an offset is a hole of the address map. -/
theorem unmappedAccess : Obligations.UnmappedAccess := by
  rintro s off v a - rfl h
  have hhole := regionAt_of_hole h
  exact ⟨hostReadValue_of_hole hhole, hostWrite_of_hole v hhole⟩

/-- Settles O43: each offset reads its register's word, and a word's number is its fields' at their places. -/
theorem registerReads : Obligations.RegisterReads := by
  intro s hb
  have read : ∀ {off : Offset} (c : Csr), assocFind id (alignedOffset off) csrMap = some c →
      hostReadValue s off = csrValue s c := fun _ => hostReadValue_of_listed hb
  refine ⟨read .id rfl, read .version rfl, read .ctrl rfl, read .cmd rfl, ?_, ?_, ?_,
    toNat_hostReadValue_of_field hb .qlevel (by decide) rfl rfl,
    toNat_hostReadValue_of_field hb .width (by decide) rfl rfl,
    toNat_hostReadValue_of_field hb .height (by decide) rfl rfl,
    read .nblocks rfl, read .totalbits rfl, read .bitpos rfl, read .blkidx rfl, read .blkbits rfl,
    toNat_hostReadValue_of_field hb .op0 (by decide) rfl rfl,
    toNat_hostReadValue_of_field hb .op1 (by decide) rfl rfl,
    toNat_hostReadValue_of_field hb .op2 (by decide) rfl rfl,
    read .res0 rfl, read .res1 rfl, read .res2 rfl, read .ftTotal rfl, read .ftUsed rfl, read .ftCap rfl,
    read .imgCap rfl, read .lenCap rfl, read .bitsCap rfl, read .acLow rfl, read .acHigh rfl, ?_,
    toNat_hostReadValue_of_field hb .acHist0 (by decide) rfl rfl,
    toNat_hostReadValue_of_field hb .acHist1 (by decide) rfl rfl,
    toNat_hostReadValue_of_field hb .acHist2 (by decide) rfl rfl,
    toNat_hostReadValue_of_field hb .acHist3 (by decide) rfl rfl⟩
  · rw [read .status rfl, csrValue, Status.toNat_word, hb, Bool.toNat_false, Nat.zero_add]
  · rw [read .ier rfl, csrValue, InterruptEnable.toNat_word]
  · rw [read .config rfl, csrValue, ConfigReg.toNat_word]
  · rw [read .acHlen rfl, toNat_csrValue_acHlen]

/-- Settles O44: each offset writes its register, and the low bits of a word are the word cut to the field's width. -/
theorem registerWrites : Obligations.RegisterWrites := by
  intro s v
  exact ⟨hostWrite_of_listed (c := .ier) v s rfl, fun hb => ⟨hostWrite_of_frozen hb .config rfl rfl,
    hostWrite_of_frozen hb .qlevel rfl rfl, hostWrite_of_frozen hb .width rfl rfl,
    hostWrite_of_frozen hb .height rfl rfl, hostWrite_of_frozen hb .op0 rfl rfl,
    hostWrite_of_frozen hb .op1 rfl rfl, hostWrite_of_frozen hb .op2 rfl rfl⟩⟩

/-- Settles O52: clearing by a 1 is keeping the flag where the bit is 0. -/
theorem statusWrite : Obligations.StatusWrite := by
  intro s v
  rw [hostWrite_of_listed (c := .status) v s rfl, writeCsr, Status.writeOneToClear_eq]

/-- Settles O54: bit 0 of the word decides whether CTRL resets, and BUSY what becomes of LEN and BITS. -/
theorem softReset : Obligations.SoftReset := by
  intro s t v ht
  rw [hostWrite_of_listed (c := .ctrl) v s rfl, writeCsr_ctrl] at ht
  refine ⟨fun hv => by rw [ht, hv, if_neg Bool.false_ne_true], fun hv => ?_⟩
  rw [if_pos hv] at ht
  subst ht
  obtain ⟨hidle, hbusy⟩ := softReset_outputs s
  refine ⟨rfl, rfl, rfl, rfl, rfl, rfl, rfl, rfl, rfl, rfl, rfl, rfl, rfl, rfl, rfl, rfl, rfl, rfl, rfl, rfl,
    hidle, fun hb a => ?_⟩
  obtain ⟨hlen, hbits⟩ := hbusy hb
  simp only [State.byteAt, hlen, hbits, Memory.read_unwritten, and_self]

end Sys2Proof.Proofs
end

section
/-! PROOFS. Host accesses by where they lead: aligned offsets, the three windows, what is frozen and what is free while
BUSY = 1, the bytes of a written word, and the host's turn. -/

namespace Sys2Proof.Machine

open Sys2Proof

/-! ### Offsets -/

/-- Clearing bits [1:0] of an offset is rounding it down to a word (R43). -/
theorem alignedOffset_and_mask (off : Offset) : alignedOffset (off &&& 0x3FFFFC#22) = alignedOffset off := by
  have hlt := off.isLt
  have hword : (off &&& 0x3FFFFC#22).toNat / 4 = off.toNat / 4 := calc
    (off &&& 0x3FFFFC#22).toNat / 4 = off.toNat >>> 2 &&& 2 ^ 20 - 1 := by
      rw [BitVec.toNat_and, ← Nat.shiftRight_eq_div_pow _ 2, Nat.shiftRight_and_distrib]
      rfl
    _ = off.toNat / 4 := by
      rw [Nat.and_two_pow_sub_one_eq_mod, Nat.shiftRight_eq_div_pow]
      omega
  rw [alignedOffset, alignedOffset, hword]

/-- The address map sees an offset through its aligned word alone (R43). -/
theorem regionAt_congr (caps : Config.Caps) {off off' : Offset} (h : alignedOffset off' = alignedOffset off) :
    regionAt caps off' = regionAt caps off := by
  simp only [regionAt, h]

theorem regionAt_and_mask (caps : Config.Caps) (off : Offset) : regionAt caps (off &&& 0x3FFFFC#22) = regionAt caps off :=
  regionAt_congr caps (alignedOffset_and_mask off)

/-! ### The windows -/

/-- On a legal device no memory is larger than its 1 MiB window (R7, R45). -/
theorem windows_of_legal {caps : Config.Caps} (h : caps.legal = true) :
    caps.imgBytes ≤ 1048576 ∧ 4 * caps.lenWords ≤ 1048576 ∧ caps.bitsBytes ≤ 1048576 := by
  simp only [Config.Caps.legal, Bool.and_eq_true, decide_eq_true_eq, beq_iff_eq] at h
  omega

theorem regionAt_eq_img {caps : Config.Caps} {off : Offset} {a : Nat} (hoff : alignedOffset off = 1048576 + a)
    (hwin : a < 1048576) (ha : a < caps.imgBytes) : regionAt caps off = .img a := by
  rw [regionAt_img caps off (by omega) (by omega), hoff, Nat.add_sub_cancel_left, if_pos ha]

theorem regionAt_eq_len {caps : Config.Caps} {off : Offset} {a : Nat} (hoff : alignedOffset off = 2097152 + a)
    (hwin : a < 1048576) (ha : a < 4 * caps.lenWords) : regionAt caps off = .len a := by
  rw [regionAt_len caps off (by omega) (by omega), hoff, Nat.add_sub_cancel_left, if_pos ha]

theorem regionAt_eq_bits {caps : Config.Caps} {off : Offset} {a : Nat} (hoff : alignedOffset off = 3145728 + a)
    (ha : a < caps.bitsBytes) : regionAt caps off = .bits a := by
  rw [regionAt_bits caps off (by omega), hoff, Nat.add_sub_cancel_left, if_pos ha]

/-! ### Reads -/

/-- A read answers exactly while idle, and where the engine does not write (R50(d), (f)). -/
theorem hostReadValue_of_region {s : State} {off : Offset} {r : Region} (hr : regionAt s.caps off = r)
    (h : s.status.busy = false ∨ r.engineWritten = false) : hostReadValue s off = regionValue s r := by
  rcases h with h | h <;> simp [hostReadValue, readIsFree, hr, h]

/-- A read of engine-written state while busy answers the next free word and uses it up (R50(e)). -/
theorem hostRead_free {s : State} {off : Offset} (hb : s.status.busy = true)
    (h : (regionAt s.caps off).engineWritten = true) :
    hostReadValue s off = Config.busyRead s.draws ∧ (hostRead off s).draws = s.draws + 1 := by
  have hfree : readIsFree s off = true := by rw [readIsFree, hb, h, Bool.and_self]
  exact ⟨if_pos hfree, if_pos hfree⟩

/-- Only the STATUS register shows STATUS. -/
theorem regionValue_withStatus (s : State) (st : Status) {r : Region} (h : r ≠ .csr .status) :
    regionValue { s with status := st } r = regionValue s r := by
  cases r with
  | csr c =>
    cases c with
    | status => exact absurd rfl h
    | _ => rfl
  | _ => rfl

/-- Where the engine does not write, a read sees nothing of BUSY but through STATUS. -/
theorem hostReadValue_of_notEngineWritten {s : State} {off : Offset} {r : Region} (hr : regionAt s.caps off = r)
    (hfree : r.engineWritten = false) (hst : r ≠ .csr .status) :
    hostReadValue s off = hostReadValue { s with status := { s.status with busy := false } } off := by
  rw [hostReadValue_of_region hr (.inr hfree), ← regionValue_withStatus s { s.status with busy := false } hst]
  symm
  exact hostReadValue_of_region hr (.inl rfl)

/-! ### Writes -/

/-- The registers that are frozen while busy (R50(b)). -/
def frozenCsrs : List Csr := [.config, .qlevel, .width, .height, .op0, .op1, .op2]

theorem writeCsr_frozen {c : Csr} (v : Word) (s : State) (h : c ∈ frozenCsrs) :
    ∃ t, writeCsr c v s = frozenWhileBusy s t := by
  fin_cases h <;> exact ⟨_, rfl⟩

theorem hostWrite_img {s : State} {off : Offset} {a : Nat} (v : Word) (h : regionAt s.caps off = .img a) :
    hostWrite off v s = frozenWhileBusy s { s with img := s.img.writeWord a v } := by
  rw [hostWrite, h]

/-- Byte `j` of a written word is its bits from `8 * j` on (R46). -/
theorem Memory.read_writeWord_byte (sp : Config.Space) (m : Memory) (a : Nat) (v : Word) {j : Nat} (hj : j < 4) :
    (m.writeWord a v).read sp (a + j) = v.extractLsb' (8 * j) 8 := by
  interval_cases j <;> simp [Memory.writeWord, Memory.read_write_same, Memory.read_write_other]

/-- A pixel's word, from the lowest byte: R, G, B and alpha 0 (R47, R61). -/
theorem pixelWord_bytes (r g b : Byte) :
    (pixelWord r g b).extractLsb' 0 8 = r ∧ (pixelWord r g b).extractLsb' 8 8 = g ∧
    (pixelWord r g b).extractLsb' 16 8 = b ∧ (pixelWord r g b).extractLsb' 24 8 = 0#8 := by
  have hr := r.isLt
  have hg := g.isLt
  have hb := b.isLt
  have hword : (pixelWord r g b).toNat = r.toNat + 256 * g.toNat + 65536 * b.toNat := by
    simp only [pixelWord, toNat_append_eq_add, BitVec.toNat_ofNat]
    omega
  refine ⟨?_, ?_, ?_, ?_⟩ <;> apply BitVec.eq_of_toNat_eq <;>
    simp only [BitVec.extractLsb'_toNat, hword, Nat.shiftRight_eq_div_pow, BitVec.toNat_ofNat] <;> omega

/-! ### The host's turn -/

/-- It is not the engine's turn while idle, nor while the host has transactions left that come before the engine step. -/
theorem engineTurn_eq_false {s : State} (h : s.status.busy = false ∨ (s.inbox ≠ [] ∧ 0 < s.delay)) :
    engineTurn s = false := by
  rcases h with hb | ⟨hin, hd⟩
  · rw [engineTurn, hb, Bool.false_and]
  · simp [engineTurn, hin, Nat.ne_of_gt hd]

theorem step_of_hostTurn {s : State} (h : engineTurn s = false) : step s = .next (hostTurn s) := by
  simp [step, h]

/-- With a transaction in the inbox, the host moves while idle and until `delay` has run down (R109; log 3). -/
theorem step_of_inbox {s : State} {tr : Transaction} {rest : List Transaction} (hin : s.inbox = tr :: rest)
    (h : s.status.busy = false ∨ 0 < s.delay) : step s = .next (hostTurn s) :=
  step_of_hostTurn (engineTurn_eq_false (h.imp_right fun hd => ⟨by simp [hin], hd⟩))

end Sys2Proof.Machine
end

section
/-! PROOFS. The statements about the host port's memory accesses: O41, O42, O47, O48, O49, O51 and O6. -/

namespace Sys2Proof.Proofs

open Sys2Proof Sys2Proof.Machine

/-- Settles O41: the offset leads to a frozen register or to IMG, and the write is dropped at both. -/
theorem busyWritesDropped : Obligations.BusyWritesDropped := by
  intro s off v hb hoff
  have hfrozen : ∃ t, hostWrite off v s = frozenWhileBusy s t := by
    rcases hoff with hcsr | ⟨hge, hcap, hwin⟩
    · have hlisted : ∀ a ∈ [0x018, 0x01C, 0x020, 0x024, 0x040, 0x044, 0x048],
          ∃ c ∈ frozenCsrs, assocFind id a csrMap = some c := by decide
      obtain ⟨c, hc, hmap⟩ := hlisted _ hcsr
      rw [hostWrite_of_listed v s hmap]
      exact writeCsr_frozen v s hc
    · obtain ⟨a, ha⟩ := Nat.exists_eq_add_of_le hge
      exact ⟨_, hostWrite_img v (regionAt_eq_img ha (by omega) (by omega))⟩
  obtain ⟨t, ht⟩ := hfrozen
  rw [ht, frozenWhileBusy_busy hb]
  rfl

/-- Settles O42, by where the offset leads: a region that the engine writes, one that it does not, or STATUS. -/
theorem busyReads : Obligations.BusyReads := by
  intro s off hb hlegal
  obtain ⟨himg, hlen, hbits⟩ := windows_of_legal hlegal
  refine ⟨fun hoff => hostRead_free hb ?_, fun hoff => ?_, fun hoff => ?_⟩
  · rcases hoff with hcsr | ⟨hge, hcap⟩ | ⟨hge, hcap⟩
    · have hlisted : ∀ a ∈ [0x028, 0x02C, 0x030, 0x034, 0x038, 0x050, 0x054, 0x058, 0x060, 0x064, 0x080, 0x084, 0x088,
          0x090, 0x094, 0x098, 0x09C], ∃ c, assocFind id a csrMap = some c ∧ c.engineWritten = true := by decide
      obtain ⟨c, hmap, hc⟩ := hlisted _ hcsr
      rw [regionAt_of_listed s.caps hmap]
      exact hc
    · obtain ⟨a, ha⟩ := Nat.exists_eq_add_of_le hge
      rw [regionAt_eq_len ha (by omega) (by omega)]
      rfl
    · obtain ⟨a, ha⟩ := Nat.exists_eq_add_of_le hge
      rw [regionAt_eq_bits ha (by omega)]
      rfl
  · rcases hoff with hcsr | ⟨hge, hcap⟩
    · have hlisted : ∀ a ∈ [0x000, 0x004, 0x008, 0x00C, 0x014, 0x018, 0x01C, 0x020, 0x024, 0x040, 0x044, 0x048, 0x068,
          0x06C, 0x070, 0x074], ∃ c, assocFind id a csrMap = some c ∧ c.engineWritten = false ∧ c ≠ .status := by decide
      obtain ⟨c, hmap, hc, hst⟩ := hlisted _ hcsr
      exact hostReadValue_of_notEngineWritten (regionAt_of_listed s.caps hmap) hc fun h => hst (Region.csr.inj h)
    · obtain ⟨a, ha⟩ := Nat.exists_eq_add_of_le hge
      exact hostReadValue_of_notEngineWritten (regionAt_eq_img ha (by omega) (by omega)) rfl Region.noConfusion
  · have hr : regionAt s.caps off = .csr .status :=
      regionAt_of_listed s.caps (by rw [alignedOffset, hoff]; rfl)
    rw [hostReadValue_of_region hr (.inr rfl), regionValue, csrValue, Status.toNat_word, hb, Bool.toNat_true]

/-- Settles O47: reads and writes see an offset through the address map alone. -/
theorem offsetsAligned : Obligations.OffsetsAligned := by
  intro s off v
  constructor
  · rw [hostReadValue, hostReadValue, readIsFree, readIsFree, regionAt_and_mask]
  · rw [hostWrite, hostWrite, regionAt_and_mask]

/-- Settles O48: the write is `Memory.writeWord` on IMG and nothing else. -/
theorem imgWordReadBack : Obligations.ImgWordReadBack := by
  intro s t off v a hb hlegal hoff ha ht
  have hr : regionAt s.caps off = .img a := regionAt_eq_img hoff (ha.trans_le (windows_of_legal hlegal).1) ha
  rw [hostWrite_img v hr, frozenWhileBusy_idle hb] at ht
  subst ht
  refine ⟨rfl, ?_, fun j hj => ?_, fun b hout => Memory.read_writeWord_other .img s.img a b v hout⟩
  · calc hostReadValue { s with img := s.img.writeWord a v } off
        = regionValue { s with img := s.img.writeWord a v } (.img a) := hostReadValue_of_region hr (.inl hb)
      _ = v := Memory.readWord_writeWord .img s.img a v
  · rw [State.byteAt, Memory.read_writeWord_byte .img s.img a v hj, BitVec.extractLsb'_toNat,
      Nat.shiftRight_eq_div_pow, Nat.pow_mul]

/-- Settles O49: the line writes the pixel's word at its own place, which is a whole word of IMG. -/
theorem pixWritesPixel : Obligations.PixWritesPixel := by
  intro s x y r g b hb hlegal hfit
  generalize hp : 4 * (y * s.width.toNat + x) = p at hfit ⊢
  have hwin : p < 1048576 := hfit.trans_le (windows_of_legal hlegal).1
  have hoff : alignedOffset (imgOffset p) = 1048576 + p := by
    rw [alignedOffset, imgOffset_toNat (by omega)]
    omega
  have hw : hostWrite (imgOffset p) (pixelWord r g b) s = { s with img := s.img.writeWord p (pixelWord r g b) } := by
    rw [hostWrite_img _ (regionAt_eq_img hoff hwin hfit), frozenWhileBusy_idle hb]
  have hbyte {j : Nat} (hj : j < 4) := Memory.read_writeWord_byte .img s.img p (pixelWord r g b) hj
  obtain ⟨hR, hG, hB, hA⟩ := pixelWord_bytes r g b
  refine ⟨imgOffset p, pixelWord r g b, by rw [lineTransactions, hp], ?_⟩
  rw [hw]
  exact ⟨(hbyte (j := 0) (by decide)).trans hR, (hbyte (j := 1) (by decide)).trans hG,
    (hbyte (j := 2) (by decide)).trans hB, (hbyte (j := 3) (by decide)).trans hA,
    fun a hout => Memory.read_writeWord_other .img s.img p a _ hout⟩

/-- Settles O51: the read answers the word of LEN or of BITS, and a word's number is its bytes' at their places. -/
theorem outputReads : Obligations.OutputReads := by
  intro s off a hb hlegal
  obtain ⟨-, hlen, -⟩ := windows_of_legal hlegal
  refine ⟨fun hoff ha => ?_, fun hoff ha => ?_⟩
  · rw [hostReadValue_of_region (regionAt_eq_len hoff (by omega) ha) (.inl hb), State.lenEntry,
      Nat.mul_div_cancel' (show 4 ∣ a by omega)]
    exact ⟨Memory.toNat_readWord .len s.lenMem a, rfl⟩
  · rw [hostReadValue_of_region (regionAt_eq_bits hoff ha) (.inl hb)]
    exact Memory.toNat_readWord .bits s.bits a

/-- Settles O6: each of the three is the host's turn, at the head of the inbox. -/
theorem readChangesNothing : Obligations.ReadChangesNothing := by
  intro s
  refine ⟨fun off rest hin hturn => ?_, fun off v rest hin hturn => ?_, fun hb hin => ?_⟩
  · rw [step_of_inbox hin hturn, hostTurn, hin]
    exact ⟨_, rfl⟩
  · rw [step_of_inbox hin hturn, hostTurn, hin]
    rfl
  · rw [step_of_hostTurn (engineTurn_eq_false (.inl hb)), hostTurn, hin]

end Sys2Proof.Proofs
end

section
/-! PROOFS. The decoder and the encoder: what each answer of `decode` says about the word, and the eleven legal words as a
list and as numbers. -/

namespace Sys2Proof

/-! ### The answers of the decoder -/

theorem decode_of_reservedNonzero {w : Word} (hrsv : reservedOf w ≠ 0#24) : decode w = .error .reservedNonzero :=
  if_pos hrsv

theorem decode_of_listed {w : Word} {i : Instr} (hrsv : reservedOf w = 0#24)
    (hopc : commandOfOpcode (opcodeOf w) = some i) : decode w = .ok i := by
  simp [decode, hrsv, hopc]

theorem decode_of_unlisted {w : Word} (hrsv : reservedOf w = 0#24) (hopc : commandOfOpcode (opcodeOf w) = none) :
    decode w = .error .unknownOpcode := by
  simp [decode, hrsv, hopc]

/-- A word is a command where RSV is 0 and the opcode map lists OPC (R59, R60). -/
theorem decode_eq_ok_iff {w : Word} {i : Instr} :
    decode w = .ok i ↔ reservedOf w = 0#24 ∧ commandOfOpcode (opcodeOf w) = some i := by
  refine ⟨fun h => ?_, fun ⟨hrsv, hopc⟩ => decode_of_listed hrsv hopc⟩
  by_cases hrsv : reservedOf w = 0#24
  · cases hopc : commandOfOpcode (opcodeOf w) with
    | none => cases (decode_of_unlisted hrsv hopc).symm.trans h
    | some j =>
      cases (decode_of_listed hrsv hopc).symm.trans h
      exact ⟨hrsv, rfl⟩
  · cases (decode_of_reservedNonzero hrsv).symm.trans h

/-! ### Decoding and encoding -/

theorem encoding_statement (i : Instr) : Laws.Encoding.Statement i := by
  cases i with
  | nop => exact Laws.Encoding.nop
  | compress => exact Laws.Encoding.compress
  | ftClear => exact Laws.Encoding.ftClear
  | pkReset => exact Laws.Encoding.pkReset
  | xform => exact Laws.Encoding.xform
  | quant => exact Laws.Encoding.quant
  | prob => exact Laws.Encoding.prob
  | ftInc => exact Laws.Encoding.ftInc
  | acBegin => exact Laws.Encoding.acBegin
  | acEncode => exact Laws.Encoding.acEncode
  | acEnd => exact Laws.Encoding.acEnd

@[simp] theorem decode_encode (i : Instr) : decode (encode i) = .ok i := by
  obtain ⟨-, -, hrsv, hopc⟩ := encoding_statement i
  exact decode_of_listed hrsv hopc

/-- A 32-bit number passes the table's decoder unchanged. -/
theorem decodeTableWord_toNat {w : Word} {i : Instr} (h : decode w = .ok i) : decodeTableWord 32 w.toNat = some i := by
  have hlt := w.isLt
  rw [decodeTableWord, Nat.mod_eq_of_lt hlt, if_pos hlt, BitVec.ofNat_toNat, BitVec.setWidth_eq, h]

/-- Each opcode of the map is the one of its command (R58). -/
theorem opcodeOfCommand_of_commandOfOpcode {opc : BitVec 8} {i : Instr} (h : commandOfOpcode opc = some i) :
    opcodeOfCommand i = opc := by
  unfold commandOfOpcode at h
  repeat
    rcases ite_eq_iff.mp h with ⟨rfl, hi⟩ | ⟨-, h⟩
    · obtain rfl := Option.some.inj hi
      rfl
  cases h

/-- A word is RSV above OPC (R56). -/
theorem reservedOf_append_opcodeOf (w : Word) : reservedOf w ++ opcodeOf w = w := calc
  reservedOf w ++ opcodeOf w = w.extractLsb' 0 32 := BitVec.extractLsb'_append_extractLsb'_eq_extractLsb' rfl
  _ = w := BitVec.extractLsb'_eq_self

/-- The legal words are the words of the commands, one each (R60). -/
theorem decode_eq_ok_iff_encode {w : Word} {i : Instr} : decode w = .ok i ↔ encode i = w := by
  constructor
  · intro h
    obtain ⟨hrsv, hopc⟩ := decode_eq_ok_iff.mp h
    calc encode i = reservedOf w ++ opcodeOf w := by
          rw [encode, hrsv, opcodeOfCommand_of_commandOfOpcode hopc]
      _ = w := reservedOf_append_opcodeOf w
  · rintro rfl
    exact decode_encode i

theorem encode_injective : Function.Injective encode := by
  intro i j h
  simpa using congrArg decode h

/-- The decoder rejects exactly the words of no command (R59). -/
theorem decode_error_iff {w : Word} : (∃ e, decode w = .error e) ↔ ∀ i, encode i ≠ w := by
  simp only [ne_eq, ← decode_eq_ok_iff_encode]
  cases decode w <;> simp

/-! ### The eleven words -/

/-- The commands in the order of the opcode map (R58). -/
def allCommands : List Instr :=
  [.nop, .compress, .ftClear, .pkReset, .xform, .quant, .prob, .ftInc, .acBegin, .acEncode, .acEnd]

theorem mem_allCommands (i : Instr) : i ∈ allCommands := by
  cases i <;> decide

theorem mem_map_allCommands_iff {α : Type} {f : Instr → α} {a : α} : a ∈ allCommands.map f ↔ ∃ i, f i = a := by
  simp [mem_allCommands]

/-- The decoder rejects exactly the words whose number is none of the eleven of R60. -/
theorem decode_error_iff_toNat {w : Word} :
    (∃ e, decode w = .error e) ↔
      w.toNat ∉ [0x00, 0x01, 0x02, 0x03, 0x10, 0x11, 0x12, 0x13, 0x20, 0x21, 0x22] := by
  have hnumbers : [0x00, 0x01, 0x02, 0x03, 0x10, 0x11, 0x12, 0x13, 0x20, 0x21, 0x22] =
      allCommands.map fun i => (encode i).toNat := by decide
  rw [hnumbers, mem_map_allCommands_iff, decode_error_iff, not_exists]
  exact forall_congr' fun i => not_congr BitVec.toNat_inj.symm

end Sys2Proof
end

section
/-! PROOFS. What a command may write: the state after an engine step is the state its rule left, but for STATUS; what
COMPRESS leaves alone; and the read of STATUS. -/

namespace Sys2Proof.Machine

open Sys2Proof

/-! ### Commands -/

/-- Completion and abort write STATUS alone (R109, R111). -/
theorem exec_next_state {i : Instr} {s t : State} (h : exec i s = .next t) :
    t = { (commandRule i s).state with status := t.status } := by
  obtain rfl := exec_next_iff.mp h
  exact complete_eq _

theorem commandRule_ftInc_state (s : State) : ∃ ft, (commandRule .ftInc s).state = { s with ft := ft } := by
  rcases ftIncrement_state_cases (s.keyOf s.symbolOperand) s with h | ⟨ft, h⟩
  · exact ⟨s.ft, h⟩
  · exact ⟨ft, congrArg Run.state h⟩

theorem commandRule_acEncode_codesFrom (s : State) : codesFrom s.clearValid (commandRule .acEncode s).state :=
  encodeSymbol_codesFrom s.symbolOperand s.clearValid

/-! ### What COMPRESS leaves alone -/

/-- `t` differs from `s` at most in what COMPRESS may write (R58, COMPRESS) and in STATUS. -/
def compressesFrom (s t : State) : Prop :=
  t = { s with
    nblocks := t.nblocks, lenMem := t.lenMem, bits := t.bits, pk := t.pk, coder := t.coder, hist := t.hist, ft := t.ft,
    status := t.status }

theorem compressesFrom.trans {s t u : State} (h₁ : compressesFrom s t) (h₂ : compressesFrom t u) :
    compressesFrom s u := by
  unfold compressesFrom at *
  rw [h₂, h₁]

theorem codesFrom.compressesFrom {s t : State} (h : codesFrom s t) : compressesFrom s t := by
  unfold codesFrom at h
  unfold Machine.compressesFrom
  rw [h]

/-- Coding a block (R103): its start, its symbols and its end each stay within what COMPRESS may write. -/
theorem codeBlock_compressesFrom (i : Nat) (s : State) : compressesFrom s (codeBlock i s).state := by
  have hbegin : compressesFrom s (beginBlock s) := rfl
  have hcoded := hbegin.trans
    (forEach_encodeSymbol_codesFrom (blockSeq s (i / s.blockCols) (i % s.blockCols)) (beginBlock s)).compressesFrom
  refine andThen_keeps hcoded fun t ht => ?_
  rw [ht] at hcoded
  exact hcoded.trans (show compressesFrom t (closeBlock t) from rfl)

theorem compressRule_compressesFrom (s : State) : compressesFrom s (compressRule s).state := by
  rcases compressRule_cases s with ⟨e, -, h⟩ | ⟨-, h⟩ <;> rw [h]
  · rfl
  · have hblocks := forEach_keeps (P := compressesFrom s) (List.range s.blockCount)
      (fun i _ t ht => ht.trans (codeBlock_compressesFrom i t)) (compressSetup s.clearValid) rfl
    refine andThen_keeps hblocks fun t ht => ?_
    rw [ht] at hblocks
    exact hblocks.trans (show compressesFrom t t.setValid from rfl)

/-! ### The read of STATUS -/

/-- STATUS reads exactly, busy or not, and draws no free value (R50(f)). -/
theorem hostRead_status (s : State) :
    hostRead statusOffset s = { s with replies := s.status.word :: s.replies } := by
  have hr : regionAt s.caps statusOffset = .csr .status := regionAt_of_listed s.caps rfl
  have hvalue : hostReadValue s statusOffset = s.status.word := hostReadValue_of_region hr (.inr rfl)
  have hfree : readIsFree s statusOffset = false := by rw [readIsFree, hr]; exact Bool.and_false _
  rw [hostRead, hvalue, hfree, if_neg Bool.false_ne_true]

end Sys2Proof.Machine
end

section
/-! PROOFS. The statements about the encoding: O1, O2, O3, O4, O8 and O50. -/

namespace Sys2Proof.Proofs

open Sys2Proof Sys2Proof.Machine

/-- Settles O2: the list is the words of the commands, and decoding inverts encoding. -/
theorem legalWordsExactly : Obligations.LegalWordsExactly := by
  intro w
  have hmem : w ∈ [0x00000000#32, 0x00000001#32, 0x00000002#32, 0x00000003#32, 0x00000010#32, 0x00000011#32,
      0x00000012#32, 0x00000013#32, 0x00000020#32, 0x00000021#32, 0x00000022#32] ↔ ∃ i, encode i = w :=
    mem_map_allCommands_iff (f := encode)
  rw [hmem]
  constructor
  · rintro ⟨i, rfl⟩
    exact ⟨i, decode_encode i, rfl, fun _ hj => encode_injective hj⟩
  · intro hnone
    have hno := not_exists.mp hnone
    exact ⟨decode_error_iff.mpr hno, hno⟩

/-- Settles O3: the gaps between the eleven numbers are the ranges of R59, and CMD refuses what the decoder rejects. -/
theorem illegalWordsRefused : Obligations.IllegalWordsRefused := by
  intro w
  refine ⟨?_, fun s e hb he => ?_⟩
  · rw [decode_error_iff_toNat]
    simp only [List.mem_cons, List.not_mem_nil, or_false]
    omega
  · rw [hostWrite_of_listed (c := .cmd) w s rfl, writeCsr]
    rcases writeCmd_cases w s with ⟨hbusy, -⟩ | ⟨-, -, hw⟩ | ⟨-, ⟨i, hi⟩, -⟩
    · exact absurd hbusy (by simp [hb])
    · exact hw
    · exact absurd hi (by simp [he])

/-- Settles O8: STATUS aside, a command leaves the state that its rule left. -/
theorem commandsWriteOnlyTheirColumn : Obligations.CommandsWriteOnlyTheirColumn := by
  intro s t
  refine ⟨?nop, ?compress, ?ftClear, ?pkReset, ?xform, ?quant, ?prob, ?ftInc, ?acBegin, ?acEncode, ?acEnd⟩ <;>
    intro h <;> have ht := exec_next_state h
  case nop | ftClear | pkReset | xform | prob | acBegin => rw [ht]; rfl
  case compress =>
    have hstatus : compressesFrom (compressRule s).state t := by
      unfold compressesFrom
      rw [ht]
      rfl
    exact (compressRule_compressesFrom s).trans hstatus
  case quant => rcases quantRule_cases s with ⟨-, hrun⟩ | ⟨-, hrun⟩ <;> rw [ht, commandRule, hrun] <;> rfl
  case ftInc =>
    obtain ⟨ft, hft⟩ := commandRule_ftInc_state s
    rw [ht, hft]
  case acEncode =>
    have hcoded := commandRule_acEncode_codesFrom s
    unfold codesFrom at hcoded
    rw [ht, hcoded]
    rfl
  case acEnd => rcases acEndRule_cases s with ⟨-, hrun⟩ | ⟨-, hrun⟩ <;> rw [ht, commandRule, hrun] <;> rfl

/-- Settles O1, for the table's decoder through the word's own number. -/
theorem encodeThenDecode : Obligations.EncodeThenDecode := by
  intro i _
  exact ⟨decode_encode i, decodeTableWord_toNat (decode_encode i)⟩

/-- Settles O4: four words of commands, an unlisted opcode and a word with RSV = 1. -/
theorem specWordsDecode : Obligations.SpecWordsDecode :=
  ⟨decode_encode .nop, decode_encode .compress, decode_encode .ftInc, decode_encode .acEncode,
    decode_of_unlisted (by decide) (by decide), decode_of_reservedNonzero (by decide)⟩

/-- Settles O50: POLL is a read of STATUS at the head of the inbox. -/
theorem pollReadsStatus : Obligations.PollReadsStatus := by
  intro s rest hin hturn
  rw [step_of_inbox hin hturn, hostTurn, hin]
  exact congrArg Host.Outcome.next (hostRead_status _)

end Sys2Proof.Proofs
end

section
/-! PROOFS. The colour transform: the ranges of its accumulators over channels of any bound, what the truncation keeps of
them, grey inputs and byte inputs. -/

namespace Sys2Proof.Machine

open Sys2Proof

/-! ### The accumulators -/

section Ranges

variable {m r g b : Nat} (hr : r ≤ m) (hg : g ≤ m) (hb : b ≤ m)

include hr hg hb

/-- KYR + KYG + KYB = 65536 (R65). -/
theorem accY_le : accY r g b ≤ 65536 * m := by
  unfold accY
  omega

/-- KCbR + KCbG = KCbB = 32768 (R65): the channels move Cb from the offset by half of their bound each way. -/
theorem accCb_range : 128 * 2 ^ 32 - 32768 * m ≤ accCb r g b ∧ accCb r g b ≤ 128 * 2 ^ 32 + 32768 * m := by
  unfold accCb
  omega

/-- KCrG + KCrB = KCrR = 32768 (R65). -/
theorem accCr_range : 128 * 2 ^ 32 - 32768 * m ≤ accCr r g b ∧ accCr r g b ≤ 128 * 2 ^ 32 + 32768 * m := by
  unfold accCr
  omega

end Ranges

theorem accCb_eq (r g b : Nat) : accCb r g b = 128 * 2 ^ 32 + 32768 * b - 11058 * r - 21710 * g :=
  (Nat.sub_sub ..).symm

theorem accCr_eq (r g b : Nat) : accCr r g b = 128 * 2 ^ 32 + 32768 * r - 27439 * g - 5329 * b :=
  (Nat.sub_sub ..).symm

/-- Over 24-bit channels no subtraction goes below 0 (R65): the offset is larger than what the row takes away. -/
theorem accCb_exact {r g : Nat} (hr : r < 2 ^ 24) (hg : g < 2 ^ 24) (b : Nat) :
    (accCb r g b : Int) = 128 * 2 ^ 32 - 11058 * r - 21710 * g + 32768 * b := by
  have hrow : 11058 * r + 21710 * g ≤ 549755813888 := by omega
  unfold accCb
  omega

theorem accCr_exact {g b : Nat} (r : Nat) (hg : g < 2 ^ 24) (hb : b < 2 ^ 24) :
    (accCr r g b : Int) = 128 * 2 ^ 32 + 32768 * r - 27439 * g - 5329 * b := by
  have hrow : 27439 * g + 5329 * b ≤ 549755813888 := by omega
  unfold accCr
  omega

/-- The accumulators over 24-bit channels (R65). -/
theorem acc_ranges {r g b : Nat} (hr : r < 2 ^ 24) (hg : g < 2 ^ 24) (hb : b < 2 ^ 24) :
    accY r g b ≤ 65536 * (2 ^ 24 - 1) ∧ (2 ^ 15 ≤ accCb r g b ∧ accCb r g b ≤ 2 ^ 40 - 2 ^ 15) ∧
      (2 ^ 15 ≤ accCr r g b ∧ accCr r g b ≤ 2 ^ 40 - 2 ^ 15) := by
  have hr' := Nat.le_sub_one_of_lt hr
  have hg' := Nat.le_sub_one_of_lt hg
  have hb' := Nat.le_sub_one_of_lt hb
  exact ⟨accY_le hr' hg' hb', accCb_range hr' hg' hb', accCr_range hr' hg' hb'⟩

/-- Over 24-bit channels every accumulator fits 40 bits, so every result fits 24 (R65). -/
theorem acc_lt {r g b : Nat} (hr : r < 2 ^ 24) (hg : g < 2 ^ 24) (hb : b < 2 ^ 24) :
    accY r g b < 2 ^ 40 ∧ accCb r g b < 2 ^ 40 ∧ accCr r g b < 2 ^ 40 := by
  have hranges := acc_ranges hr hg hb
  omega

theorem accY_grey (v : Nat) : accY v v v = v * 65536 := by
  unfold accY
  omega

theorem accCb_grey (v : Nat) : accCb v v v = 0x800000 * 65536 := by
  unfold accCb
  omega

theorem accCr_grey (v : Nat) : accCr v v v = 0x800000 * 65536 := by
  unfold accCr
  omega

/-! ### The truncation -/

theorem truncAcc_toNat {acc : Nat} (h : acc < 2 ^ 40) : (truncAcc acc).toNat = acc / 65536 := by
  rw [truncAcc, BitVec.toNat_ofNat]
  exact Nat.mod_eq_of_lt (by omega)

theorem truncAcc_mul (n : Nat) : truncAcc (n * 65536) = BitVec.ofNat 24 n := by
  rw [truncAcc, Nat.mul_div_cancel _ (by decide)]

/-- The zero-extended result is the truncated accumulator itself (R62, R65). -/
theorem truncAcc_setWidth {acc : Nat} (h : acc < 2 ^ 40) : (truncAcc acc).setWidth 32 = BitVec.ofNat 32 (acc / 65536) :=
  BitVec.setWidth_ofNat_of_le_of_lt (by decide) (by omega)

/-! ### The transform -/

theorem acc_toNat_lt (r g b : Sym) :
    accY r.toNat g.toNat b.toNat < 2 ^ 40 ∧ accCb r.toNat g.toNat b.toNat < 2 ^ 40 ∧
      accCr r.toNat g.toNat b.toNat < 2 ^ 40 :=
  acc_lt r.isLt g.isLt b.isLt

/-- `Xform` as numbers: the truncation to 24 bits loses nothing (R65). -/
theorem xformTriple_toNat (r g b : Sym) :
    (xformTriple r g b).1.toNat = accY r.toNat g.toNat b.toNat / 65536 ∧
    (xformTriple r g b).2.1.toNat = accCb r.toNat g.toNat b.toNat / 65536 ∧
    (xformTriple r g b).2.2.toNat = accCr r.toNat g.toNat b.toNat / 65536 := by
  obtain ⟨hy, hcb, hcr⟩ := acc_toNat_lt r g b
  exact ⟨truncAcc_toNat hy, truncAcc_toNat hcb, truncAcc_toNat hcr⟩

/-- Grey stays grey (R65). -/
theorem xformTriple_grey (v : Sym) : xformTriple v v v = (v, 0x800000#24, 0x800000#24) := by
  simp only [xformTriple, accY_grey, accCb_grey, accCr_grey, truncAcc_mul, BitVec.ofNat_toNat, BitVec.setWidth_eq]

/-- The sample of a byte is at most 255.0 (R10). -/
theorem sampleOfByte_toNat_le (b : Byte) : (sampleOfByte b).toNat ≤ 255 * 65536 := by
  have hb := b.isLt
  rw [sampleOfByte, BitVec.toNat_append, BitVec.toNat_zero, Nat.or_zero, Nat.shiftLeft_eq]
  omega

/-- The rule of XFORM in numbers (R63, R64). -/
theorem xformRule_eq (s : State) :
    xformRule s = .ok { s with
      res0 := BitVec.ofNat 32 (accY s.op0.toNat s.op1.toNat s.op2.toNat / 65536)
      res1 := BitVec.ofNat 32 (accCb s.op0.toNat s.op1.toNat s.op2.toNat / 65536)
      res2 := BitVec.ofNat 32 (accCr s.op0.toNat s.op1.toNat s.op2.toNat / 65536) } := by
  obtain ⟨hy, hcb, hcr⟩ := acc_toNat_lt s.op0 s.op1 s.op2
  rw [xformRule, xformTriple, truncAcc_setWidth hy, truncAcc_setWidth hcb, truncAcc_setWidth hcr]

end Sys2Proof.Machine
end

section
/-! PROOFS. The statements about the colour transform: O14 and O15. -/

namespace Sys2Proof.Proofs

open Sys2Proof Sys2Proof.Machine

/-- Settles O15: the ranges hold for channels of any bound, here 2^24 - 1 and then 255.0. -/
theorem xformRange : Obligations.XformRange := by
  refine ⟨rfl, rfl, rfl, fun r g b hr hg hb => ?channels, xformTriple_grey, fun r g b => ?bytes⟩
  case channels =>
    obtain ⟨hy, hcb, hcr⟩ := acc_ranges hr hg hb
    obtain ⟨hylt, hcblt, hcrlt⟩ := acc_lt hr hg hb
    exact ⟨hy, hcb, hcr, accCb_exact hr hg b, accCr_exact r hg hb,
      Nat.div_lt_of_lt_mul hylt, Nat.div_lt_of_lt_mul hcblt, Nat.div_lt_of_lt_mul hcrlt⟩
  case bytes =>
    have hr := sampleOfByte_toNat_le r
    have hg := sampleOfByte_toNat_le g
    have hb := sampleOfByte_toNat_le b
    have hy := accY_le hr hg hb
    have hcb := accCb_range hr hg hb
    have hcr := accCr_range hr hg hb
    obtain ⟨hyres, hcbres, hcrres⟩ := xformTriple_toNat (sampleOfByte r) (sampleOfByte g) (sampleOfByte b)
    rw [hyres, hcbres, hcrres]
    omega

/-- Settles O14: the rule in numbers, then completion. -/
theorem xformResult : Obligations.XformResult := by
  refine ⟨decode_encode .xform, fun s => ?_⟩
  rw [exec_eq_complete, commandRule, xformRule_eq, accCb_eq, accCr_eq]
  rfl

end Sys2Proof.Proofs
end

section
/-! PROOFS. The tiler and the quantizer: rounding up, the laws of `Quant`, where a pixel lies among the blocks, and the
symbols of a block by their place in scan order. -/

namespace Sys2Proof.Machine

open Sys2Proof

/-! ### Rounding up -/

theorem ceilDiv_eq (a b : Nat) : ceilDiv a b = a ⌈/⌉ b := (Nat.ceilDiv_eq_add_pred_div a b).symm

section Ceil

variable {b : Nat} (hb : 0 < b)

include hb

theorem ceilDiv_le_iff {a n : Nat} : ceilDiv a b ≤ n ↔ a ≤ b * n := by
  rw [ceilDiv_eq]
  exact ceilDiv_le_iff_le_mul hb

theorem lt_ceilDiv_iff {a n : Nat} : n < ceilDiv a b ↔ b * n < a := by
  rw [← not_le, ceilDiv_le_iff hb, not_le]

theorem le_mul_ceilDiv (a : Nat) : a ≤ b * ceilDiv a b := (ceilDiv_le_iff hb).mp le_rfl

/-- `ceil(a / b)` multiples of b reach a, and one fewer do not. -/
theorem ceilDiv_mul_bounds {a : Nat} (ha : 0 < a) : a ≤ ceilDiv a b * b ∧ (ceilDiv a b - 1) * b < a := by
  have hone : 0 < ceilDiv a b := (lt_ceilDiv_iff hb).mpr (by rwa [Nat.mul_zero])
  rw [Nat.mul_comm, Nat.mul_comm _ b]
  exact ⟨le_mul_ceilDiv hb a, (lt_ceilDiv_iff hb).mp (Nat.sub_one_lt_of_lt hone)⟩

theorem mul_ceilDiv_of_dvd {a : Nat} (h : b ∣ a) : b * ceilDiv a b = a := by
  obtain ⟨n, rfl⟩ := h
  have hle : ceilDiv (b * n) b ≤ n := (ceilDiv_le_iff hb).mpr le_rfl
  exact le_antisymm (Nat.mul_le_mul_left b hle) (le_mul_ceilDiv hb _)

end Ceil

/-! ### The quantizer -/

theorem quantIndex_mono {x y : Nat} (h : x ≤ y) (l : Nat) : quantIndex x l ≤ quantIndex y l :=
  Nat.div_le_div_right (Nat.mul_le_mul_right l h)

theorem quantIndex_mul_le (x l : Nat) : 16777216 * quantIndex x l ≤ l * x := by
  rw [Nat.mul_comm l x]
  exact Nat.mul_div_le _ _

section Quant

variable {l : Nat} (hl : 1 ≤ l)

include hl

/-- `x >= k * 2^24 / L`, and x is an integer (R74). -/
theorem quantRaw_le (x : Nat) : quantRaw x l ≤ x := (ceilDiv_le_iff hl).mpr (quantIndex_mul_le x l)

/-- The quantized value has the index of its input: it is the least value that has it (R74). -/
theorem quantIndex_quantRaw (x : Nat) : quantIndex (quantRaw x l) l = quantIndex x l := by
  refine le_antisymm (quantIndex_mono (quantRaw_le hl x) l) ?_
  have hup : 16777216 * quantIndex x l ≤ l * quantRaw x l := le_mul_ceilDiv hl _
  rw [Nat.mul_comm l, Nat.mul_comm 16777216] at hup
  exact (Nat.le_div_iff_mul_le (by decide)).mpr hup

theorem quantRaw_idem (x : Nat) : quantRaw (quantRaw x l) l = quantRaw x l := by
  rw [quantRaw, quantIndex_quantRaw hl, quantRaw]

theorem quantRaw_lt (x : Sym) : quantRaw x.toNat l < 2 ^ 24 := (quantRaw_le hl x.toNat).trans_lt x.isLt

theorem quantize_toNat (x : Sym) : (quantize x l).toNat = quantRaw x.toNat l := by
  rw [quantize, BitVec.toNat_ofNat]
  exact Nat.mod_eq_of_lt (quantRaw_lt hl x)

theorem quantize_idem (x : Sym) : quantize (quantize x l) l = quantize x l := by
  rw [quantize, quantize_toNat hl, quantRaw_idem hl, quantize]

/-- The zero-extended result is the quantized value itself (R62, R74). -/
theorem quantize_setWidth (x : Sym) : (quantize x l).setWidth 32 = BitVec.ofNat 32 (quantRaw x.toNat l) :=
  BitVec.setWidth_ofNat_of_le_of_lt (by decide) (quantRaw_lt hl x)

/-- A level that divides 2^24 leaves nothing to round up (R74). -/
theorem mul_quantRaw_of_dvd (h : l ∣ 16777216) (x : Nat) : l * quantRaw x l = 16777216 * quantIndex x l :=
  mul_ceilDiv_of_dvd hl (h.mul_right _)

end Quant

theorem two_pow_dvd_of_level {m : Nat} (h : 2 ^ m ≤ 65535) : 2 ^ m ∣ 16777216 := by
  have hm : m < 16 := (Nat.pow_lt_pow_iff_right (by decide : 1 < 2)).mp (by omega)
  exact pow_dvd_pow 2 (show m ≤ 24 by omega)

theorem quantize_level_one (x : Sym) : quantize x 1 = 0#24 := by
  have hindex : quantIndex x.toNat 1 = 0 := Nat.div_eq_of_lt (by rw [Nat.mul_one]; exact x.isLt)
  rw [quantize, quantRaw, hindex]
  rfl

/-! ### The tiler -/

/-- Block and place in the block are the quotient and the remainder by the side. -/
theorem mul_add_eq_iff_div_mod {b : Nat} (hb : 0 < b) {q r n : Nat} :
    (r < b ∧ q * b + r = n) ↔ n / b = q ∧ n % b = r := by
  rw [Nat.div_mod_unique hb, Nat.mul_comm b, Nat.add_comm r, and_comm]

theorem div_lt_ceilDiv {a b n : Nat} (hb : 0 < b) (h : n < a) : n / b < ceilDiv a b :=
  (lt_ceilDiv_iff hb).mpr ((Nat.mul_div_le n b).trans_lt h)

theorem sampleOfByte_toNat (b : Byte) : (sampleOfByte b).toNat = 2 ^ 16 * b.toNat := by
  rw [sampleOfByte, BitVec.toNat_append, BitVec.toNat_zero, Nat.or_zero, Nat.shiftLeft_eq, Nat.mul_comm]

section Tile

variable {s : State} {by' bx r c : Nat}

theorem tileSample_inside (h : by' * s.side + r < s.imgHeight ∧ bx * s.side + c < s.imgWidth) (ch : Nat) :
    tileSample s by' bx r c ch =
      sampleOfByte (s.byteAt .img (s.pixelAddr (bx * s.side + c) (by' * s.side + r) ch)) :=
  if_pos h

theorem tileSample_outside (h : ¬ (by' * s.side + r < s.imgHeight ∧ bx * s.side + c < s.imgWidth)) (ch : Nat) :
    tileSample s by' bx r c ch = 0#24 :=
  if_neg h

end Tile

/-! ### The symbols of a block -/

section Rows

variable {α : Type} {f : Nat → List α} {m : Nat} (hf : ∀ i, (f i).length = m)

include hf

theorem length_flatMap_range (n : Nat) : ((List.range n).flatMap f).length = n * m := by
  simp [List.length_flatMap, hf]

/-- Rows of one length laid end to end: place j of row i. -/
theorem getElem?_flatMap_range {n i j : Nat} (hi : i < n) (hj : j < m) :
    ((List.range n).flatMap f)[i * m + j]? = (f i)[j]? := by
  induction n with
  | zero => omega
  | succ n ih =>
    have hlen := length_flatMap_range hf n
    rw [List.range_succ, List.flatMap_append, List.flatMap_singleton]
    rcases Nat.lt_succ_iff_lt_or_eq.mp hi with hlt | rfl
    · have hrow : (i + 1) * m ≤ n * m := Nat.mul_le_mul_right m hlt
      rw [Nat.succ_mul] at hrow
      rw [List.getElem?_append_left (by omega), ih hlt]
    · rw [List.getElem?_append_right (by omega), hlen, Nat.add_sub_cancel_left]

end Rows

theorem pixelSymbols_length (s : State) (by' bx r c : Nat) : (pixelSymbols s by' bx r c).length = 3 := rfl

theorem blockRow_length (s : State) (by' bx r : Nat) :
    ((List.range s.side).flatMap fun c => pixelSymbols s by' bx r c).length = s.side * 3 :=
  length_flatMap_range (pixelSymbols_length s by' bx r) s.side

theorem blockSeq_length (s : State) (by' bx : Nat) : (blockSeq s by' bx).length = s.side * (s.side * 3) :=
  length_flatMap_range (blockRow_length s by' bx) s.side

/-- The three symbols of a pixel stand together, rows first (R71). -/
theorem blockSeq_getElem? (s : State) (by' bx : Nat) {r c k : Nat} (hr : r < s.side) (hc : c < s.side) (hk : k < 3) :
    (blockSeq s by' bx)[(r * s.side + c) * 3 + k]? = (pixelSymbols s by' bx r c)[k]? := by
  have hplace : (r * s.side + c) * 3 + k = r * (s.side * 3) + (c * 3 + k) := by ring
  rw [hplace, blockSeq, getElem?_flatMap_range (blockRow_length s by' bx) hr (by omega),
    getElem?_flatMap_range (pixelSymbols_length s by' bx r) hc hk]

/-- `colorTriple` by component (R66, R102). -/
theorem colorTriple_eq (ycbcr : Bool) (r g b : Sym) :
    colorTriple ycbcr r g b =
      (if ycbcr then (xformTriple r g b).1 else r, if ycbcr then (xformTriple r g b).2.1 else g,
        if ycbcr then (xformTriple r g b).2.2 else b) := by
  cases ycbcr <;> rfl

end Sys2Proof.Machine
end

section
/-! PROOFS. The statements about the quantizer and the tiler: O17, O32, O33 and O16. -/

namespace Sys2Proof.Proofs

open Sys2Proof Sys2Proof.Machine

/-- Settles O17: the quantized value is the least one with the index of its input. -/
theorem quantLaws : Obligations.QuantLaws := by
  intro x l hl hmax
  refine ⟨quantize_idem hl x, ?_, quantRaw_lt hl x, ?_, quantize_level_one x⟩
  · rw [quantize_toNat hl]
    exact quantRaw_le hl x.toNat
  · rintro m rfl
    rw [quantize_toNat hl]
    exact mul_quantRaw_of_dvd hl (two_pow_dvd_of_level hmax) x.toNat

/-- Settles O32: the block of a pixel is the quotient by the side, its row and column the remainders. -/
theorem tilerCovers : Obligations.TilerCovers := by
  intro s hbsize hwidth hheight
  have hside := BitVec.toNat_pos_of_ne_zero hbsize
  refine ⟨rfl, ceilDiv_mul_bounds hside (BitVec.toNat_pos_of_ne_zero hheight),
    ceilDiv_mul_bounds hside (BitVec.toNat_pos_of_ne_zero hwidth), fun x y hx hy => ?covered, ?samples⟩
  case covered =>
    obtain ⟨hr, hy'⟩ := (mul_add_eq_iff_div_mod hside (n := y)).mpr ⟨rfl, rfl⟩
    obtain ⟨hc, hx'⟩ := (mul_add_eq_iff_div_mod hside (n := x)).mpr ⟨rfl, rfl⟩
    refine ⟨(_, _, _, _), ⟨div_lt_ceilDiv hside hy, div_lt_ceilDiv hside hx, hr, hc, hy', hx'⟩, ?_⟩
    rintro ⟨by', bx, r, c⟩ ⟨-, -, hr, hc, hy', hx'⟩
    obtain ⟨rfl, rfl⟩ := (mul_add_eq_iff_div_mod hside).mp ⟨hr, hy'⟩
    obtain ⟨rfl, rfl⟩ := (mul_add_eq_iff_div_mod hside).mp ⟨hc, hx'⟩
    rfl
  case samples =>
    rintro by' bx r c ch x y rfl rfl
    refine ⟨fun hin => ?_, fun hout => tileSample_outside (fun h => hout h.symm) ch⟩
    rw [tileSample_inside hin.symm, sampleOfByte_toNat]
    rfl

/-- Settles O33: place k of the three of a pixel, for k = 0, 1, 2. -/
theorem blockSequence : Obligations.BlockSequence := by
  intro s by' bx
  refine ⟨(blockSeq_length s by' bx).trans (by rw [State.side]; ring), ?_⟩
  rintro r c _ _ _ hr hc rfl rfl rfl
  have hplace := fun k hk => (blockSeq_getElem? s by' bx hr hc (k := k) hk).trans
    (by rw [pixelSymbols, colorTriple_eq])
  exact ⟨hplace 0 (by decide), hplace 1 (by decide), hplace 2 (by decide)⟩

/-- Settles O16: level 0 is the one case that raises. -/
theorem quantResult : Obligations.QuantResult := by
  refine ⟨decode_encode .quant, fun s => ⟨fun hl => ?_, fun hl => ?_⟩⟩
  · have hpos : 1 ≤ s.level := BitVec.toNat_pos_of_ne_zero hl
    rcases quantRule_cases s with ⟨h0, -⟩ | ⟨-, hrun⟩
    · omega
    · rw [exec_eq_complete, commandRule, hrun, quantize_setWidth hpos, quantRaw, ceilDiv, Nat.add_sub_assoc hpos]
      rfl
  · rcases quantRule_cases s with ⟨-, hrun⟩ | ⟨h0, -⟩
    · rw [exec_eq_complete, commandRule, hrun]
      rfl
    · exact absurd (congrArg BitVec.toNat hl) h0

end Sys2Proof.Proofs
end

section
/-! PROOFS. The output of COMPRESS: the counters of a block move together, what one coded block adds to the packer and to
LEN, and what stands there after some number of blocks. -/

namespace Sys2Proof.Machine

open Sys2Proof

/-! ### The counters of a block -/

/-- BITPOS and TOTALBITS where the current block began: what they were BLKBITS bits ago. -/
def Packer.blockStart (p : Packer) : Word × Word := (p.bitpos - p.blkbits, p.totalbits - p.blkbits)

theorem Packer.blockStart_advance (p : Packer) : p.advance.blockStart = p.blockStart := by
  simp only [blockStart, advance, add_sub_add_right_eq_sub]

theorem emit_blockStart (b : Bool) (s : State) : (emit b s).state.pk.blockStart = s.pk.blockStart := by
  rcases emit_cases b s with ⟨-, h⟩ | ⟨-, h⟩ <;> rw [h]
  · rfl
  · exact s.pk.blockStart_advance

theorem renormLoop_blockStart (n : Nat) (s : State) : (renormLoop n s).state.pk.blockStart = s.pk.blockStart := by
  induction n generalizing s with
  | zero => rfl
  | succ n ih =>
    have turn (b : Bool) (g : Coder → Coder) :
        ((emit b s).andThen fun t => renormLoop n { t with coder := g t.coder }).state.pk.blockStart =
          s.pk.blockStart := by
      have hemit := emit_blockStart b s
      refine andThen_keeps (P := fun t => t.pk.blockStart = s.pk.blockStart) hemit fun t ht => (ih _).trans ?_
      rwa [ht] at hemit
    unfold renormLoop
    split
    · exact turn false Coder.doubleLower
    · split
      · exact turn true Coder.doubleUpper
      · rfl

theorem narrow_pk (c t : Word) (s : State) : (narrow c t s).state.pk = s.pk := by
  rcases narrow_cases c t s with ⟨-, h⟩ | ⟨k, -, h⟩ <;> rw [h] <;> rfl

theorem adaptTable_pk (k : Key) (s : State) : (adaptTable k s).state.pk = s.pk := by
  rcases adaptTable_cases k s with ⟨-, h⟩ | ⟨-, h⟩ <;> rw [h]
  · rfl
  · rcases ftIncrement_state_cases k s with h | ⟨ft, h⟩
    · rw [h]
    · rw [h]
      rfl

/-- Coding a symbol moves BITPOS, BLKBITS and TOTALBITS by the same number of bits (R89, R91). -/
theorem encodeSymbol_blockStart (v : Sym) (s : State) :
    (encodeSymbol v s).state.pk.blockStart = s.pk.blockStart := by
  have hnarrow := congrArg Packer.blockStart (narrow_pk (s.prob v).1 (s.prob v).2 s)
  refine andThen_keeps (P := fun t => t.pk.blockStart = s.pk.blockStart) hnarrow fun s1 h1 => ?_
  rw [h1] at hnarrow
  have hrenorm := (renormLoop_blockStart (s1.room + 1) s1).trans hnarrow
  refine andThen_keeps (P := fun t => t.pk.blockStart = s.pk.blockStart) hrenorm fun s2 h2 => ?_
  rw [show renormLoop (s1.room + 1) s1 = .ok s2 from h2] at hrenorm
  have hadapt := (congrArg Packer.blockStart (adaptTable_pk (s.keyOf v) s2)).trans hrenorm
  refine andThen_keeps (P := fun t => t.pk.blockStart = s.pk.blockStart) hadapt fun s3 h3 => ?_
  rwa [h3] at hadapt

theorem forEach_encodeSymbol_blockStart (l : List Sym) (s : State) :
    (forEach encodeSymbol l s).state.pk.blockStart = s.pk.blockStart :=
  forEach_keeps (P := fun t => t.pk.blockStart = s.pk.blockStart) l
    (fun v _ t ht => (encodeSymbol_blockStart v t).trans ht) s rfl

/-! ### One block -/

/-- The packer's counters are small: no sum of two of them wraps. -/
theorem dataSound.counters_le {s : State} (h : dataSound s) :
    s.pk.blkbits.toNat ≤ s.pk.totalbits.toNat ∧ s.pk.totalbits.toNat ≤ s.pk.bitpos.toNat ∧
      s.pk.bitpos.toNat ≤ 8388608 ∧ s.pk.blkidx.toNat ≤ 262144 := by
  have hcaps := h.caps
  simp only [Config.Caps.legal, Bool.and_eq_true, decide_eq_true_eq] at hcaps
  obtain ⟨hblk, htotal, hpos, hidx⟩ := h.coding.pk
  omega

/-- `t` is `s` with one more block coded, of `n` bits: its LEN entry, and the counters that COMPRESS reports (R89,
R96). -/
structure blockAdded (s t : State) (n : Word) : Prop where
  caps      : t.caps = s.caps
  nblocks   : t.nblocks = s.nblocks
  blkidx    : t.pk.blkidx.toNat = s.pk.blkidx.toNat + 1
  blkbits   : t.pk.blkbits = 0#32
  totalbits : t.pk.totalbits.toNat = s.pk.totalbits.toNat + n.toNat
  bitpos    : t.pk.bitpos.toNat = 8 * ceilDiv (s.pk.bitpos.toNat + n.toNat) 8
  lenMem    : t.lenMem = s.lenMem.writeWord (4 * s.pk.blkidx.toNat) n

theorem codesFrom.nblocks {s t : State} (h : codesFrom s t) : t.nblocks = s.nblocks := by rw [h]

theorem padToByte_toNat {n : Word} (h : n.toNat ≤ 8388608) : (padToByte n).toNat = 8 * ceilDiv n.toNat 8 := by
  simp only [padToByte, BitVec.toNat_ofNat, ceilDiv]
  omega

/-- A block that goes through adds its BLKBITS bits (R94, R96, R103). -/
theorem codeBlock_ok {i : Nat} {s t : State} (hs : dataSound s) (h : codeBlock i s = .ok t) :
    ∃ n, blockAdded s t n := by
  obtain ⟨u, hcoded, rfl, hfrom⟩ := codeSequence_ok h
  have hstart := forEach_encodeSymbol_blockStart (blockSeq s (i / s.blockCols) (i % s.blockCols)) (beginBlock s)
  have hsound := forEach_keeps (blockSeq s (i / s.blockCols) (i % s.blockCols))
    (fun v _ _ ht => encodeSymbol_dataSound v ht) _ (beginBlock_dataSound hs)
  rw [hcoded, Run.state_ok] at hstart hsound
  obtain ⟨hblk, htotal, hpos, hidx⟩ := hsound.counters_le
  obtain ⟨-, htotal₀, hpos₀, -⟩ := hs.counters_le
  simp only [Packer.blockStart, beginBlock_pk, BitVec.sub_zero, Prod.mk.injEq, sub_eq_iff_eq_add] at hstart
  obtain ⟨hposAdd, htotalAdd⟩ := hstart
  have hposNat := congrArg BitVec.toNat hposAdd
  have htotalNat := congrArg BitVec.toNat htotalAdd
  rw [BitVec.toNat_add_of_lt (by omega)] at hposNat htotalNat
  have hidxEq : u.pk.blkidx = s.pk.blkidx := hfrom.blkidx
  refine ⟨u.pk.blkbits, hfrom.caps, hfrom.nblocks, ?_, rfl, htotalNat, ?_, ?_⟩
  · rw [closeBlock_pk, BitVec.toNat_add_of_lt (by simp only [BitVec.toNat_ofNat]; omega), hidxEq]
    rfl
  · rw [closeBlock_pk, padToByte_toNat hpos, hposNat]
  · rw [closeBlock_lenMem, hidxEq, hfrom.lenMem]
    rfl

theorem codeBlock_dataSound {i : Nat} {s t : State} (hs : dataSound s) (hroom : s.pk.blkidx.toNat < s.caps.lenWords)
    (h : codeBlock i s = .ok t) : dataSound t := by
  have hfit := codeBlock_blocksFit i 0 s ⟨hs, hroom⟩
  rw [h] at hfit
  exact hfit.1

theorem blockAdded.lenEntry_new {s t : State} {n : Word} (h : blockAdded s t n) : t.lenEntry s.pk.blkidx.toNat = n := by
  rw [State.lenEntry, h.lenMem, Memory.readWord_writeWord]

theorem blockAdded.lenEntry_other {s t : State} {n : Word} (h : blockAdded s t n) {j : Nat}
    (hj : j ≠ s.pk.blkidx.toNat) : t.lenEntry j = s.lenEntry j := by
  rw [State.lenEntry, h.lenMem, Memory.readWord_writeWord_other _ _ _ _ _ hj, State.lenEntry]

/-! ### Many blocks -/

/-- The sum of a measure of the first `n` LEN entries. -/
def State.lenSum (s : State) (f : Word → Nat) (n : Nat) : Nat := ((List.range n).map fun i => f (s.lenEntry i)).sum

theorem blockAdded.lenSum {s t : State} {n : Word} (h : blockAdded s t n) (f : Word → Nat) :
    t.lenSum f (s.pk.blkidx.toNat + 1) = s.lenSum f s.pk.blkidx.toNat + f n := by
  have hbefore : ∀ i ∈ List.range s.pk.blkidx.toNat, f (t.lenEntry i) = f (s.lenEntry i) := fun i hi =>
    congrArg f (h.lenEntry_other (List.mem_range.mp hi).ne)
  rw [State.lenSum, List.sum_range_succ, h.lenEntry_new, List.map_congr_left hbefore, State.lenSum]

/-- The bytes that a block of `n` bits takes in BITS (R96). -/
def bytesOfBits (n : Word) : Nat := (n.toNat + 7) / 8

/-- `t` is reached from `s` by coding `n` blocks from an empty stream: the counters tell the LEN entries (R68, R106). -/
structure blocksCoded (s : State) (n : Nat) (t : State) : Prop where
  sound     : dataSound t
  caps      : t.caps = s.caps
  nblocks   : t.nblocks = s.nblocks
  blkidx    : t.pk.blkidx.toNat = n
  blkbits   : t.pk.blkbits = 0#32
  totalbits : t.pk.totalbits.toNat = t.lenSum BitVec.toNat n
  bitpos    : t.pk.bitpos.toNat = 8 * t.lenSum bytesOfBits n
  lenAbove  : ∀ a, 4 * n ≤ a → t.byteAt .len a = s.byteAt .len a

theorem blocksCoded_setup {s : State} (h : dataSound s) : blocksCoded (compressSetup s) 0 (compressSetup s) :=
  ⟨h.resetPacker.congr rfl, rfl, rfl, rfl, rfl, rfl, rfl, fun _ _ => rfl⟩

theorem blocksCoded.succ {s t u : State} {i n : Nat} (h : blocksCoded s n t) (hroom : n < s.caps.lenWords)
    (hblock : codeBlock i t = .ok u) : blocksCoded s (n + 1) u := by
  obtain ⟨w, hadd⟩ := codeBlock_ok h.sound hblock
  have hsound := codeBlock_dataSound h.sound (by rw [h.blkidx, h.caps]; exact hroom) hblock
  have hsum := hadd.lenSum
  have hlen := hadd.lenMem
  have hpos := hadd.bitpos
  rw [h.blkidx] at hsum hlen
  refine ⟨hsound, hadd.caps.trans h.caps, hadd.nblocks.trans h.nblocks, by rw [hadd.blkidx, h.blkidx], hadd.blkbits,
    by rw [hadd.totalbits, h.totalbits, hsum], ?_, fun a ha => ?_⟩
  · rw [hpos, h.bitpos, hsum, bytesOfBits, ceilDiv]
    omega
  · rw [← h.lenAbove a (by omega), State.byteAt, hlen, Memory.read_writeWord_other _ _ _ _ _ (by omega), State.byteAt]

theorem blocksCoded.of_forEach {s t u : State} {n : Nat} {l : List Nat} (h : blocksCoded s n t)
    (hroom : n + l.length ≤ s.caps.lenWords) (hloop : forEach codeBlock l t = .ok u) :
    blocksCoded s (n + l.length) u := by
  induction l generalizing n t with
  | nil =>
    cases hloop
    exact h
  | cons i l ih =>
    rw [List.length_cons] at hroom ⊢
    rw [forEach_cons, andThen_ok_iff] at hloop
    obtain ⟨v, hblock, hrest⟩ := hloop
    rw [Nat.add_comm l.length, ← Nat.add_assoc]
    exact ih (h.succ (by omega) hblock) (by omega) hrest

/-- VALID = 1 stands after the rule of COMPRESS only where its checks passed and every block went through (R104,
R111). -/
theorem compressRule_of_valid {s : State} (h : (compressRule s).state.status.valid = true) :
    compressCheck s = none ∧ ∃ u, forEach codeBlock (List.range s.blockCount) (compressSetup s.clearValid) = .ok u ∧
      compressRule s = .ok u.setValid := by
  rcases compressRule_cases s with ⟨e, -, hrun⟩ | ⟨hcheck, hrun⟩
  · rw [hrun] at h
    cases h
  · have hstatus := forEach_keeps (P := fun t => t.status.valid = false) (List.range s.blockCount)
      (fun i _ t ht => (codeBlock_status i t).symm ▸ ht) (compressSetup s.clearValid) rfl
    cases hloop : forEach codeBlock (List.range s.blockCount) (compressSetup s.clearValid) with
    | ok u =>
      rw [hloop] at hrun
      exact ⟨hcheck, u, rfl, hrun⟩
    | raised e u =>
      rw [hloop] at hrun hstatus
      rw [hrun] at h
      exact absurd (hstatus.symm.trans h) Bool.false_ne_true

end Sys2Proof.Machine
end

section
/-! PROOFS. The statement about the output of COMPRESS: O37. -/

namespace Sys2Proof.Proofs

open Sys2Proof Sys2Proof.Machine

/-- Settles O37: the loop adds one block at a time to an empty stream. -/
theorem compressOutput : Obligations.CompressOutput := by
  intro s t hinv hexec hvalid
  obtain rfl := exec_next_iff.mp hexec
  rw [complete_valid] at hvalid
  obtain ⟨hcheck, u, hloop, hrun⟩ := compressRule_of_valid hvalid
  obtain ⟨-, -, -, hlen⟩ := (compressCheck_eq_none_iff s).mp hcheck
  have hsetup := blocksCoded_setup (s := s.clearValid) (hinv.dataSound.congr rfl)
  have hcoded := hsetup.of_forEach (by simpa using hlen) hloop
  rw [List.length_range, Nat.zero_add] at hcoded
  rw [commandRule, hrun]
  refine ⟨?_, hcoded.blkidx, hcoded.blkbits, hcoded.totalbits, hcoded.bitpos, hcoded.lenAbove⟩
  obtain ⟨-, -, -, hidx⟩ := hcoded.sound.counters_le
  have hsmall : s.blockCount ≤ 262144 := hcoded.blkidx ▸ hidx
  change u.nblocks.toNat = _
  rw [hcoded.nblocks]
  exact Nat.mod_eq_of_lt (show s.blockCount < 2 ^ 32 by omega)

end Sys2Proof.Proofs
end

section
/-! PROOFS. The context model: FT_INC case by case, what reference mode leaves of the table, and AC_ENCODE up to the increment
of the adaptive mode. -/

namespace Sys2Proof.Machine

open Sys2Proof

/-! ### The increment, case by case -/

section Increment

variable {k : Key} {s : State}

theorem ftIncrement_of_max (htotal : s.ft.total = 0xFFFFFFFF#32) : ftIncrement k s = .raised .countOverflow s :=
  if_pos htotal

theorem ftIncrement_of_present (htotal : s.ft.total ≠ 0xFFFFFFFF#32) (hp : s.ft.present k = true) :
    ftIncrement k s = .ok { s with
      ft := { entries := s.ft.setCount k (s.ft.count k + 1#32), total := s.ft.total + 1#32, used := s.ft.used } } := by
  rw [ftIncrement, if_neg htotal, if_pos hp]

theorem ftIncrement_of_full (htotal : s.ft.total ≠ 0xFFFFFFFF#32) (hp : s.ft.present k = false)
    (hfull : s.ft.used.toNat = s.caps.ftEntries) : ftIncrement k s = .raised .ftFull s := by
  rw [ftIncrement, if_neg htotal, hp, if_neg Bool.false_ne_true, if_pos hfull]

theorem ftIncrement_of_absent (htotal : s.ft.total ≠ 0xFFFFFFFF#32) (hp : s.ft.present k = false)
    (hroom : s.ft.used.toNat ≠ s.caps.ftEntries) :
    ftIncrement k s = .ok { s with
      ft := { entries := s.ft.setCount k 1#32, total := s.ft.total + 1#32, used := s.ft.used + 1#32 } } := by
  rw [ftIncrement, if_neg htotal, hp, if_neg Bool.false_ne_true, if_neg hroom]

/-- The two errors of an increment, COUNT_OVERFLOW before FT_FULL (R79, R114). -/
theorem ftIncrement_of_failing
    (h : s.ft.total = 0xFFFFFFFF#32 ∨ (s.ft.present k = false ∧ s.ft.used.toNat = s.caps.ftEntries)) :
    ftIncrement k s = .raised (if s.ft.total = 0xFFFFFFFF#32 then .countOverflow else .ftFull) s := by
  by_cases htotal : s.ft.total = 0xFFFFFFFF#32
  · rw [if_pos htotal, ftIncrement_of_max htotal]
  · obtain ⟨hp, hfull⟩ := h.resolve_left htotal
    rw [if_neg htotal, ftIncrement_of_full htotal hp hfull]

end Increment

/-- The keys of a table with one count set. -/
theorem FreqTable.present_setCount (ft : FreqTable) (k k' : Key) (n t u : Word) :
    FreqTable.present { entries := ft.setCount k n, total := t, used := u } k' =
      (decide (k' = k) || ft.present k') := by
  unfold FreqTable.present FreqTable.setCount
  by_cases hk : k' = k
  · subst hk
    simp only [assocFind_put_same, Option.isSome_some, decide_true, Bool.true_or]
  · simp only [assocFind_put_other _ _ _ _ _ fun h => hk (Key.rank_inj h), hk, decide_false, Bool.false_or]

/-- No count wraps at an increment: it is part of a total that does not wrap (R79). -/
theorem FreqTable.toNat_count_add_one {ft : FreqTable} (h : ft.wf) (htotal : ft.total ≠ 0xFFFFFFFF#32) (k : Key) :
    (ft.count k + 1#32).toNat = (ft.count k).toNat + 1 := by
  refine Word.toNat_add_one fun hmax => htotal ?_
  have hle := FreqTable.count_le_total h k
  rw [hmax] at hle
  exact BitVec.eq_of_toNat_eq (Nat.le_antisymm (Nat.le_of_lt_succ ft.total.isLt) hle)

/-! ### Reference mode -/

/-- The device is in reference mode and its table is `ft`. -/
def referenceTable (ft : FreqTable) (s : State) : Prop := s.config.adapt = false ∧ s.ft = ft

/-- A property that emitting a bit and replacing the coder keep holds after the loop of `Renorm()`. -/
theorem renormLoop_keeps {P : State → Prop} (hemit : ∀ b s, P s → P (emit b s).state)
    (hcoder : ∀ k s, P s → P { s with coder := k }) (n : Nat) (s : State) (hs : P s) : P (renormLoop n s).state := by
  induction n generalizing s with
  | zero => exact hs
  | succ n ih =>
    have turn (b : Bool) (g : Coder → Coder) :
        P ((emit b s).andThen fun t => renormLoop n { t with coder := g t.coder }).state := by
      have h := hemit b s hs
      refine andThen_keeps h fun t ht => ih _ (hcoder _ t ?_)
      rwa [ht] at h
    unfold renormLoop
    split
    · exact turn false Coder.doubleLower
    · split
      · exact turn true Coder.doubleUpper
      · exact hs

section Reference

variable {ft : FreqTable} {s : State}

theorem narrow_referenceTable (c t : Word) (h : referenceTable ft s) : referenceTable ft (narrow c t s).state := by
  rcases narrow_cases c t s with ⟨-, hrun⟩ | ⟨k, -, hrun⟩ <;> rw [hrun] <;> exact h

theorem emit_referenceTable (b : Bool) (h : referenceTable ft s) : referenceTable ft (emit b s).state := by
  rcases emit_cases b s with ⟨-, hrun⟩ | ⟨-, hrun⟩ <;> rw [hrun] <;> exact h

theorem adaptTable_of_reference (k : Key) (h : referenceTable ft s) : adaptTable k s = .ok s := by
  rw [adaptTable, h.1, if_neg Bool.false_ne_true]

/-- Coding a symbol in reference mode reads the table only (R80, R91). -/
theorem encodeSymbol_referenceTable (v : Sym) (h : referenceTable ft s) :
    referenceTable ft (encodeSymbol v s).state := by
  have hnarrow := narrow_referenceTable (s.prob v).1 (s.prob v).2 h
  refine andThen_keeps hnarrow fun s1 h1 => ?_
  rw [h1] at hnarrow
  have hrenorm : referenceTable ft (renorm s1).state :=
    renormLoop_keeps (fun b _ => emit_referenceTable b) (fun _ _ h => h) _ s1 hnarrow
  refine andThen_keeps hrenorm fun s2 h2 => ?_
  rw [h2, Run.state_ok] at hrenorm
  rw [adaptTable_of_reference _ hrenorm]
  exact hrenorm

theorem codeBlock_referenceTable (i : Nat) (h : referenceTable ft s) : referenceTable ft (codeBlock i s).state := by
  have hcoded := forEach_keeps (blockSeq s (i / s.blockCols) (i % s.blockCols))
    (fun v _ _ ht => encodeSymbol_referenceTable v ht) (beginBlock s) h
  refine andThen_keeps hcoded fun t ht => ?_
  rw [ht] at hcoded
  exact hcoded

theorem compressRule_referenceTable (h : referenceTable ft s) : referenceTable ft (compressRule s).state := by
  rcases compressRule_cases s with ⟨e, -, hrun⟩ | ⟨-, hrun⟩ <;> rw [hrun]
  · exact h
  · have hblocks := forEach_keeps (List.range s.blockCount) (fun i _ _ ht => codeBlock_referenceTable i ht)
      (compressSetup s.clearValid) h
    refine andThen_keeps hblocks fun t ht => ?_
    rw [ht] at hblocks
    exact hblocks

/-- In reference mode only FT_INC and FT_CLEAR write the table (R80, R81). -/
theorem commandRule_referenceTable {i : Instr} (hinc : i ≠ .ftInc) (hclear : i ≠ .ftClear) (h : referenceTable ft s) :
    referenceTable ft (commandRule i s).state := by
  cases i with
  | nop | pkReset | xform | prob | acBegin => exact h
  | compress => exact compressRule_referenceTable h
  | ftInc => exact absurd rfl hinc
  | ftClear => exact absurd rfl hclear
  | quant => rcases quantRule_cases s with ⟨-, hrun⟩ | ⟨-, hrun⟩ <;> rw [commandRule, hrun] <;> exact h
  | acEncode => exact encodeSymbol_referenceTable s.symbolOperand (s := s.clearValid) h
  | acEnd => rcases acEndRule_cases s with ⟨-, hrun⟩ | ⟨-, hrun⟩ <;> rw [commandRule, hrun] <;> exact h

end Reference

/-! ### AC_ENCODE up to the increment -/

/-- `t` is `s` with its interval narrowed to [l, h) and renormalized by `n` turns: the bounds, the counters, the stream and
the bytes of BITS (R86, R87, R89). -/
structure narrowedTo (s t : State) (l h n : Nat) : Prop where
  state   : t = { s with
    coder := { low := BitVec.ofNat 32 (lowAfter l n), high := BitVec.ofNat 32 (highAfter l h n) }
    pk := s.pk.after n
    bits := t.bits }
  emitted : ∀ j < n, t.streamBit (s.pk.bitpos.toNat + j) = decide (2 ^ 30 ≤ lowAfter l j)
  before  : ∀ j < s.pk.bitpos.toNat, t.streamBit j = s.streamBit j
  bytes   : ∀ a, (∀ j < n, a ≠ (s.pk.bitpos.toNat + j) / 8) → t.byteAt .bits a = s.byteAt .bits a

theorem renormsTo.narrowedTo {s t : State} {k : Coder} {n : Nat} (h : renormsTo { s with coder := k } t n) :
    narrowedTo s t k.low.toNat k.high.toNat n := by
  refine ⟨?_, h.emitted, h.before, h.bytes⟩
  have hcoder : t.coder = { low := BitVec.ofNat 32 (lowAfter k.low.toNat n)
                            high := BitVec.ofNat 32 (highAfter k.low.toNat k.high.toNat n) } := by
    rw [← h.low, ← h.high, BitVec.ofNat_toNat, BitVec.ofNat_toNat, BitVec.setWidth_eq, BitVec.setWidth_eq]
  rw [← hcoder]
  exact h.state

/-- Coding a symbol whose interval is not empty and whose bits fit comes as far as the increment of the adaptive mode
(R91). -/
theorem encodeSymbol_narrowedTo {s : State} {v : Sym} {l h n : Nat} (hs : codingSound s)
    (hl : l = narrowedLow s.coder (s.prob v).1.toNat (s.prob v).2.toNat)
    (hh : h = narrowedHigh s.coder (s.prob v).1.toNat (s.prob v).2.toNat) (hne : l ≠ h) (hturns : renormTurns l h n)
    (hroom : s.pk.bitpos.toNat + n ≤ 8 * s.caps.bitsBytes) :
    ∃ t, narrowedTo s t l h n ∧ encodeSymbol v s =
      (adaptTable (s.keyOf v) t).andThen fun u => .ok { u with hist := u.hist.push v } := by
  subst hl hh
  have hpart : (s.prob v).1.toNat ≤ (s.prob v).2.toNat := FreqTable.count_le_total hs.ft _
  obtain ⟨k, hnarrow, hk, hlow, hhigh⟩ := narrow_ok hpart hs.coder hne
  rw [← hlow, ← hhigh] at hturns ⊢
  obtain ⟨t, hrenorm, ht⟩ := renorm_ok (s := { s with coder := k }) hk hs.padding hs.bitsCap hturns hroom
  exact ⟨t, ht.narrowedTo, by rw [encodeSymbol, hnarrow, Run.andThen_ok, hrenorm, Run.andThen_ok]⟩

/-- Coding a symbol in adaptive mode whose increment fails ends there: nothing is counted or pushed (R79, R91, R111). -/
theorem narrowedTo.adaptTable_raised {s t : State} {v : Sym} {l h n : Nat} (ht : narrowedTo s t l h n)
    (hadapt : s.config.adapt = true)
    (hfail : s.ft.total = 0xFFFFFFFF#32 ∨ (s.ft.present (s.keyOf v) = false ∧ s.ft.used.toNat = s.caps.ftEntries)) :
    adaptTable (s.keyOf v) t = .raised (if s.ft.total = 0xFFFFFFFF#32 then .countOverflow else .ftFull) t := by
  have hconfig : t.config = s.config := by rw [ht.state]
  have hft : t.ft = s.ft := by rw [ht.state]
  have hcaps : t.caps = s.caps := by rw [ht.state]
  rw [adaptTable, hconfig, if_pos hadapt, ← hft, ftIncrement_of_failing (by rwa [hft, hcaps])]

end Sys2Proof.Machine
end

section
/-! PROOFS. The statements about the context model: O9, O19, O20, O27, O18 and O21. -/

namespace Sys2Proof.Proofs

open Sys2Proof Sys2Proof.Machine

/-- Settles O9: reference mode and the table are kept together, by every rule but the two. -/
theorem referenceModeKeepsTable : Obligations.ReferenceModeKeepsTable := by
  intro i s t hadapt hinc hclear hexec
  obtain ⟨-, hft⟩ := commandRule_referenceTable hinc hclear (s := s) ⟨hadapt, rfl⟩
  rw [exec_next_state hexec]
  exact hft

/-- Settles O19: a count is part of the total, and the rest is arithmetic over a positive denominator. -/
theorem intervalLaw : Obligations.IntervalLaw := by
  refine ⟨fun ft k hwf => ?_, fun _ => rfl, rfl⟩
  have hle := FreqTable.count_le_total hwf k
  have hleRat : ((ft.count k).toNat : Rat) ≤ ft.total.toNat := Nat.cast_le.mpr hle
  have hpos : (0 : Rat) < ft.total.toNat + 1 := Nat.cast_add_one_pos _
  exact ⟨hle, div_nonneg (Nat.cast_nonneg _) hpos.le, div_lt_div_of_pos_right (lt_add_one _) hpos,
    (div_le_one hpos).mpr (add_le_add_left hleRat 1), one_div_pos.mpr hpos⟩

/-- Settles O20, one case of R79 at a time. -/
theorem ftIncResult : Obligations.FtIncResult := by
  refine ⟨decode_encode .ftInc, fun s k hk => ?_⟩
  have hexec : exec .ftInc s = .next (complete (ftIncrement k s)) := by rw [hk]; rfl
  refine ⟨fun htotal => ?max, fun htotal hp => ?present, fun htotal hp hfull => ?full, fun htotal hp hroom => ?absent⟩
  case max =>
    rw [hexec, ftIncrement_of_max htotal]
    rfl
  case present =>
    rw [hexec, ftIncrement_of_present htotal hp]
    have hcount := FreqTable.count_setCount s.ft k k (s.ft.count k + 1#32) (s.ft.total + 1#32) s.ft.used
    rw [if_pos rfl] at hcount
    refine ⟨_, rfl, rfl, hcount, fun hwf => ?_, fun k' hk' => ?_, fun k' => ?_⟩
    · exact (congrArg BitVec.toNat hcount).trans (FreqTable.toNat_count_add_one hwf htotal k)
    · exact (FreqTable.count_setCount ..).trans (if_neg hk')
    · refine (FreqTable.present_setCount ..).trans ?_
      by_cases hk' : k' = k
      · rw [hk', hp, Bool.or_true]
      · rw [decide_eq_false hk', Bool.false_or]
  case full =>
    rw [hexec, ftIncrement_of_full htotal hp hfull]
    rfl
  case absent =>
    rw [hexec, ftIncrement_of_absent htotal hp hroom]
    exact ⟨_, rfl, rfl, (FreqTable.count_setCount ..).trans (if_pos rfl),
      fun k' hk' => (FreqTable.count_setCount ..).trans (if_neg hk'), fun k' => FreqTable.present_setCount ..⟩

/-- Settles O27: coding comes as far as the increment, which raises in the state it found. -/
theorem acEncodeTableErrors : Obligations.AcEncodeTableErrors := by
  rintro s _ nl nh n hinv rfl hnl hnh hne hturns hroom hadapt hfail
  have hsound : codingSound s.clearValid := (hinv.dataSound.congr (t := s.clearValid) rfl).coding
  obtain ⟨t, ht, hcode⟩ := encodeSymbol_narrowedTo (v := s.op0) hsound hnl hnh hne hturns hroom
  have hexec : exec .acEncode s = .next (complete (encodeSymbol s.op0 s.clearValid)) := rfl
  rw [hexec, hcode, ht.adaptTable_raised hadapt hfail]
  refine ⟨_, rfl, ?_, ht.emitted, ht.before, ht.bytes⟩
  have hstate := ht.state
  generalize t.bits = bits at hstate
  subst hstate
  rfl

/-- Settles O18: the rule of PROB, completed. -/
theorem probResult : Obligations.ProbResult :=
  ⟨decode_encode .prob, exec_eq_complete .prob⟩

/-- Settles O21: the rule of FT_CLEAR, completed; nothing is listed in the table it leaves. -/
theorem ftClearResult : Obligations.FtClearResult :=
  ⟨decode_encode .ftClear, fun s => ⟨_, exec_eq_complete .ftClear s, rfl, fun _ => ⟨rfl, rfl⟩⟩⟩

end Sys2Proof.Proofs
end

section
/-! PROOFS. The coder: how many turns renormalization takes, the increment of the adaptive mode where it goes through, where
coding a symbol stops, and reference mode with an empty table. -/

namespace Sys2Proof.Machine

open Sys2Proof

/-! ### The number of turns -/

theorem highAfter_sub_lowAfter (l h m : Nat) : highAfter l h m - lowAfter l m = (h - l) * 2 ^ m :=
  Nat.add_sub_cancel_left ..

section Turns

variable {l h : Nat} (hl : l < h)

include hl

theorem lowAfter_lt_highAfter (m : Nat) : lowAfter l m < highAfter l h m :=
  Nat.lt_add_of_pos_right (Nat.mul_pos (Nat.sub_pos_of_lt hl) (Nat.two_pow_pos m))

/-- 32 doublings of a non-empty interval do not fit in [0, ONE], so one of the first 31 straddles 0.5 (R88). -/
theorem exists_straddles (hh : h ≤ 2147483648) : ∃ n ≤ 31, straddles l h n := by
  by_contra hnone
  have hle := highAfter_le hl hh 32 fun m hm hs => hnone ⟨m, Nat.le_of_lt_succ hm, hs⟩
  have hwidth : 2 ^ 32 ≤ (h - l) * 2 ^ 32 := Nat.le_mul_of_pos_left _ (Nat.sub_pos_of_lt hl)
  rw [highAfter] at hle
  omega

theorem exists_renormTurns (hh : h ≤ 2147483648) : ∃ n ≤ 31, renormTurns l h n := by
  obtain ⟨n, hn, hs⟩ := exists_straddles hl hh
  have hex : ∃ n, straddles l h n := ⟨n, hs⟩
  exact ⟨Nat.find hex, (Nat.find_min' hex hs).trans hn, Nat.find_spec hex, fun _ => Nat.find_min hex⟩

end Turns

/-- A coder that straddles 0.5 already is left as it is (R87). -/
theorem renorm_of_straddling {s : State} (hlow : s.coder.low.toNat < coderHalf)
    (hhigh : coderHalf ≤ s.coder.high.toNat) : renorm s = .ok s := by
  rw [renorm, renormLoop, if_neg hhigh.not_gt, if_neg hlow.not_ge]

/-! ### The increment of the adaptive mode -/

theorem FreqTable.count_of_absent {ft : FreqTable} {k : Key} (h : ft.present k = false) : ft.count k = 0#32 := by
  rw [FreqTable.present, Option.isSome_eq_false_iff, Option.isNone_iff_eq_none] at h
  rw [FreqTable.count, h]

/-- `ft'` is `ft` with one more occurrence of `k` (R79). -/
structure countsOne (k : Key) (ft ft' : FreqTable) : Prop where
  same  : ft'.count k = ft.count k + 1#32
  other : ∀ k', k' ≠ k → ft'.count k' = ft.count k'
  total : ft'.total = ft.total + 1#32
  used  : ft'.used = if ft.present k then ft.used else ft.used + 1#32

theorem countsOne_setCount (k : Key) (ft : FreqTable) :
    countsOne k ft
      { entries := ft.setCount k (ft.count k + 1#32)
        total := ft.total + 1#32
        used := if ft.present k then ft.used else ft.used + 1#32 } :=
  ⟨(FreqTable.count_setCount ..).trans (if_pos rfl), fun _ hk => (FreqTable.count_setCount ..).trans (if_neg hk), rfl, rfl⟩

/-- An increment that is possible counts the key, new or present (R79). -/
theorem ftIncrement_ok {k : Key} {s : State} (htotal : s.ft.total ≠ 0xFFFFFFFF#32)
    (hroom : s.ft.present k = true ∨ s.ft.used.toNat ≠ s.caps.ftEntries) :
    ∃ ft, ftIncrement k s = .ok { s with ft := ft } ∧ countsOne k s.ft ft := by
  refine ⟨_, ?_, countsOne_setCount k s.ft⟩
  cases hp : s.ft.present k with
  | true => exact ftIncrement_of_present htotal hp
  | false =>
    rw [FreqTable.count_of_absent hp]
    exact ftIncrement_of_absent htotal hp (hroom.resolve_left (by rw [hp]; exact Bool.false_ne_true))

/-- The post-symbol increment where it is possible: it counts the key in adaptive mode only (R80). -/
theorem adaptTable_ok {k : Key} {s : State}
    (h : s.config.adapt = true →
      s.ft.total ≠ 0xFFFFFFFF#32 ∧ (s.ft.present k = true ∨ s.ft.used.toNat ≠ s.caps.ftEntries)) :
    ∃ ft, adaptTable k s = .ok { s with ft := ft } ∧ (s.config.adapt = false → ft = s.ft) ∧
      (s.config.adapt = true → countsOne k s.ft ft) := by
  rcases adaptTable_cases k s with ⟨hmode, hrun⟩ | ⟨hmode, hrun⟩
  · exact ⟨s.ft, hrun, fun _ => rfl, fun hadapt => absurd (hmode.symm.trans hadapt) Bool.false_ne_true⟩
  · obtain ⟨htotal, hroom⟩ := h hmode
    obtain ⟨ft, hinc, hcount⟩ := ftIncrement_ok htotal hroom
    exact ⟨ft, hrun.trans hinc, fun hadapt => absurd (hadapt.symm.trans hmode) Bool.false_ne_true, fun _ => hcount⟩

/-- Coding a symbol whose increment is possible goes through (R91). -/
theorem narrowedTo.adaptTable_ok {s t : State} {k : Key} {l h n : Nat} (ht : narrowedTo s t l h n)
    (hadapt : s.config.adapt = true →
      s.ft.total ≠ 0xFFFFFFFF#32 ∧ (s.ft.present k = true ∨ s.ft.used.toNat ≠ s.caps.ftEntries)) :
    ∃ ft, adaptTable k t = .ok { t with ft := ft } ∧ (s.config.adapt = false → ft = s.ft) ∧
      (s.config.adapt = true → countsOne k s.ft ft) := by
  have hconfig : t.config = s.config := by rw [ht.state]
  have hft : t.ft = s.ft := by rw [ht.state]
  have hcaps : t.caps = s.caps := by rw [ht.state]
  rw [← hconfig, ← hft, ← hcaps] at hadapt
  rw [← hconfig, ← hft]
  exact Machine.adaptTable_ok hadapt

/-! ### AC_ENCODE, and where coding a symbol stops -/

theorem exec_acEncode (s : State) : exec .acEncode s = .next (complete (encodeSymbol s.op0 s.clearValid)) := rfl

theorem codingSound_clearValid {s : State} (h : s.Inv) : codingSound s.clearValid :=
  (h.dataSound.congr (t := s.clearValid) rfl).coding

/-- An empty narrowed interval raises before anything is written (R86, R91). -/
theorem encodeSymbol_degenerate {s : State} {v : Sym}
    (he : narrowedLow s.coder (s.prob v).1.toNat (s.prob v).2.toNat =
      narrowedHigh s.coder (s.prob v).1.toNat (s.prob v).2.toNat) :
    encodeSymbol v s = .raised .codingDegeneracy s := by
  rw [encodeSymbol, narrow_degenerate he, Run.andThen_raised]

/-- With room for only `m` of its `n` bits, coding a symbol stops in renormalization, after `m` turns (R87, R91). -/
theorem encodeSymbol_overflow {s : State} {v : Sym} {l h n m : Nat} (hs : codingSound s)
    (hl : l = narrowedLow s.coder (s.prob v).1.toNat (s.prob v).2.toNat)
    (hh : h = narrowedHigh s.coder (s.prob v).1.toNat (s.prob v).2.toNat) (hne : l ≠ h) (hturns : renormTurns l h n)
    (hmn : m < n) (hroom : s.pk.bitpos.toNat + m = 8 * s.caps.bitsBytes) :
    ∃ t, narrowedTo s t l h m ∧ encodeSymbol v s = .raised .outOverflow t := by
  subst hl hh
  have hpart : (s.prob v).1.toNat ≤ (s.prob v).2.toNat := FreqTable.count_le_total hs.ft _
  obtain ⟨k, hnarrow, hk, hlow, hhigh⟩ := narrow_ok hpart hs.coder hne
  rw [← hlow, ← hhigh] at hturns ⊢
  obtain ⟨t, hrenorm, ht⟩ :=
    renorm_overflow (s := { s with coder := k }) hk hs.padding hs.bitsCap hturns hmn hroom
  exact ⟨t, ht.narrowedTo, by rw [encodeSymbol, hnarrow, Run.andThen_ok, hrenorm, Run.andThen_raised]⟩

/-! ### Reference mode with an empty table -/

/-- The symbols of a block, pushed one after another (R90). -/
def History.pushAll (l : List Sym) (h : History) : History := l.foldl (fun h v => h.push v) h

/-- With c = t = 0 the whole of [0, 1) is kept (R86, R93). -/
theorem narrow_full {s : State} (hcoder : s.coder = Coder.full) : narrow 0#32 0#32 s = .ok s := by
  have hfull : narrowCoder 0#32 0#32 Coder.full = some Coder.full := by decide
  rw [narrow, hcoder, hfull, ← hcoder]

section Empty

variable {s : State} (hmode : referenceTable FreqTable.empty s)

include hmode

/-- Coding a symbol pushes it and does nothing else (R93). -/
theorem encodeSymbol_reference (hcoder : s.coder = Coder.full) (v : Sym) :
    encodeSymbol v s = .ok { s with hist := s.hist.push v } := by
  have hprob : s.prob v = (0#32, 0#32) := by
    rw [State.prob, hmode.2]
    rfl
  have hrenorm : renorm s = .ok s := by
    apply renorm_of_straddling <;> rw [hcoder] <;> decide
  rw [encodeSymbol, hprob, narrow_full hcoder, Run.andThen_ok, hrenorm, Run.andThen_ok,
    adaptTable_of_reference _ hmode, Run.andThen_ok]

theorem forEach_encodeSymbol_reference (hcoder : s.coder = Coder.full) (l : List Sym) :
    forEach encodeSymbol l s = .ok { s with hist := s.hist.pushAll l } := by
  induction l generalizing s with
  | nil => rfl
  | cons v l ih =>
    rw [forEach_cons, encodeSymbol_reference hmode hcoder, Run.andThen_ok]
    exact ih hmode hcoder

end Empty

theorem padToByte_zero : padToByte 0#32 = 0#32 := by decide

/-- `s` with one block of no bits coded: only its symbols are pushed. -/
def emptyBlock (seq : List Sym) (s : State) : State :=
  closeBlock { beginBlock s with hist := History.empty.pushAll seq }

theorem codeSequence_reference {s : State} (hmode : referenceTable FreqTable.empty s) (seq : List Sym) :
    codeSequence seq s = .ok (emptyBlock seq s) := by
  rw [codeSequence, forEach_encodeSymbol_reference (s := beginBlock s) hmode rfl, Run.andThen_ok]
  rfl

/-- `t` is `s` with `n` blocks of no bits coded (R93, R96, R103). -/
structure emptyBlocks (s : State) (n : Nat) (t : State) : Prop where
  state    : t = { s with
    pk := { bitpos := 0#32, blkidx := BitVec.ofNat 32 n, blkbits := 0#32, totalbits := 0#32 }
    coder := t.coder
    hist := t.hist
    lenMem := t.lenMem }
  entries  : ∀ i < n, t.lenEntry i = 0#32
  lenAbove : ∀ a, 4 * n ≤ a → t.byteAt .len a = s.byteAt .len a

theorem emptyBlocks_zero {s : State} (h : s.pk = Packer.zero) : emptyBlocks s 0 s :=
  ⟨congrArg (fun p => { s with pk := p }) h, fun _ hi => absurd hi (Nat.not_lt_zero _), fun _ _ => rfl⟩

section Blocks

variable {s t : State} {n : Nat} (h : emptyBlocks s n t)

include h

theorem emptyBlocks.referenceTable {ft : FreqTable} (hs : referenceTable ft s) : referenceTable ft t := by
  rw [h.state]
  exact hs

theorem emptyBlocks.blockCols : t.blockCols = s.blockCols := by
  rw [h.state]
  rfl

theorem emptyBlocks.blockSeq (by' bx : Nat) : blockSeq t by' bx = blockSeq s by' bx := by
  rw [h.state]
  rfl

/-- One block more: entry `n` of LEN is 0, and no bit stands before or after (R93, R96). -/
theorem emptyBlocks.succ (hn : n < 2 ^ 32) (seq : List Sym) : emptyBlocks s (n + 1) (emptyBlock seq t) := by
  have hpk : t.pk = { bitpos := 0#32, blkidx := BitVec.ofNat 32 n, blkbits := 0#32, totalbits := 0#32 } := by
    rw [h.state]
  have hlen : (emptyBlock seq t).lenMem = t.lenMem.writeWord (4 * n) 0#32 := by
    change t.lenMem.writeWord (4 * t.pk.blkidx.toNat) 0#32 = _
    rw [hpk, BitVec.toNat_ofNat, Nat.mod_eq_of_lt hn]
  refine ⟨?_, fun i hi => ?_, fun a ha => ?_⟩
  · have hstate := h.state
    generalize t.coder = k, t.hist = hist, t.lenMem = lenMem at hstate
    subst hstate
    simp only [emptyBlock, closeBlock, beginBlock, padToByte_zero, BitVec.ofNat_add]
  · rw [State.lenEntry, hlen]
    rcases Nat.lt_succ_iff_lt_or_eq.mp hi with hlt | rfl
    · rw [Memory.readWord_writeWord_other _ _ _ _ _ hlt.ne]
      exact h.entries i hlt
    · exact Memory.readWord_writeWord ..
  · rw [← h.lenAbove a (by omega), State.byteAt, hlen, Memory.read_writeWord_other _ _ _ _ _ (by omega), State.byteAt]

end Blocks

theorem forEach_append {α : Type} (f : α → State → Run) (l m : List α) (s : State) :
    forEach f (l ++ m) s = (forEach f l s).andThen (forEach f m) := by
  induction l generalizing s with
  | nil => rfl
  | cons a l ih =>
    rw [List.cons_append, forEach_cons, forEach_cons]
    cases f a s with
    | ok t => exact ih t
    | raised e t => rfl

/-- The loop of COMPRESS up to block `n`: empty blocks, the last one on top (R93, R103). -/
theorem forEach_codeBlock_reference {s : State} (hmode : referenceTable FreqTable.empty s) (hpk : s.pk = Packer.zero)
    (n : Nat) (hn : n < 2 ^ 32) :
    ∃ t, emptyBlocks s n t ∧ forEach codeBlock (List.range (n + 1)) s =
      .ok (emptyBlock (blockSeq s (n / s.blockCols) (n % s.blockCols)) t) := by
  have hblock : ∀ i t, emptyBlocks s i t →
      codeBlock i t = .ok (emptyBlock (blockSeq s (i / s.blockCols) (i % s.blockCols)) t) := fun i t ht => by
    rw [codeBlock, codeSequence_reference (ht.referenceTable hmode), ht.blockCols, ht.blockSeq]
  induction n with
  | zero =>
    refine ⟨s, emptyBlocks_zero hpk, ?_⟩
    rw [List.range_one, forEach_cons, hblock 0 s (emptyBlocks_zero hpk), Run.andThen_ok, forEach_nil]
  | succ n ih =>
    obtain ⟨t, ht, hloop⟩ := ih (by omega)
    have hnext := ht.succ (by omega) (blockSeq s (n / s.blockCols) (n % s.blockCols))
    refine ⟨_, hnext, ?_⟩
    rw [List.range_succ, forEach_append, hloop, Run.andThen_ok, forEach_cons, hblock _ _ hnext, Run.andThen_ok,
      forEach_nil]

/-! ### The number of blocks -/

section Count

variable {s : State} (hside : 0 < s.side)

include hside

/-- A block holds a pixel at least, so NB stays below 2^32 (R25, R68). -/
theorem blockCount_lt : s.blockCount < 2 ^ 32 := by
  have hceil : ∀ a, ceilDiv a s.side ≤ a := fun a => (ceilDiv_le_iff hside).mpr (Nat.le_mul_of_pos_left a hside)
  have hrows : s.blockRows ≤ 65535 := (hceil _).trans (Nat.le_of_lt_succ s.height.isLt)
  have hcols : s.blockCols ≤ 65535 := (hceil _).trans (Nat.le_of_lt_succ s.width.isLt)
  exact (Nat.mul_le_mul hrows hcols).trans_lt (by decide)

/-- The last block is the one of the last row and the last column (R69). -/
theorem lastBlock (hwidth : 0 < s.imgWidth) (hheight : 0 < s.imgHeight) :
    ∃ n, s.blockCount = n + 1 ∧ n / s.blockCols = s.blockRows - 1 ∧ n % s.blockCols = s.blockCols - 1 := by
  have hrows : 0 < s.blockRows := (lt_ceilDiv_iff hside).mpr (by rwa [Nat.mul_zero])
  have hcols : 0 < s.blockCols := (lt_ceilDiv_iff hside).mpr (by rwa [Nat.mul_zero])
  refine ⟨(s.blockRows - 1) * s.blockCols + (s.blockCols - 1), ?_,
    (mul_add_eq_iff_div_mod hcols).mp ⟨Nat.sub_one_lt_of_lt hcols, rfl⟩⟩
  calc s.blockCount = (s.blockRows - 1 + 1) * s.blockCols := by rw [Nat.sub_add_cancel hrows, State.blockCount]
    _ = (s.blockRows - 1) * s.blockCols + (s.blockCols - 1) + 1 := by rw [Nat.succ_mul]; omega

end Count

end Sys2Proof.Machine
end

section
/-! PROOFS. The statements about the coder and the packer: O28, O24, O25, O26, O23, O29, O35, O30, O22 and O31. -/

namespace Sys2Proof.Proofs

open Sys2Proof Sys2Proof.Machine

/-- Settles O28: the doubled width bounds the turns, and the loop with room makes them all. -/
theorem renormBound : Obligations.RenormBound := by
  refine ⟨fun l h hl hh => ?turns, fun s hinv hroom => ?loop⟩
  case turns =>
    obtain ⟨n, hn, hturns⟩ := exists_renormTurns hl hh
    exact ⟨n, hn, hturns, fun m hm => ⟨lowAfter_lt_highAfter hl m,
      highAfter_le hl hh m fun j hj => hturns.2 j (hj.trans_le hm), highAfter_sub_lowAfter l h m⟩⟩
  case loop =>
    have hs := hinv.codingSound
    obtain ⟨n, hn, hturns⟩ := exists_renormTurns hs.coder.1 hs.coder.2
    obtain ⟨t, hrun, ht⟩ := renorm_ok hs.coder hs.padding hs.bitsCap hturns (by omega)
    refine ⟨n, t, hn, hturns, hrun, ht.state, ht.inRange, ht.low, ht.high, ?_, ?_, ?_, ht.emitted, ht.before, ht.bytes⟩
    · rw [ht.low]
      exact hturns.1.1
    · rw [ht.high]
      exact hturns.1.2
    · rw [ht.low, ht.high, highAfter_sub_lowAfter]

/-- Settles O24, one length of the history at a time. -/
theorem pushShiftsHistory : Obligations.PushShiftsHistory := by
  rintro ⟨len, a, b, c, d⟩ _ v rfl
  match len with
  | 0 | 1 | 2 | 3 | 4 => exact ⟨rfl, rfl, rfl⟩

/-- Settles O25: narrowing is the first thing that AC_ENCODE does. -/
theorem acEncodeDegenerate : Obligations.AcEncodeDegenerate := by
  rintro s _ - rfl hempty
  rw [exec_acEncode, encodeSymbol_degenerate (s := s.clearValid) hempty]
  rfl

/-- Settles O26: coding stops in renormalization, and the abort keeps the turns it made. -/
theorem acEncodeOutOverflow : Obligations.AcEncodeOutOverflow := by
  rintro s _ nl nh n m hinv rfl hnl hnh hne hturns hmn hroom
  obtain ⟨t, ht, hcode⟩ :=
    encodeSymbol_overflow (v := s.op0) (codingSound_clearValid hinv) hnl hnh hne hturns hmn hroom
  rw [exec_acEncode, hcode]
  exact ⟨_, rfl, congrArg (fun u => complete (.raised .outOverflow u)) ht.state, ht.emitted, ht.before, ht.bytes⟩

/-- Settles O23: coding comes as far as the increment, which goes through. -/
theorem acEncodeCodes : Obligations.AcEncodeCodes := by
  intro s k nl nh n hinv hk hnl hnh hne hturns hroom hadapt
  obtain rfl : k = s.clearValid.keyOf s.op0 := hk
  obtain ⟨t, ht, hcode⟩ :=
    encodeSymbol_narrowedTo (v := s.op0) (codingSound_clearValid hinv) hnl hnh hne hturns hroom
  obtain ⟨ft, hrun, hkept, hcounted⟩ := ht.adaptTable_ok hadapt
  rw [exec_acEncode, hcode, hrun]
  refine ⟨_, rfl, ?_, ht.emitted, ht.before, ht.bytes, hkept, fun h => ?_⟩
  · exact congrArg (fun u => complete (.ok { u with ft := ft, hist := u.hist.push s.op0 })) ht.state
  · obtain ⟨hsame, hother, htotal, hused⟩ := hcounted h
    exact ⟨hsame, hother, htotal, hused⟩

/-- Settles O29: every symbol takes the whole of [0, 1), which straddles 0.5. -/
theorem referenceModeEmitsNothing : Obligations.ReferenceModeEmitsNothing := by
  intro s hadapt hft hcoder
  rw [exec_acEncode, encodeSymbol_reference (s := s.clearValid) ⟨hadapt, hft⟩ hcoder]
  rfl

/-- Settles O35: every block is empty, and the last one leaves its history. -/
theorem compressReference : Obligations.CompressReference := by
  intro s hbsize hlevel hwidth hheight himg hlen hadapt hft
  have hside := BitVec.toNat_pos_of_ne_zero hbsize
  have hw := BitVec.toNat_pos_of_ne_zero hwidth
  have hh := BitVec.toNat_pos_of_ne_zero hheight
  have hcheck : compressCheck s = none := (compressCheck_eq_none_iff s).mpr
    ⟨⟨hside.ne', (BitVec.toNat_pos_of_ne_zero hlevel).ne'⟩, ⟨hw.ne', hh.ne'⟩, by rwa [Nat.mul_comm 4], hlen⟩
  obtain ⟨n, hcount, hrow, hcol⟩ := lastBlock hside hw hh
  have hlt : n + 1 < 2 ^ 32 := hcount ▸ blockCount_lt hside
  obtain ⟨t, ht, hloop⟩ :=
    forEach_codeBlock_reference (s := compressSetup s.clearValid) ⟨hadapt, hft⟩ rfl n (by omega)
  have hlast := ht.succ (by omega) (blockSeq s (s.blockRows - 1) (s.blockCols - 1))
  have hrun : commandRule .compress s =
      .ok (emptyBlock (blockSeq s (s.blockRows - 1) (s.blockCols - 1)) t).setValid := by
    rw [← hrow, ← hcol, commandRule, compressRule, hcheck, hcount]
    exact congrArg (Run.andThen · _) hloop
  rw [← hcount] at hlast
  rw [exec_eq_complete, hrun]
  refine ⟨_, rfl, ?_, hlast.entries, hlast.lenAbove⟩
  exact congrArg (fun u => complete (.ok u.setValid)) hlast.state

/-- Settles O30: LEN has an entry left or it has none. -/
theorem acEndResult : Obligations.AcEndResult := by
  refine ⟨decode_encode .acEnd, fun s => ?_⟩
  rw [exec_eq_complete, commandRule]
  rcases acEndRule_cases s with ⟨hfull, hrun⟩ | ⟨hroom, hrun⟩ <;> rw [hrun]
  · exact ⟨fun hroom => absurd hroom hfull.not_gt, fun _ => rfl⟩
  · refine ⟨fun _ => ⟨_, rfl, ?_, ?_, fun a ha => ?_⟩, fun hfull => absurd hroom hfull.not_gt⟩
    · rfl
    · exact Memory.readWord_writeWord ..
    · exact Memory.read_writeWord_other _ _ _ _ _ ha

/-- Settles O22: the rule of AC_BEGIN, completed. -/
theorem acBeginResult : Obligations.AcBeginResult :=
  ⟨decode_encode .acBegin, exec_eq_complete .acBegin⟩

/-- Settles O31: the rule of PK_RESET, completed. -/
theorem pkResetResult : Obligations.PkResetResult :=
  ⟨decode_encode .pkReset, exec_eq_complete .pkReset⟩

end Sys2Proof.Proofs
end

section
/-! PROOFS. COMPRESS and the unit commands: coding reads neither OP0 nor STATUS, the unit commands of a block as the rules that
COMPRESS runs, and the checks of COMPRESS. -/

namespace Sys2Proof.Machine

open Sys2Proof

/-! ### OP0 and STATUS, which coding does not read -/

/-- A run with a change made to the state in which it stands. -/
def Run.map (F : State → State) : Run → Run
  | .ok s => .ok (F s)
  | .raised e s => .raised e (F s)

@[simp] theorem Run.map_ok (F : State → State) (s : State) : (Run.ok s).map F = .ok (F s) := rfl
@[simp] theorem Run.map_raised (F : State → State) (e : ErrCode) (s : State) :
    (Run.raised e s).map F = .raised e (F s) := rfl

section Commutes

variable {F : State → State}

/-- A change that does not affect what follows may be made at the end. -/
theorem Run.map_andThen (r : Run) {f f' : State → Run} (hf : ∀ s, f' (F s) = (f s).map F) :
    (r.map F).andThen f' = (r.andThen f).map F := by
  cases r with
  | ok s => exact hf s
  | raised e s => rfl

theorem forEach_map {α : Type} {f : α → State → Run} (hf : ∀ a s, f a (F s) = (f a s).map F) (l : List α)
    (s : State) : forEach f l (F s) = (forEach f l s).map F := by
  induction l generalizing s with
  | nil => rfl
  | cons a l ih => rw [forEach_cons, forEach_cons, hf, Run.map_andThen _ ih]

end Commutes

/-- OP0 and STATUS changed, and nothing else. -/
def State.retouch (g : Sym → Sym) (h : Status → Status) (s : State) : State :=
  { s with op0 := g s.op0, status := h s.status }

section Retouch

variable (g : Sym → Sym) (h : Status → Status)

theorem emit_retouch (b : Bool) (s : State) : emit b (s.retouch g h) = (emit b s).map (State.retouch g h) := by
  rcases emit_cases b s with ⟨hfull, hrun⟩ | ⟨hroom, hrun⟩ <;> rw [hrun]
  · exact if_pos hfull
  · exact if_neg hroom.not_ge

theorem narrow_retouch (c t : Word) (s : State) :
    narrow c t (s.retouch g h) = (narrow c t s).map (State.retouch g h) := by
  have hcoder : (s.retouch g h).coder = s.coder := rfl
  rcases narrow_cases c t s with ⟨hk, hrun⟩ | ⟨k, hk, hrun⟩ <;> rw [hrun, narrow, hcoder, hk] <;> rfl

theorem ftIncrement_retouch (k : Key) (s : State) :
    ftIncrement k (s.retouch g h) = (ftIncrement k s).map (State.retouch g h) := by
  rcases ftIncrement_cases k s with ⟨htotal, hrun⟩ | ⟨htotal, hp, hrun⟩ | ⟨htotal, hp, hfull, hrun⟩ |
    ⟨htotal, hp, hroom, hrun⟩ <;> rw [hrun]
  · exact ftIncrement_of_max htotal
  · exact ftIncrement_of_present (s := s.retouch g h) htotal hp
  · exact ftIncrement_of_full htotal hp hfull
  · exact ftIncrement_of_absent (s := s.retouch g h) htotal hp hroom

theorem adaptTable_retouch (k : Key) (s : State) :
    adaptTable k (s.retouch g h) = (adaptTable k s).map (State.retouch g h) := by
  rcases adaptTable_cases k s with ⟨hmode, hrun⟩ | ⟨hmode, hrun⟩ <;> rw [hrun]
  · exact if_neg (by simpa [State.retouch] using hmode)
  · rw [← ftIncrement_retouch]
    exact if_pos hmode

theorem renormLoop_retouch (n : Nat) (s : State) :
    renormLoop n (s.retouch g h) = (renormLoop n s).map (State.retouch g h) := by
  induction n generalizing s with
  | zero => rfl
  | succ n ih =>
    have turn (b : Bool) (d : Coder → Coder) :
        ((emit b (s.retouch g h)).andThen fun t => renormLoop n { t with coder := d t.coder }) =
          ((emit b s).andThen fun t => renormLoop n { t with coder := d t.coder }).map (State.retouch g h) := by
      rw [emit_retouch]
      exact Run.map_andThen _ fun t => ih { t with coder := d t.coder }
    have hcoder : (s.retouch g h).coder = s.coder := rfl
    unfold renormLoop
    rw [hcoder]
    split
    · exact turn false Coder.doubleLower
    · split
      · exact turn true Coder.doubleUpper
      · rfl

/-- Coding a symbol reads neither OP0 nor STATUS (R91). -/
theorem encodeSymbol_retouch (v : Sym) (s : State) :
    encodeSymbol v (s.retouch g h) = (encodeSymbol v s).map (State.retouch g h) := by
  have hnarrow := narrow_retouch g h (s.prob v).1 (s.prob v).2 s
  unfold encodeSymbol
  refine (congrArg (Run.andThen · _) hnarrow).trans (Run.map_andThen _ fun s1 => ?_)
  refine (congrArg (Run.andThen · _) (renormLoop_retouch g h _ s1)).trans (Run.map_andThen _ fun s2 => ?_)
  refine (congrArg (Run.andThen · _) (adaptTable_retouch g h _ s2)).trans (Run.map_andThen _ fun s3 => rfl)

theorem codeSequence_retouch (seq : List Sym) (s : State) :
    codeSequence seq (s.retouch g h) = (codeSequence seq s).map (State.retouch g h) :=
  (congrArg (Run.andThen · _) (forEach_map (encodeSymbol_retouch g h) seq (beginBlock s))).trans
    (Run.map_andThen _ fun _ => rfl)

theorem codeBlock_retouch (i : Nat) (s : State) :
    codeBlock i (s.retouch g h) = (codeBlock i s).map (State.retouch g h) :=
  codeSequence_retouch g h (blockSeq s (i / s.blockCols) (i % s.blockCols)) s

end Retouch

theorem withOperand_eq_retouch (o : Option Sym) : State.withOperand o = State.retouch o.getD id := by
  funext s
  cases o <;> rfl

theorem withOperand_withOperand (o o' : Option Sym) (s : State) :
    (s.withOperand o).withOperand o' = s.withOperand (o'.or o) := by
  cases o' <;> cases o <;> rfl

/-! ### Unit commands as rules -/

/-- The STATUS that a unit command of the coder leaves where it raises no error: BUSY = 0, DONE = 1, VALID = 0 (R21, R109). -/
def Status.betweenUnits (st : Status) : Status := { st with busy := false, done := true, valid := false }

/-- The device stands between unit commands of the coder, no error recorded, with LEN entries left for `n` blocks. -/
structure unitReady (n : Nat) (s : State) : Prop where
  err    : s.status.err = false
  status : s.status.betweenUnits = s.status
  room   : s.pk.blkidx.toNat + n ≤ s.caps.lenWords

theorem unitReady.withOperand {n : Nat} {s : State} (h : unitReady n s) (o : Option Sym) :
    unitReady n (s.withOperand o) := by
  obtain ⟨herr, hst, hroom⟩ := h
  cases o <;> exact ⟨herr, hst, hroom⟩

theorem unitReady.of_codesFrom {n : Nat} {s t : State} (h : unitReady n s) (hst : codesFrom s t) : unitReady n t :=
  ⟨hst.status ▸ h.err, hst.status ▸ h.status, by rw [hst.blkidx, hst.caps]; exact h.room⟩

theorem unitReady.closeBlock {n : Nat} {s : State} (h : unitReady (n + 1) s) : unitReady n (closeBlock s) := by
  obtain ⟨herr, hst, hroom⟩ := h
  refine ⟨herr, hst, ?_⟩
  rw [closeBlock_pk, closeBlock_caps, BitVec.toNat_add]
  simp only [BitVec.toNat_ofNat]
  omega

/-- Completion changes nothing between unit commands. -/
theorem unitReady.complete_eq {n : Nat} {s : State} (h : unitReady n s) : complete (.ok s) = s := by
  have hfinish : s.status.finish = s.status := by rw [← h.status]; rfl
  exact congrArg (fun st => { s with status := st }) hfinish

theorem unitReady.clearValid_eq {n : Nat} {s : State} (h : unitReady n s) : s.clearValid = s := by
  have hvalid : { s.status with valid := false } = s.status := by rw [← h.status]; rfl
  exact congrArg (fun st => { s with status := st }) hvalid

/-- What follows where a run goes on, and the abort where it does not. -/
def Run.resume (k : State → State) : Run → State
  | .ok s => k s
  | .raised e s => complete (.raised e s)

/-- From where `m` blocks fit, the unit commands `us` do what `f` does, up to OP0, which the host writes, and leave room for
`n` blocks. -/
structure unitsDo (m n : Nat) (us : List UnitStep) (f : State → Run) : Prop where
  runs    : ∀ s rest, unitReady m s →
    ∃ o, execUnits (us ++ rest) s = ((f s).map (State.withOperand o)).resume (execUnits rest)
  ready   : ∀ s t, unitReady m s → f s = .ok t → unitReady n t
  operand : ∀ o s, f (s.withOperand o) = (f s).map (State.withOperand o)

theorem unitsDo_nil (n : Nat) : unitsDo n n [] .ok :=
  ⟨fun _ _ _ => ⟨none, rfl⟩, fun _ _ hs h => Run.ok.inj h ▸ hs, fun _ _ => rfl⟩

theorem execUnits_cons {u : UnitStep} {s t : State} (h : exec u.command (s.withOperand u.operand) = .next t)
    (us : List UnitStep) : execUnits (u :: us) s = if t.status.err then t else execUnits us t := by
  rw [execUnits, h]

/-- One unit command: its rule is `f`. -/
theorem unitsDo_single {m n : Nat} {u : UnitStep} {f : State → Run}
    (hrule : ∀ s, unitReady m s → commandRule u.command (s.withOperand u.operand) = f (s.withOperand u.operand))
    (hready : ∀ s t, unitReady m s → f s = .ok t → unitReady n t)
    (hoperand : ∀ o s, f (s.withOperand o) = (f s).map (State.withOperand o)) : unitsDo m n [u] f := by
  refine ⟨fun s rest hs => ⟨u.operand, ?_⟩, hready, hoperand⟩
  rw [List.singleton_append, execUnits_cons (exec_eq_complete _ _), hrule s hs, hoperand]
  cases hrun : f s with
  | raised e t => exact if_pos rfl
  | ok t =>
    have ht := (hready s t hs hrun).withOperand u.operand
    rw [Run.map_ok, ht.complete_eq, ht.err]
    rfl

theorem unitsDo.append {l m n : Nat} {us vs : List UnitStep} {f g : State → Run} (hf : unitsDo l m us f)
    (hg : unitsDo m n vs g) : unitsDo l n (us ++ vs) (fun s => (f s).andThen g) := by
  refine ⟨fun s rest hs => ?runs, fun s t hs h => ?ready, fun o s => ?operand⟩
  case runs =>
    obtain ⟨o, ho⟩ := hf.runs s (vs ++ rest) hs
    rw [List.append_assoc, ho]
    cases hrun : f s with
    | raised e t => exact ⟨o, rfl⟩
    | ok t =>
      obtain ⟨o', ho'⟩ := hg.runs (t.withOperand o) rest ((hf.ready s t hs hrun).withOperand o)
      refine ⟨o'.or o, ho'.trans ?_⟩
      rw [hg.operand, Run.andThen_ok]
      cases g t <;> simp only [Run.map_ok, Run.map_raised, withOperand_withOperand]
  case ready =>
    obtain ⟨u, hu, hut⟩ := andThen_ok_iff.mp h
    exact hg.ready u t (hf.ready s u hs hu) hut
  case operand => rw [hf.operand, Run.map_andThen _ (hg.operand o)]

/-- A loop whose every turn takes the room of `c` blocks. -/
theorem unitsDo_forEach {α : Type} {c : Nat} {us : α → List UnitStep} {f : α → State → Run}
    (h : ∀ a n, unitsDo (n + c) n (us a) (f a)) (l : List α) (n : Nat) :
    unitsDo (n + l.length * c) n (l.flatMap us) (forEach f l) := by
  induction l with
  | nil =>
    rw [List.length_nil, Nat.zero_mul, Nat.add_zero]
    exact unitsDo_nil n
  | cons a l ih =>
    rw [List.length_cons, Nat.succ_mul, ← Nat.add_assoc, List.flatMap_cons]
    exact (h a _).append ih

theorem unitsDo_acBegin (n : Nat) :
    unitsDo n n [{ operand := none, command := .acBegin }] fun s => .ok (beginBlock s) := by
  refine unitsDo_single (fun s hs => ?_) (fun s t hs h => ?_) (fun o s => ?_)
  · exact congrArg (fun t => Run.ok (beginBlock t)) hs.clearValid_eq
  · cases h
    exact ⟨hs.err, hs.status, hs.room⟩
  · rw [withOperand_eq_retouch]
    rfl

theorem unitsDo_acEncode (v : Sym) (n : Nat) :
    unitsDo n n [{ operand := some v, command := .acEncode }] (encodeSymbol v) := by
  refine unitsDo_single (fun s hs => ?_) (fun s t hs h => ?_) (fun o s => ?_)
  · exact congrArg (encodeSymbol v) (hs.withOperand (some v)).clearValid_eq
  · have hfrom := encodeSymbol_codesFrom v s
    rw [h] at hfrom
    exact hs.of_codesFrom hfrom
  · rw [withOperand_eq_retouch, encodeSymbol_retouch]

theorem unitsDo_acEnd (n : Nat) :
    unitsDo (n + 1) n [{ operand := none, command := .acEnd }] fun s => .ok (closeBlock s) := by
  refine unitsDo_single (fun s hs => ?_) (fun s t hs h => ?_) (fun o s => ?_)
  · rcases acEndRule_cases s with ⟨hfull, -⟩ | ⟨-, hrun⟩
    · exact absurd hs.room (by omega)
    · exact hrun.trans (congrArg (fun t => Run.ok (closeBlock t)) hs.clearValid_eq)
  · cases h
    exact hs.closeBlock
  · rw [withOperand_eq_retouch]
    rfl

/-- The unit commands of a block code its symbols as COMPRESS does (R103, R132). -/
theorem unitsDo_blockCommands (seq : List Sym) (n : Nat) :
    unitsDo (n + 1) n (blockCommands seq) (codeSequence seq) := by
  have hsymbols := unitsDo_forEach (c := 0) unitsDo_acEncode seq (n + 1)
  rw [Nat.mul_zero, Nat.add_zero, ← List.map_eq_flatMap] at hsymbols
  exact ((unitsDo_acBegin (n + 1)).append hsymbols).append (unitsDo_acEnd n)

/-- AC_BEGIN makes nothing of BUSY, DONE and VALID, so a block may as well start between unit commands (R94). -/
theorem execUnits_blockCommands_betweenUnits (seq : List Sym) (rest : List UnitStep) (s : State) :
    execUnits (blockCommands seq ++ rest) s =
      execUnits (blockCommands seq ++ rest) (s.retouch id Status.betweenUnits) := by
  have hexec : exec .acBegin (s.retouch id Status.betweenUnits) = exec .acBegin s := rfl
  exact (execUnits_cons (exec_eq_complete .acBegin s) _).trans
    (execUnits_cons (hexec.trans (exec_eq_complete .acBegin s)) _).symm

theorem unitReady_retouch {n : Nat} {s : State} (herr : s.status.err = false)
    (hroom : s.pk.blkidx.toNat + n ≤ s.caps.lenWords) : unitReady n (s.retouch id Status.betweenUnits) :=
  ⟨herr, rfl, hroom⟩

/-- Coding one block with the unit commands (R103, R132). -/
theorem execUnits_blockCommands (seq : List Sym) {s : State} (herr : s.status.err = false)
    (hroom : s.pk.blkidx.toNat < s.caps.lenWords) :
    ∃ o, execUnits (blockCommands seq) s =
      ((codeSequence seq (s.retouch id Status.betweenUnits)).map (State.withOperand o)).resume id := by
  obtain ⟨o, ho⟩ := (unitsDo_blockCommands seq 0).runs _ [] (unitReady_retouch herr hroom)
  rw [← execUnits_blockCommands_betweenUnits, List.append_nil] at ho
  exact ⟨o, ho⟩

/-- Coding some blocks with the unit commands, one after another (R103, R132). -/
theorem execUnits_blocks (seq : Nat → List Sym) {l : List Nat} (hl : l ≠ []) {s : State} (herr : s.status.err = false)
    (hroom : s.pk.blkidx.toNat + l.length ≤ s.caps.lenWords) :
    ∃ o, execUnits (l.flatMap fun i => blockCommands (seq i)) s =
      ((forEach (fun i => codeSequence (seq i)) l (s.retouch id Status.betweenUnits)).map
        (State.withOperand o)).resume id := by
  have hblocks := unitsDo_forEach (fun i n => unitsDo_blockCommands (seq i) n) l 0
  obtain ⟨o, ho⟩ := hblocks.runs _ [] (unitReady_retouch herr (by omega))
  obtain ⟨i, l, rfl⟩ := List.exists_cons_of_ne_nil hl
  rw [List.flatMap_cons, List.append_assoc, ← execUnits_blockCommands_betweenUnits, List.append_nil] at ho
  exact ⟨o, ho⟩

/-! ### COMPRESS -/

/-- Coding a block does not change what the blocks are read from (R102). -/
theorem compressesFrom.codeBlock_eq {s t : State} (h : compressesFrom s t) (i : Nat) :
    codeBlock i t = codeSequence (blockSeq s (i / s.blockCols) (i % s.blockCols)) t := by
  have hcols : t.blockCols = s.blockCols := by
    rw [h]
    rfl
  have hseq : blockSeq t = blockSeq s := by
    rw [h]
    rfl
  rw [codeBlock, hcols, hseq]

theorem compressesFrom.forEach_codeBlock_eq {s t : State} (h : compressesFrom s t) (l : List Nat) :
    forEach codeBlock l t = forEach (fun i => codeSequence (blockSeq s (i / s.blockCols) (i % s.blockCols))) l t := by
  induction l generalizing t with
  | nil => rfl
  | cons i l ih =>
    have hnext := h.trans (codeBlock_compressesFrom i t)
    rw [forEach_cons, forEach_cons, ← h.codeBlock_eq]
    cases hrun : codeBlock i t with
    | raised e u => rfl
    | ok u =>
      rw [hrun] at hnext
      exact ih hnext

/-- Between VALID <- 0 and VALID <- 1 of COMPRESS, and between unit commands, the same run of the blocks ends the same up to OP0
and VALID (R104, R105, R111). -/
theorem complete_blocks_eq (r : Run) (o : Option Sym) (herr : r.state.status.err = false) :
    complete ((r.map State.clearValid).andThen fun t => .ok t.setValid) =
      let u := ((r.map (State.retouch id Status.betweenUnits)).map (State.withOperand o)).resume id
      { u with op0 := r.state.op0, status := { u.status with valid := !u.status.err } } := by
  cases r with
  | raised e t => cases o <;> rfl
  | ok t =>
    have hvalid : true = !t.status.err := (congrArg not herr).symm
    cases o <;>
      exact congrArg (fun b => { t with status := { t.status with busy := false, done := true, valid := b } }) hvalid

/-- The blocks of COMPRESS write neither OP0 nor STATUS (R58). -/
theorem forEach_codeBlock_op0_status (l : List Nat) (s : State) :
    (forEach codeBlock l s).state.op0 = s.op0 ∧ (forEach codeBlock l s).state.status = s.status := by
  refine forEach_keeps (P := fun t => t.op0 = s.op0 ∧ t.status = s.status) l (fun i _ t ⟨hop, hst⟩ => ⟨?_, ?_⟩) s
    ⟨rfl, rfl⟩
  · rw [codeBlock_compressesFrom i t]
    exact hop
  · exact (codeBlock_status i t).trans hst

/-- The rule of COMPRESS with the checks passed: its blocks do not depend on VALID, so VALID <- 0 may come after them (R104). -/
theorem compressRule_of_passed {s : State} (h : compressCheck s = none) :
    compressRule s = ((forEach codeBlock (List.range s.blockCount) (compressSetup s)).map State.clearValid).andThen
      fun t => .ok t.setValid := by
  have hclear : ∀ i t, codeBlock i (State.clearValid t) = (codeBlock i t).map State.clearValid :=
    codeBlock_retouch id fun st => { st with valid := false }
  rw [← forEach_map hclear, compressRule, h]
  rfl

/-- The rule of COMPRESS leaves VALID = 1 exactly where it goes through (R104, R111). -/
theorem compressRule_valid (s : State) :
    (∃ t, compressRule s = .ok t ∧ t.status.valid = true) ∨
    (∃ e t, compressRule s = .raised e t ∧ t.status.valid = false) := by
  cases hrun : compressRule s with
  | ok t =>
    rcases compressRule_cases s with ⟨e, -, h⟩ | ⟨-, h⟩ <;> rw [hrun] at h
    · cases h
    · obtain ⟨u, -, hu⟩ := andThen_ok_iff.mp h.symm
      cases hu
      exact .inl ⟨_, rfl, rfl⟩
  | raised e t =>
    refine .inr ⟨e, t, rfl, Bool.eq_false_iff.mpr fun hvalid => ?_⟩
    obtain ⟨-, u, -, hok⟩ := compressRule_of_valid (s := s) (by rw [hrun]; exact hvalid)
    cases hrun.symm.trans hok

/-- A check on BSIZE or QLEVEL fails (R100). -/
theorem compressCheck_of_config {s : State} (h : s.side = 0 ∨ s.level = 0) : compressCheck s = some .configError :=
  if_pos h

/-- BSIZE and QLEVEL are in order, and a check on the shape of the image fails (R100). -/
theorem compressCheck_of_shape {s : State} (hconfig : ¬ (s.side = 0 ∨ s.level = 0))
    (h : s.imgWidth = 0 ∨ s.imgHeight = 0 ∨ s.caps.imgBytes < 4 * (s.imgWidth * s.imgHeight) ∨
      s.caps.lenWords < s.blockCount) : compressCheck s = some .shapeError := by
  rw [compressCheck, if_neg hconfig]
  by_cases hsize : s.imgWidth = 0 ∨ s.imgHeight = 0
  · exact if_pos hsize
  · rw [if_neg hsize]
    by_cases himg : s.caps.imgBytes < 4 * (s.imgWidth * s.imgHeight)
    · exact if_pos himg
    · rw [if_neg himg, if_pos (by tauto)]

/-- COMPRESS after a failed check: the abort, and nothing else but VALID (R100, R111). -/
theorem exec_compress_of_check {s : State} {e : ErrCode} (h : compressCheck s = some e) :
    exec .compress s = .next { s with
      status := { busy := false, done := true, valid := false, err := true
                  code := if s.status.err then s.status.code else e } } := by
  rw [exec_eq_complete, commandRule, compressRule, h]
  rfl

end Sys2Proof.Machine
end

section
/-! PROOFS. The statements about the sequencing of COMPRESS, and NOP: O34, O36, O38 and O13. -/

namespace Sys2Proof.Proofs

open Sys2Proof Sys2Proof.Machine

/-- Settles O34: the checks stand in R100's order, and each raises before anything is written. -/
theorem compressChecks : Obligations.CompressChecks := by
  refine fun s => ⟨fun h => ?config, fun hbsize hlevel h => ?shape⟩
  case config =>
    exact exec_compress_of_check (compressCheck_of_config (h.imp (congrArg BitVec.toNat) (congrArg BitVec.toNat)))
  case shape =>
    have hside := BitVec.toNat_pos_of_ne_zero hbsize
    have hpos := BitVec.toNat_pos_of_ne_zero hlevel
    refine exec_compress_of_check (compressCheck_of_shape (not_or.mpr ⟨hside.ne', hpos.ne'⟩) ?_)
    refine h.imp (congrArg BitVec.toNat) (Or.imp (congrArg BitVec.toNat) (Or.imp_left fun himg => ?_))
    rwa [Nat.mul_comm 4]

/-- Settles O36: the blocks are coded alike between the unit commands and inside COMPRESS. -/
theorem compressIsUnitCommands : Obligations.CompressIsUnitCommands := by
  intro s u hbsize hlevel hwidth hheight himg hlen herr hu
  have hside := BitVec.toNat_pos_of_ne_zero hbsize
  have hw := BitVec.toNat_pos_of_ne_zero hwidth
  have hh := BitVec.toNat_pos_of_ne_zero hheight
  have hcheck : compressCheck s = none := (compressCheck_eq_none_iff s).mpr
    ⟨⟨hside.ne', (BitVec.toNat_pos_of_ne_zero hlevel).ne'⟩, ⟨hw.ne', hh.ne'⟩, by rwa [Nat.mul_comm 4], hlen⟩
  have hblocks : List.range s.blockCount ≠ [] := by
    obtain ⟨n, hcount, -⟩ := lastBlock hside hw hh
    simp [hcount]
  have hroom : (compressSetup s).pk.blkidx.toNat + (List.range s.blockCount).length ≤ s.caps.lenWords := by
    simpa [compressSetup, Packer.zero] using hlen
  obtain ⟨hop, hst⟩ := forEach_codeBlock_op0_status (List.range s.blockCount) (compressSetup s)
  obtain ⟨o, ho⟩ := execUnits_blocks (fun i => blockSeq s (i / s.blockCols) (i % s.blockCols)) hblocks
    (s := compressSetup s) herr hroom
  have hfrom : compressesFrom s ((compressSetup s).retouch id Status.betweenUnits) := rfl
  rw [← hfrom.forEach_codeBlock_eq, forEach_map (codeBlock_retouch id Status.betweenUnits)] at ho
  have hend := complete_blocks_eq (forEach codeBlock (List.range s.blockCount) (compressSetup s)) o
    (by rw [hst]; exact herr)
  rw [← hu.trans ho, hop] at hend
  rw [exec_eq_complete, commandRule, compressRule_of_passed hcheck]
  exact congrArg Host.Outcome.next hend

/-- Settles O38: the rule leaves VALID = 1 exactly where it goes through, and the record step sets ERR where it does not. -/
theorem compressValidity : Obligations.CompressValidity := by
  intro s t herr hexec
  obtain rfl := exec_next_iff.mp hexec
  obtain ⟨b, hst⟩ := compressRule_status s
  rw [complete_valid, commandRule]
  rcases compressRule_valid s with ⟨u, hrun, hvalid⟩ | ⟨e, u, hrun, hvalid⟩ <;> rw [hrun] at hst ⊢
  · have hkept : u.status.err = false := by
      rw [show u.status = _ from hst]
      exact herr
    rw [complete_ok_status, Status.finish_err, hkept]
    exact hvalid
  · exact hvalid

/-- Settles O13: the rule of NOP, completed. -/
theorem nopResult : Obligations.NopResult :=
  ⟨decode_encode .nop, exec_eq_complete .nop⟩

end Sys2Proof.Proofs
end

section
/-! PROOFS. What the bits of a block depend on: two devices that code the same symbols from the same coder, history and table
keep these in step, and with them the bits, wherever in BITS and LEN their blocks stand. -/

namespace Sys2Proof.Machine

open Sys2Proof

/-! ### Two runs side by side -/

/-- Two runs go on in states that `P` relates, or raise the same error in states that `Q` relates. -/
inductive Run.alike (P Q : State → State → Prop) : Run → Run → Prop where
  | ok {s u : State} (h : P s u) : Run.alike P Q (.ok s) (.ok u)
  | raised {s u : State} (e : ErrCode) (h : Q s u) : Run.alike P Q (.raised e s) (.raised e u)

section Alike

variable {Q : State → State → Prop}

theorem Run.alike.andThen {P R : State → State → Prop} {r r' : Run} {f f' : State → Run} (h : Run.alike P Q r r')
    (hf : ∀ s u, P s u → Run.alike R Q (f s) (f' u)) : Run.alike R Q (r.andThen f) (r'.andThen f') := by
  cases h with
  | ok h => exact hf _ _ h
  | raised e h => exact .raised e h

/-- Two loops side by side, with the turns still to come counted down. -/
theorem forEach_alike {α : Type} {P : Nat → State → State → Prop} {f : α → State → Run}
    (hf : ∀ a n s u, P (n + 1) s u → Run.alike (P n) Q (f a s) (f a u)) (l : List α) {s u : State}
    (h : P l.length s u) : Run.alike (P 0) Q (forEach f l s) (forEach f l u) := by
  induction l generalizing s u with
  | nil => exact .ok h
  | cons a l ih => exact (hf a l.length s u h).andThen fun _ _ => ih

end Alike

/-- Two devices agree on the coder, the history, the table and STATUS. -/
structure sameCoding (s u : State) : Prop where
  status : s.status = u.status
  coder  : s.coder = u.coder
  hist   : s.hist = u.hist
  ft     : s.ft = u.ft

section Increment

variable (k : Key) {s u : State} (hentries : s.caps.ftEntries = u.caps.ftEntries) (hft : s.ft = u.ft)

include hentries hft

/-- An increment depends on the table and its capacity alone (R79). -/
theorem ftIncrement_alike :
    (∃ ft, ftIncrement k s = .ok { s with ft := ft } ∧ ftIncrement k u = .ok { u with ft := ft }) ∨
    (∃ e, ftIncrement k s = .raised e s ∧ ftIncrement k u = .raised e u) := by
  rcases ftIncrement_cases k s with ⟨htotal, hrun⟩ | ⟨htotal, hp, hrun⟩ | ⟨htotal, hp, hfull, hrun⟩ |
    ⟨htotal, hp, hroom, hrun⟩
  · exact .inr ⟨_, hrun, ftIncrement_of_max (hft ▸ htotal)⟩
  · rw [hft] at hrun htotal hp
    exact .inl ⟨_, hrun, ftIncrement_of_present htotal hp⟩
  · exact .inr ⟨_, hrun, ftIncrement_of_full (hft ▸ htotal) (hft ▸ hp) (by rw [← hft, ← hentries, hfull])⟩
  · rw [hft] at hrun htotal hp hroom
    exact .inl ⟨_, hrun, ftIncrement_of_absent htotal hp (hentries ▸ hroom)⟩

/-- The post-symbol increment depends on the mode beside (R80). -/
theorem adaptTable_alike (hconfig : s.config = u.config) :
    (∃ ft, adaptTable k s = .ok { s with ft := ft } ∧ adaptTable k u = .ok { u with ft := ft }) ∨
    (∃ e, adaptTable k s = .raised e s ∧ adaptTable k u = .raised e u) := by
  rcases adaptTable_cases k s with ⟨hmode, hrun⟩ | ⟨hmode, hrun⟩ <;> rw [hrun] <;> rw [hconfig] at hmode
  · exact .inl ⟨s.ft, rfl, by rw [hft]; exact adaptTable_of_reference k ⟨hmode, rfl⟩⟩
  · rw [adaptTable, if_pos hmode]
    exact ftIncrement_alike k hentries hft

end Increment

/-! ### Inside a block -/

/-- `s` is reached from `b`, where a block begins, by coding symbols, and BITS has room for `n` more, at 31 bits each (R88). -/
structure inBlock (b : State) (n : Nat) (s : State) : Prop where
  coded : codesFrom b s
  sound : codingSound s
  start : s.pk.bitpos.toNat = b.pk.bitpos.toNat + s.pk.blkbits.toNat
  room  : s.pk.bitpos.toNat + 31 * n ≤ 8 * s.caps.bitsBytes

theorem beginBlock_inBlock {s : State} {n : Nat} (h : codingSound s)
    (hroom : s.pk.bitpos.toNat + 31 * n ≤ 8 * s.caps.bitsBytes) : inBlock (beginBlock s) n (beginBlock s) :=
  ⟨codesFrom.refl _, beginBlock_sound h, rfl, hroom⟩

/-- One symbol of `m` bits more. -/
theorem inBlock.next {b s t : State} {v : Sym} {n m : Nat} (h : inBlock b (n + 1) s) (hm : m ≤ 31)
    (hrun : encodeSymbol v s = .ok t) (hpk : t.pk = s.pk.after m) :
    inBlock b n t ∧ t.pk.blkbits.toNat = s.pk.blkbits.toNat + m := by
  have hfrom := encodeSymbol_codesFrom v s
  have hsound := encodeSymbol_sound v s h.sound
  rw [hrun] at hfrom hsound
  have hcap := h.sound.bitsCap
  have hroom := h.room
  have hstart := h.start
  have hpos : t.pk.bitpos.toNat = s.pk.bitpos.toNat + m := by
    simp only [hpk, Packer.after, BitVec.toNat_add, BitVec.toNat_ofNat]
    omega
  have hblk : t.pk.blkbits.toNat = s.pk.blkbits.toNat + m := by
    simp only [hpk, Packer.after, BitVec.toNat_add, BitVec.toNat_ofNat]
    omega
  refine ⟨⟨h.coded.trans hfrom, hsound, by omega, ?_⟩, hblk⟩
  rw [show t.caps = s.caps from hfrom.caps]
  omega

/-- The bits of a block after one symbol more: those it had, then those of the lower bound's doublings (R87). -/
theorem narrowedTo.streamBit {b s t : State} {l h n m : Nat} (ht : narrowedTo s t l h m) (hs : inBlock b n s) {k : Nat}
    (hk : k < s.pk.blkbits.toNat + m) :
    t.streamBit (b.pk.bitpos.toNat + k) = if k < s.pk.blkbits.toNat then s.streamBit (b.pk.bitpos.toNat + k)
      else decide (2 ^ 30 ≤ lowAfter l (k - s.pk.blkbits.toNat)) := by
  have hstart := hs.start
  split
  · exact ht.before _ (by omega)
  · rw [← ht.emitted _ (by omega)]
    congr 1
    omega

/-- Two devices narrowed to one interval that takes the same turns still stand alike. -/
theorem narrowedTo.sameCoding {s u t w : State} {l h m : Nat} (ht : narrowedTo s t l h m) (hw : narrowedTo u w l h m)
    (hsu : sameCoding s u) : sameCoding t w := by
  rw [ht.state, hw.state]
  exact ⟨hsu.status, rfl, hsu.hist, hsu.ft⟩

/-- Two devices at the same symbol of their blocks, which began at `b` and at `c`, with the same bits behind them. -/
structure samePoint (b c : State) (n : Nat) (s u : State) : Prop where
  left    : inBlock b n s
  right   : inBlock c n u
  same    : sameCoding s u
  blkbits : s.pk.blkbits = u.pk.blkbits
  bits    : ∀ k < s.pk.blkbits.toNat,
    s.streamBit (b.pk.bitpos.toNat + k) = u.streamBit (c.pk.bitpos.toNat + k)

/-- A non-empty narrowed interval takes at most 31 turns (R86, R88). -/
theorem narrowed_renormTurns {s : State} {v : Sym} (hs : codingSound s)
    (hne : narrowedLow s.coder (s.prob v).1.toNat (s.prob v).2.toNat ≠
      narrowedHigh s.coder (s.prob v).1.toNat (s.prob v).2.toNat) :
    ∃ m ≤ 31, renormTurns (narrowedLow s.coder (s.prob v).1.toNat (s.prob v).2.toNat)
      (narrowedHigh s.coder (s.prob v).1.toNat (s.prob v).2.toNat) m := by
  have hpart : (s.prob v).1.toNat ≤ (s.prob v).2.toNat := FreqTable.count_le_total hs.ft _
  obtain ⟨k, -, hk, hlow, hhigh⟩ := narrow_ok hpart hs.coder hne
  rw [← hlow, ← hhigh]
  exact exists_renormTurns hk.1 hk.2

section Devices

variable {b c : State} (hconfig : b.config = c.config) (hentries : b.caps.ftEntries = c.caps.ftEntries)

include hconfig hentries

/-- Coding a symbol on two such devices (R91): the same interval, the same turns, the same increment. -/
theorem encodeSymbol_alike (v : Sym) (n : Nat) (s u : State) (h : samePoint b c (n + 1) s u) :
    Run.alike (samePoint b c n) sameCoding (encodeSymbol v s) (encodeSymbol v u) := by
  obtain ⟨hs, hu, hsame, hblk, hbits⟩ := h
  have hkey : s.keyOf v = u.keyOf v := by rw [State.keyOf, State.keyOf, hsame.hist]
  have hprob : s.prob v = u.prob v := by rw [State.prob, State.prob, hkey, hsame.ft]
  by_cases hempty : narrowedLow s.coder (s.prob v).1.toNat (s.prob v).2.toNat =
      narrowedHigh s.coder (s.prob v).1.toNat (s.prob v).2.toNat
  · rw [encodeSymbol_degenerate hempty, encodeSymbol_degenerate (by rwa [← hprob, ← hsame.coder])]
    exact .raised _ hsame
  · obtain ⟨m, hm, hturns⟩ := narrowed_renormTurns hs.sound hempty
    have hsroom := hs.room
    have huroom := hu.room
    obtain ⟨t, ht, hst⟩ := encodeSymbol_narrowedTo hs.sound rfl rfl hempty hturns (by omega)
    obtain ⟨w, hw, huw⟩ := encodeSymbol_narrowedTo (v := v) hu.sound (by rw [hprob, hsame.coder])
      (by rw [hprob, hsame.coder]) hempty hturns (by omega)
    have htw := ht.sameCoding hw hsame
    have hmode : t.config = w.config := by
      rw [ht.state, hw.state]
      exact hs.coded.config.trans (hconfig.trans hu.coded.config.symm)
    have hcap : t.caps.ftEntries = w.caps.ftEntries := by
      rw [ht.state, hw.state]
      change s.caps.ftEntries = u.caps.ftEntries
      rw [hs.coded.caps, hu.coded.caps, hentries]
    rcases adaptTable_alike (s.keyOf v) hcap htw.ft hmode with ⟨ft, htrun, hwrun⟩ | ⟨e, htrun, hwrun⟩
    · rw [htrun, Run.andThen_ok] at hst
      rw [← hkey, hwrun, Run.andThen_ok] at huw
      obtain ⟨hsnext, hsblk⟩ := hs.next hm hst (by rw [ht.state])
      obtain ⟨hunext, hublk⟩ := hu.next hm huw (by rw [hw.state])
      rw [hst, huw]
      refine .ok ⟨hsnext, hunext, ⟨htw.status, htw.coder, congrArg (History.push v) htw.hist, rfl⟩, ?blkbits,
        fun k hk => ?bits⟩
      case blkbits => exact BitVec.eq_of_toNat_eq (by rw [hsblk, hublk, hblk])
      case bits =>
        rw [hsblk] at hk
        change t.streamBit _ = w.streamBit _
        rw [ht.streamBit hs hk, hw.streamBit hu (hblk ▸ hk), ← hblk]
        split
        · exact hbits k ‹_›
        · rfl
    · rw [hst, huw, ← hkey, htrun, hwrun]
      exact .raised e htw

end Devices

/-! ### A whole block -/

/-- Two devices have coded a block that began at `s` and at `u`, to the same length and the same bits. -/
structure sameBlock (s u t w : State) : Prop where
  same   : sameCoding t w
  length : t.lenEntry s.pk.blkidx.toNat = w.lenEntry u.pk.blkidx.toNat
  bits   : ∀ k < (t.lenEntry s.pk.blkidx.toNat).toNat,
    t.streamBit (s.pk.bitpos.toNat + k) = w.streamBit (u.pk.bitpos.toNat + k)

theorem lenEntry_closeBlock (s : State) : (closeBlock s).lenEntry s.pk.blkidx.toNat = s.pk.blkbits :=
  Memory.readWord_writeWord ..

theorem samePoint.closeBlock {s u t w : State} (h : samePoint (beginBlock s) (beginBlock u) 0 t w) :
    sameBlock s u (closeBlock t) (closeBlock w) := by
  obtain ⟨ht, hw, hsame, hblk, hbits⟩ := h
  have htlen : (Machine.closeBlock t).lenEntry s.pk.blkidx.toNat = t.pk.blkbits := by
    rw [← lenEntry_closeBlock t, ht.coded.blkidx]
    rfl
  have hwlen : (Machine.closeBlock w).lenEntry u.pk.blkidx.toNat = w.pk.blkbits := by
    rw [← lenEntry_closeBlock w, hw.coded.blkidx]
    rfl
  refine ⟨⟨hsame.status, hsame.coder, hsame.hist, hsame.ft⟩, by rw [htlen, hwlen, hblk], fun k hk => ?_⟩
  rw [htlen] at hk
  exact hbits k hk

theorem codingSound_retouch (g : Sym → Sym) (h : Status → Status) {s : State} (hs : s.Inv) :
    codingSound (s.retouch g h) :=
  (hs.dataSound.congr (t := s.retouch g h) rfl).coding

/-- Coding a block depends on its symbols, CONFIG and the table where it starts (R103, R107). -/
theorem codeSequence_alike {s u : State} (seq : List Sym) (hs : codingSound s) (hu : codingSound u)
    (hstatus : s.status = u.status) (hconfig : s.config = u.config) (hft : s.ft = u.ft)
    (hentries : s.caps.ftEntries = u.caps.ftEntries)
    (hsroom : s.pk.bitpos.toNat + 31 * seq.length ≤ 8 * s.caps.bitsBytes)
    (huroom : u.pk.bitpos.toNat + 31 * seq.length ≤ 8 * u.caps.bitsBytes) :
    Run.alike (sameBlock s u) sameCoding (codeSequence seq s) (codeSequence seq u) := by
  have hbegin : samePoint (beginBlock s) (beginBlock u) seq.length (beginBlock s) (beginBlock u) :=
    ⟨beginBlock_inBlock hs hsroom, beginBlock_inBlock hu huroom, ⟨hstatus, rfl, rfl, hft⟩, rfl,
      fun _ hk => absurd hk (Nat.not_lt_zero _)⟩
  have hsymbols := forEach_alike (encodeSymbol_alike (b := beginBlock s) (c := beginBlock u) hconfig hentries) seq hbegin
  exact hsymbols.andThen fun _ _ h => .ok h.closeBlock

end Sys2Proof.Machine
end

section
/-! PROOFS. The statement about the independence of the blocks: O39. -/

namespace Sys2Proof.Proofs

open Sys2Proof Sys2Proof.Machine

/-- Settles O39: the unit commands code the block as `codeSequence` does, on both devices. -/
theorem blockIndependence : Obligations.BlockIndependence := by
  intro s u t v seq hs hu hserr huerr hconfig hft hentries hslen hulen hsroom huroom ht hv
  obtain ⟨o, ho⟩ := execUnits_blockCommands seq hserr hslen
  obtain ⟨o', ho'⟩ := execUnits_blockCommands seq huerr hulen
  have hstatus : s.status.betweenUnits = u.status.betweenUnits := by
    simp only [Status.betweenUnits, hserr, huerr, hs.status.mp hserr, hu.status.mp huerr]
  have halike := codeSequence_alike seq (codingSound_retouch id Status.betweenUnits hs)
    (codingSound_retouch id Status.betweenUnits hu) hstatus hconfig hft hentries hsroom huroom
  rw [ht, hv, ho, ho', withOperand_eq_retouch, withOperand_eq_retouch]
  generalize codeSequence seq (s.retouch id Status.betweenUnits) = r at halike
  generalize codeSequence seq (u.retouch id Status.betweenUnits) = r' at halike
  cases halike with
  | ok h =>
    obtain ⟨⟨hst, hcoder, hhist, htable⟩, hlength, hbits⟩ := h
    exact ⟨congrArg Status.err hst, congrArg Status.code hst, hcoder, hhist, htable, fun _ => ⟨hlength, hbits⟩⟩
  | raised e h =>
    obtain ⟨hst, hcoder, hhist, htable⟩ := h
    exact ⟨rfl, congrArg (fun st => (st.record e).code) hst, hcoder, hhist, htable,
      fun hok => absurd hok Bool.noConfusion⟩

end Sys2Proof.Proofs
end

section
/-! PROOFS. Errors and completion: how a command leaves STATUS, what a host write does to ERR, ERRCODE and a running
command, and why a step always goes on and a running command ends. -/

namespace Sys2Proof.Machine

open Sys2Proof

/-! ### STATUS after a command -/

@[simp] theorem complete_done (r : Run) : (complete r).status.done = true := by
  cases r <;> rfl

/-- A command writes VALID and completes, or records one of its errors and aborts (R109, R110, R111). -/
theorem exec_next_status {i : Instr} {s t : State} (h : exec i s = .next t) :
    ∃ b, t.status = Status.finish { s.status with valid := b } ∨
      ∃ e ∈ (errorCodes i).tail, e ≠ .none ∧ t.status = (Status.record e { s.status with valid := b }).finish := by
  obtain rfl := exec_next_iff.mp h
  obtain ⟨b, hb⟩ := commandRule_status i s
  refine ⟨b, ?_⟩
  cases hrun : commandRule i s with
  | ok u =>
    rw [hrun, Run.state_ok] at hb
    exact .inl (by rw [complete_ok_status, hb])
  | raised e u =>
    rw [hrun, Run.state_raised] at hb
    exact .inr ⟨e, commandRule_raised hrun, commandRule_raised_ne_none hrun, by rw [complete_raised_status, hb]⟩

theorem none_mem_errorCodes (i : Instr) : ErrCode.none ∈ errorCodes i := by
  cases i <;> decide

/-! ### The first error stays (R113) -/

/-- With ERR = 1 a later error records nothing. -/
theorem Status.record_of_err {st : Status} (h : st.err = true) (e : ErrCode) : st.record e = st := by
  cases st
  simp_all [Status.record]

/-- ERR and ERRCODE are the same in both states. -/
def sameError (s t : State) : Prop := t.status.err = s.status.err ∧ t.status.code = s.status.code

theorem sameError.of_status {s t : State} (h : t.status = s.status) : sameError s t := by
  rw [sameError, h]
  exact ⟨rfl, rfl⟩

theorem recordError_sameError {s : State} (herr : s.status.err = true) (e : ErrCode) : sameError s (s.recordError e) :=
  .of_status (Status.record_of_err herr e)

theorem frozenWhileBusy_sameError {s t : State} (herr : s.status.err = true) (ht : t.status = s.status) :
    sameError s (frozenWhileBusy s t) := by
  cases hb : s.status.busy with
  | false => rw [frozenWhileBusy_idle hb]; exact .of_status ht
  | true => rw [frozenWhileBusy_busy hb]; exact recordError_sameError herr _

theorem writeCmd_sameError {s : State} (herr : s.status.err = true) (w : Word) : sameError s (writeCmd w s) := by
  rcases writeCmd_cases w s with ⟨-, hw⟩ | ⟨-, -, hw⟩ | ⟨-, -, hw⟩ <;> rw [hw]
  · exact recordError_sameError herr _
  · rw [Status.record_of_err herr]; exact ⟨rfl, rfl⟩
  · exact ⟨rfl, rfl⟩

/-- With ERR = 1 a register write keeps the error, but for the write to STATUS that clears it and a soft reset. -/
theorem writeCsr_sameError {s : State} {c : Csr} {v : Word} (herr : s.status.err = true)
    (hstatus : c = .status → v.getLsbD 2 = false) (hctrl : c = .ctrl → v.getLsbD 0 = false) :
    sameError s (writeCsr c v s) := by
  cases c with
  | ctrl => rw [writeCsr_ctrl, hctrl rfl]; exact ⟨rfl, rfl⟩
  | cmd => exact writeCmd_sameError herr v
  | status => rw [writeCsr, sameError, Status.writeOneToClear_eq, hstatus rfl]; exact ⟨rfl, rfl⟩
  | ier => exact ⟨rfl, rfl⟩
  | config | qlevel | width | height | op0 | op1 | op2 => exact frozenWhileBusy_sameError herr rfl
  | _ => exact ⟨rfl, rfl⟩

/-- A register is reached through its offset in the register map alone (R16). -/
theorem alignedOffset_of_regionAt_csr {caps : Config.Caps} {off : Offset} {c : Csr} (h : regionAt caps off = .csr c) :
    (alignedOffset off, c) ∈ csrMap := by
  by_cases hcsr : alignedOffset off < 4096
  · rw [regionAt_csr caps off hcsr] at h
    cases hfind : assocFind id (alignedOffset off) csrMap with
    | none => rw [hfind] at h; cases h
    | some r =>
      rw [hfind] at h
      cases h
      obtain ⟨a, hmem, ha⟩ := assocFind_mem id hfind
      rwa [← ha]
  by_cases hlow : alignedOffset off < 1048576
  · rw [regionAt_low caps off (by omega) hlow] at h; cases h
  by_cases himg : alignedOffset off < 2097152
  · rw [regionAt_img caps off (by omega) himg] at h; split at h <;> cases h
  rcases regionAt_of_high caps (off := off) (by omega) with ⟨a, ha⟩ | ⟨a, ha⟩ | ha <;> rw [ha] at h <;> cases h

/-- With ERR = 1 a host write keeps the error, wherever it leads, but for the same two writes (R113). -/
theorem hostWrite_sameError {s : State} {off : Offset} {v : Word} (herr : s.status.err = true)
    (hstatus : ¬ (alignedOffset off = 0x010 ∧ v.getLsbD 2 = true))
    (hctrl : ¬ (alignedOffset off = 0x008 ∧ v.getLsbD 0 = true)) : sameError s (hostWrite off v s) := by
  unfold hostWrite
  split
  case h_1 c hr =>
    have hoffsets : ∀ e ∈ csrMap, (e.2 = .status → e.1 = 0x010) ∧ (e.2 = .ctrl → e.1 = 0x008) := by decide
    obtain ⟨hst, hct⟩ := hoffsets _ (alignedOffset_of_regionAt_csr hr)
    exact writeCsr_sameError herr (fun hc => Bool.eq_false_of_not_eq_true fun hv => hstatus ⟨hst hc, hv⟩)
      fun hc => Bool.eq_false_of_not_eq_true fun hv => hctrl ⟨hct hc, hv⟩
  case h_2 a hr => exact frozenWhileBusy_sameError herr rfl
  all_goals exact ⟨rfl, rfl⟩

/-! ### A write to CMD (R108) -/

theorem writeCmd_of_busy {s : State} (w : Word) (hb : s.status.busy = true) :
    writeCmd w s = s.recordError .cmdBusy := if_pos hb

theorem writeCmd_of_legal {s : State} {w : Word} {i : Instr} (hb : s.status.busy = false) (hw : decode w = .ok i) :
    writeCmd w s = { s with
      pending := some w
      status := { s.status with busy := true, done := false }
      delay := Config.engineDelay s.draws
      draws := s.draws + 1 } := by
  simp [writeCmd, hb, hw]

/-! ### What the host's turn does to a running command -/

/-- `t` differs from `s` at most in IER and in DONE, ERR and ERRCODE: what a host write changes while BUSY = 1, a reset
aside (R50, R129). -/
def portWritesFrom (s t : State) : Prop :=
  t = { s with
    status := { s.status with done := t.status.done, err := t.status.err, code := t.status.code }, ier := t.ier }

theorem portWritesFrom.busy {s t : State} (h : portWritesFrom s t) : t.status.busy = s.status.busy := by rw [h]
theorem portWritesFrom.pending {s t : State} (h : portWritesFrom s t) : t.pending = s.pending := by rw [h]
theorem portWritesFrom.delay {s t : State} (h : portWritesFrom s t) : t.delay = s.delay := by rw [h]

theorem writeCsr_of_busy (c : Csr) (v : Word) {s : State} (hb : s.status.busy = true) :
    (writeCsr c v s).status.busy = false ∨ portWritesFrom s (writeCsr c v s) := by
  cases c with
  | ctrl =>
    rw [writeCsr_ctrl]
    split
    · exact .inl rfl
    · exact .inr rfl
  | cmd => exact .inr (by rw [writeCsr, writeCmd_of_busy v hb]; rfl)
  | config | qlevel | width | height | op0 | op1 | op2 =>
    exact .inr (by rw [writeCsr, frozenWhileBusy_busy hb]; rfl)
  | _ => exact .inr rfl

/-- While BUSY = 1 a host write ends the command by a reset, or is one of the few that the busy rules let
through (R50). -/
theorem hostWrite_of_busy (off : Offset) (v : Word) {s : State} (hb : s.status.busy = true) :
    (hostWrite off v s).status.busy = false ∨ portWritesFrom s (hostWrite off v s) := by
  unfold hostWrite
  split
  case h_1 c hr => exact writeCsr_of_busy c v hb
  case h_2 a hr => exact .inr (by rw [frozenWhileBusy_busy hb]; rfl)
  all_goals exact .inr rfl

/-- Each transaction of the host ends the running command by a reset, or leaves it running one transaction closer to its
end (R109; log 3). -/
theorem hostTurn_of_busy {s : State} (hb : s.status.busy = true) (hin : s.inbox ≠ []) :
    (hostTurn s).status.busy = false ∨
      (hostTurn s).status.busy = true ∧ (hostTurn s).pending = s.pending ∧ (hostTurn s).delay = s.delay - 1 := by
  unfold hostTurn
  split
  case h_1 h => exact absurd h hin
  case h_2 off rest _ => exact .inr ⟨hb, rfl, rfl⟩
  case h_3 off v rest _ =>
    refine (hostWrite_of_busy off v (s := takeTurn rest s) hb).imp_right fun h => ?_
    exact ⟨h.busy.trans hb, h.pending, h.delay⟩
  case h_4 rest _ => exact .inr ⟨hb, rfl, rfl⟩
  case h_5 rest _ => exact .inl rfl

/-! ### A step always goes on -/

theorem engineTurn_iff {s : State} : engineTurn s = true ↔ s.status.busy = true ∧ (s.inbox = [] ∨ s.delay = 0) := by
  simp [engineTurn]

theorem pendingCommand_of_decode {s : State} {w : Word} {i : Instr} (hp : s.pending = some w) (hw : decode w = .ok i) :
    pendingCommand s = some i := by
  simp [pendingCommand, hp, hw]

theorem pendingCommand_congr {s t : State} (h : t.pending = s.pending) : pendingCommand t = pendingCommand s := by
  rw [pendingCommand, pendingCommand, h]

theorem step_of_engineTurn {s : State} {i : Instr} (hturn : engineTurn s = true) (hp : pendingCommand s = some i) :
    step s = exec i s := by
  simp [step, hturn, hp]

/-- On the engine's turn a legal pending command runs to its end (R109). -/
theorem step_completes {s : State} (hturn : engineTurn s = true) (hp : s.pendingLegal) :
    ∃ i, step s = .next (complete (commandRule i s)) := by
  obtain ⟨i, hi⟩ := Option.isSome_iff_exists.mp (hp (engineTurn_iff.mp hturn).1)
  exact ⟨i, (step_of_engineTurn hturn hi).trans (exec_eq_complete i s)⟩

/-- The one fault of a step needs BUSY = 1 and no legal pending word (log 9). -/
theorem exists_step_next {s : State} (hp : s.pendingLegal) : ∃ t, step s = .next t := by
  cases hturn : engineTurn s with
  | false => exact ⟨_, step_of_hostTurn hturn⟩
  | true =>
    obtain ⟨i, hi⟩ := step_completes hturn hp
    exact ⟨_, hi⟩

/-- A step of a running command ends it, or leaves it running with fewer transactions to come before its end (R109;
log 3). -/
theorem step_of_busy {s : State} (hb : s.status.busy = true) (hp : s.pendingLegal) :
    ∃ t, step s = .next t ∧
      (t.status.busy = false ∨ t.status.busy = true ∧ t.pendingLegal ∧ t.delay < s.delay) := by
  by_cases hturn : engineTurn s = true
  · obtain ⟨i, hi⟩ := step_completes hturn hp
    exact ⟨_, hi, .inl (complete_busy _)⟩
  · obtain ⟨hin, hdelay⟩ : s.inbox ≠ [] ∧ s.delay ≠ 0 := by simpa [engineTurn_iff, hb] using hturn
    refine ⟨_, step_of_hostTurn (Bool.eq_false_of_not_eq_true hturn), ?_⟩
    refine (hostTurn_of_busy hb hin).imp_right fun ⟨hbusy, hpending, hless⟩ => ⟨hbusy, fun _ => ?_, by omega⟩
    rw [pendingCommand_congr hpending]
    exact hp hb

theorem runSteps_succ {s t : State} (n : Nat) (h : step s = .next t) : runSteps (n + 1) s = runSteps n t := by
  rw [runSteps, h]

end Sys2Proof.Machine
end

section
/-! PROOFS. The statements about errors and completion: O58, O5, O7, O40, O53, O11, O12 and O59. -/

namespace Sys2Proof.Proofs

open Sys2Proof Sys2Proof.Machine

/-- Settles O58, by induction on the length of the run: each step goes on, to a state with the invariant. -/
theorem runsNeverStop : Obligations.RunsNeverStop := by
  intro n
  induction n with
  | zero => exact fun s _ => ⟨s, rfl⟩
  | succ n ih =>
    intro s hs
    obtain ⟨t, ht⟩ := exists_step_next hs.pending
    rw [runsSafely, runSteps_succ n ht]
    exact ih t (invariantKept s t hs ht)

/-- Settles O5: it is the engine's turn, and the pending word decodes to the command. -/
theorem stepRunsPendingCommand : Obligations.StepRunsPendingCommand := by
  intro s w i hb hp hw hturn
  exact step_of_engineTurn (engineTurn_iff.mpr ⟨hb, hturn⟩) (pendingCommand_of_decode hp hw)

/-- Settles O7: every command is a rule and then completion or abort. -/
theorem everyCommandCompletes : Obligations.EveryCommandCompletes := by
  intro i s
  exact ⟨_, exec_eq_complete i s, complete_busy _, complete_done _⟩

/-- Settles O40, one equation of the write to CMD per case. -/
theorem cmdWrite : Obligations.CmdWrite := by
  intro s w
  have hcmd : hostWrite 0x00000C#22 w s = writeCmd w s := hostWrite_of_listed (c := .cmd) w s rfl
  refine ⟨fun hb => ?_, fun e hb he => (illegalWordsRefused w).2 s e hb he, fun i hb hi => ?_⟩
  · rw [hcmd, writeCmd_of_busy w hb]
    rfl
  · rw [hcmd, writeCmd_of_legal hb hi]
    exact ⟨_, _, rfl⟩

/-- Settles O53: each write leaves a state in which the equation can be read off. -/
theorem interruptOutput : Obligations.InterruptOutput := by
  intro s
  refine ⟨by simp [State.irq], ?_, ?_, fun w i hb hi => ?_⟩
  · rw [(registerWrites s 0#32).1]
    simp [State.irq]
  · rw [statusWrite s 6#32]
    simp [State.irq]
  · obtain ⟨-, -, haccept⟩ := cmdWrite s w
    obtain ⟨d, n, h⟩ := haccept i hb hi
    rw [h]
    simp [State.irq]

/-- Settles O11: a command that completes records nothing, and one that aborts records an error of its own. -/
theorem commandErrorCodes : Obligations.CommandErrorCodes := by
  intro i s t herr hcode h
  obtain ⟨b, hst | ⟨e, he, hne, hst⟩⟩ := exec_next_status h <;> rw [hst]
  · simp [herr, hcode, none_mem_errorCodes]
  · simp [herr, List.mem_of_mem_tail he, hne]

/-- Settles O12: with ERR = 1 the record step does nothing, and acceptance does not look at ERR. -/
theorem firstErrorWins : Obligations.FirstErrorWins := by
  intro s
  refine ⟨fun i t herr h => ?_, fun off v herr hstatus hctrl => ?_, fun v hv => ?_, fun w i hb hi => ?_⟩
  · obtain ⟨b, hst | ⟨e, -, -, hst⟩⟩ := exec_next_status h <;> rw [hst]
    · exact ⟨herr, rfl⟩
    · rw [Status.record_of_err (st := { s.status with valid := b }) herr]
      exact ⟨herr, rfl⟩
  · obtain ⟨hsame, hcode⟩ := hostWrite_sameError herr hstatus hctrl
    exact ⟨hsame.trans herr, hcode⟩
  · rw [statusWrite s v, hv]
    exact ⟨rfl, rfl⟩
  · obtain ⟨-, -, haccept⟩ := cmdWrite s w
    obtain ⟨d, n, h⟩ := haccept i hb hi
    rw [h]
    exact ⟨rfl, rfl⟩

/-- Settles O59, by induction on `delay`: a step that does not end the command brings `delay` down. -/
theorem busyEnds : Obligations.BusyEnds := by
  intro s hb hp
  induction hd : s.delay using Nat.strongRecOn generalizing s with
  | ind d ih =>
    obtain ⟨t, ht, hidle | ⟨hbusy, hlegal, hless⟩⟩ := step_of_busy hb hp
    · exact ⟨1, t, by omega, runSteps_succ 0 ht, hidle⟩
    · obtain ⟨n, u, hn, hrun, hu⟩ := ih t.delay (hd ▸ hless) t hbusy hlegal rfl
      exact ⟨n + 1, u, by omega, (runSteps_succ n ht).trans hrun, hu⟩

end Sys2Proof.Proofs
end

section
/-! PROOFS. Power-on reset as a transaction of the host, and what the host's turn leaves unchanged while a command goes on
running. -/

namespace Sys2Proof.Machine

open Sys2Proof

/-! ### Power-on reset (R124) -/

theorem hostTurn_powerOn {s : State} {rest : List Transaction} (hin : s.inbox = .powerOn :: rest) :
    hostTurn s = powerOn (takeTurn rest s) := by
  rw [hostTurn, hin]

/-- The contents of all three memories are one fresh draw (R42, R124; log 2). -/
theorem powerOn_byteAt (s : State) (sp : Config.Space) (a : Nat) :
    (powerOn s).byteAt sp a = Config.unwrittenByte sp (s.draws + 1) a := by
  cases sp <;> exact Memory.read_unwritten _ _ a

/-! ### A turn of the host that leaves the command running (R50, R129) -/

/-- `t` is `s` after a transaction that left the command running: only DONE, ERR, ERRCODE, IER and the model's own fields may
differ, and one transaction fewer comes before the engine step. -/
def runsOnFrom (s t : State) : Prop :=
  t = { s with
    status := { s.status with done := t.status.done, err := t.status.err, code := t.status.code }
    ier := t.ier, inbox := t.inbox, replies := t.replies, delay := s.delay - 1, draws := t.draws }

theorem runsOnFrom.valid {s t : State} (h : runsOnFrom s t) : t.status.valid = s.status.valid := by rw [h]

theorem hostRead_runsOnFrom (off : Offset) (rest : List Transaction) (s : State) :
    runsOnFrom s (hostRead off (takeTurn rest s)) := rfl

/-- What the port writes after a transaction has left the inbox is among what a running command lets change. -/
theorem runsOnFrom.of_portWritesFrom {s t : State} {rest : List Transaction}
    (h : portWritesFrom (takeTurn rest s) t) : runsOnFrom s t := by
  rw [runsOnFrom, h]
  rfl

/-- Each transaction of the host ends the running command by a reset, or lets it run on with its inputs and its results
frozen. -/
theorem hostTurn_runsOnFrom {s : State} (hb : s.status.busy = true) (hin : s.inbox ≠ []) :
    (hostTurn s).status.busy = false ∨ runsOnFrom s (hostTurn s) := by
  unfold hostTurn
  split
  case h_1 h => exact absurd h hin
  case h_2 off rest _ => exact .inr (hostRead_runsOnFrom off rest s)
  case h_3 off v rest _ =>
    exact (hostWrite_of_busy off v (s := takeTurn rest s) hb).imp_right .of_portWritesFrom
  case h_4 rest _ => exact .inr (hostRead_runsOnFrom statusOffset _ s)
  case h_5 rest _ => exact .inl rfl

/-- A step that leaves a running command running is the host's, as the engine's would end it (R109). -/
theorem step_runsOnFrom {s t : State} (hb : s.status.busy = true) (h : step s = .next t) (ht : t.status.busy = true) :
    runsOnFrom s t := by
  rcases step_next_cases h with ⟨i, -, -, rfl⟩ | ⟨hturn, rfl⟩
  · rw [complete_busy] at ht; cases ht
  · have hin : s.inbox ≠ [] := fun hnil =>
      Bool.eq_false_iff.mp hturn (engineTurn_iff.mpr ⟨hb, .inl hnil⟩)
    rcases hostTurn_runsOnFrom hb hin with hidle | hon
    · rw [hidle] at ht; cases ht
    · exact hon

end Sys2Proof.Machine
end

section
/-! PROOFS. The statements about reset and about what is frozen while busy: O60, O55 and O57. -/

namespace Sys2Proof.Proofs

open Sys2Proof Sys2Proof.Machine

/-- Settles O60: such a step is a transaction of the host's, and the busy rules let none of those fields change. -/
theorem frozenWhileBusy : Obligations.FrozenWhileBusy := by
  intro s t hb h ht
  have hon := step_runsOnFrom hb h ht
  exact ⟨hon, hon.valid⟩

/-- Settles O55: the reset input at the head of the inbox is the host's turn, and the register values are those of
`State.reset`. -/
theorem powerOnReset : Obligations.PowerOnReset := by
  intro s rest hin hturn
  refine ⟨powerOn (takeTurn rest s), (step_of_inbox hin hturn).trans (congrArg _ (hostTurn_powerOn hin)),
    rfl, rfl, rfl, rfl, rfl, rfl, rfl, rfl, rfl, rfl, rfl, rfl, rfl, rfl, rfl, rfl, rfl, rfl, rfl, ?_, rfl⟩
  exact powerOn_byteAt (takeTurn rest s)

/-- Settles O57: the suggested capacities are legal, and memories of which nothing is written are within them. -/
theorem invariantAtReset : Obligations.InvariantAtReset :=
  powerOnValues_inv (by decide) rfl (Memory.within_unwritten _ _) (Memory.within_unwritten _ _)
    (Memory.within_unwritten _ _)

end Sys2Proof.Proofs
end
